-- ==== Sys2Proof/Word.lean ====
section
/-! DEFINITION. The word types of Pippin and their plainest readings (00_scope.md R5, R7). -/

namespace Sys2Proof

/-- The smallest addressable unit, 8 bits (00_scope.md R5). -/
abbrev Byte := BitVec 8

/-- An instruction word or a 16-bit extension word (30_encoding.md R80). -/
abbrev Half := BitVec 16

/-- The width of a register, of IP and of an address (00_scope.md R5). -/
abbrev Word := BitVec 32

/-- A 3-bit register number, 0 to 7 (10_state.md R20, R21). -/
abbrev RegNum := Fin 8

/-- A one-bit flag as the number 0 or 1, for the sums of 40_components.md R145 and R146. -/
abbrev bit (b : Bool) : Nat := b.toNat

end Sys2Proof
end

