-- ==== Sys2Proof/Config.lean ====
section
/-! DEFINITION. The implementation parameters of 00_scope.md R6, each with every value the spec gives
it, and the constants without a body that stand for what the spec leaves free. A state carries one
`Config`; no step changes it (00_scope.md R12; log 1). -/

namespace Sys2Proof

/-- `BYTE_ORDER` (20_memory.md R54, D1). -/
inductive ByteOrder where
  | big
  | little
  deriving DecidableEq, Repr

/-- `C_SUB_POLARITY`: what C says after a subtraction (40_components.md R144, R146, D3, C1). -/
inductive SubCarry where
  | borrow
  | notBorrow
  deriving DecidableEq, Repr

/-- `NARROW_REG_WRITE`: what a byte or halfword result does to the rest of a register
(10_state.md R27, D4). -/
inductive NarrowWrite where
  | signExtend
  | zeroExtend
  | preserve
  deriving DecidableEq, Repr

/-- `SR_LAYOUT`: the bit of SR that holds each flag (10_state.md R25, D5). A flag lies in the low
byte, because an access at every scale covers all four ("n = Width(s) is at least 8"). -/
structure SrLayout where
  n : Fin 8
  z : Fin 8
  v : Fin 8
  c : Fin 8
  deriving DecidableEq, Repr

/-- `EXT_ORDER`: which extension words come first (30_encoding.md R87, D6). -/
inductive ExtOrder where
  | eaThenImm
  | immThenEa
  deriving DecidableEq, Repr

/-- `BYTE_IMM_STREAM_BYTES`: how much of the instruction stream a byte immediate takes
(30_encoding.md R86, D7). -/
inductive ByteImm where
  | oneByte
  | halfword
  deriving DecidableEq, Repr

/-- `IPREL_BASE`: the base of the two IP-relative modes (40_components.md R135, R136, D9). -/
inductive IpRelBase where
  | afterDisp
  | atDisp
  deriving DecidableEq, Repr

/-- `SP_STEP`: how far `++` and `--` move SP (40_components.md R139, D10, C3). -/
inductive SpStep where
  | four
  | scale
  deriving DecidableEq, Repr

/-- `ALIGN_POLICY` (20_memory.md R55, D12). -/
inductive AlignPolicy where
  | fault
  | allow
  deriving DecidableEq, Repr

/-- `ILLEGAL_POLICY`: what an illegal instruction word does (60_exceptions.md R261, D13). R6 gives it
one value. -/
inductive IllegalPolicy where
  | fault
  deriving DecidableEq, Repr

/-- `DIV_ZERO_POLICY`: what a zero divisor does (60_exceptions.md R264, D20). R6 gives it one value. -/
inductive DivZeroPolicy where
  | fault
  deriving DecidableEq, Repr

/-- `QSHIFT_WIDTH`: the width of the operand of the quick shifts (47_quick_shifts.md R225, D21). R6
gives it one value, 32. -/
inductive QshiftWidth where
  | bits32
  deriving DecidableEq, Repr

/-- `REV_FN`: what REV reverses (43_single_operand.md R185, D18). -/
inductive RevFn where
  | bitReverse
  | byteReverse
  deriving DecidableEq, Repr

/-- `MOD_SIGN`: whose sign the result of MODS has (44_complex_arith.md R196, D20). -/
inductive ModSign where
  | dividend
  | divisor
  deriving DecidableEq, Repr

/-- `LNK_IMM_EXTEND`: how the immediates of LNK and RFS are widened (41_miscellaneous.md R163, R164,
D22). -/
inductive FrameImm where
  | zeroExtend
  | signExtend
  deriving DecidableEq, Repr

/-- `JCC_KIND_BY`: what decides whether the operand of Jcc is an offset or an address
(49_flow_control.md R251, D24). -/
inductive JccKindBy where
  | scale
  | mode
  deriving DecidableEq, Repr

/-- `UNWRITTEN_READ`: what a read of a byte that nothing has written does (10_state.md R30, D33). -/
inductive UnwrittenRead where
  | fault
  | anyValue
  deriving DecidableEq, Repr

/-- One run of populated byte addresses: `size` bytes from `base` on (20_memory.md R59). -/
structure Region where
  base : Nat
  size : Nat
  deriving DecidableEq, Repr

/-- The parameters of 00_scope.md R6, less the launch state `INIT_*`, which `Machine.Launch` holds. -/
structure Config where
  byteOrder : ByteOrder
  spIndex : RegNum
  bpIndex : RegNum
  subCarry : SubCarry
  narrowWrite : NarrowWrite
  srLayout : SrLayout
  extOrder : ExtOrder
  byteImm : ByteImm
  dispSigned : Bool
  ipRelBase : IpRelBase
  spStep : SpStep
  align : AlignPolicy
  illegalPolicy : IllegalPolicy
  revFn : RevFn
  divZero : DivZeroPolicy
  modSign : ModSign
  qshiftWidth : QshiftWidth
  frameImm : FrameImm
  jccKindBy : JccKindBy
  unwrittenRead : UnwrittenRead
  /-- `HALT_WORD`, or `none` (70_reset_and_hazards.md R290, D27). -/
  haltWord : Option Half
  /-- `MEM_MAP`, as a list of regions (20_memory.md R59, D28). -/
  memMap : List Region
  deriving DecidableEq, Repr

/-- The default column of 00_scope.md R6. `MEM_MAP` has no default there (OPEN): DESIGN CHOICE, the
whole address space is populated (log 6). -/
def Config.default : Config where
  byteOrder := .big
  spIndex := 7
  bpIndex := 6
  subCarry := .borrow
  narrowWrite := .signExtend
  srLayout := ⟨3, 2, 1, 0⟩
  extOrder := .eaThenImm
  byteImm := .halfword
  dispSigned := true
  ipRelBase := .afterDisp
  spStep := .four
  align := .fault
  illegalPolicy := .fault
  revFn := .bitReverse
  divZero := .fault
  modSign := .dividend
  qshiftWidth := .bits32
  frameImm := .zeroExtend
  jccKindBy := .scale
  unwrittenRead := .fault
  haltWord := some 0xE7FE
  memMap := [⟨0, 2 ^ 32⟩]

/-- The four flags have four different places in SR. -/
def SrLayout.distinct (l : SrLayout) : Bool :=
  decide ([l.n, l.z, l.v, l.c].Nodup)

/-- The restrictions the spec puts on the parameters: SP and BP are two registers (D2: "as long as the
two differ"), the flags have four places in SR (R25), and a one-byte immediate needs fetches without
alignment (R86: "the alignment rule for fetches must be allow"). -/
def Config.wf (c : Config) : Bool :=
  decide (c.spIndex ≠ c.bpIndex) && c.srLayout.distinct &&
    decide (c.byteImm = .oneByte → c.align = .allow)

/-- FREE VALUE (log 8): the byte that a read of memory nothing has written draws, as the `k`-th free read,
under `UNWRITTEN_READ = any_value` (10_state.md R30). It has no body: nothing can be proved of it. -/
opaque Config.freeByte : Nat → Byte

/-- FREE VALUE (log 8): the word that a read of a register nothing has written draws, as the `k`-th free
read, under `UNWRITTEN_READ = any_value` (10_state.md R30). -/
opaque Config.freeWord : Nat → Word

/-- FREE VALUE (log 8): the bit that a read of a flag nothing has written draws, as the `k`-th free read,
under `UNWRITTEN_READ = any_value` (10_state.md R30). -/
opaque Config.freeFlag : Nat → Bool

/-- FREE VALUE (log 14): whether `JCC_KIND_BY = mode` takes the effective-address form with these
`mmm` and `xxx` fields as an address. 00_scope.md R6 names the value `mode`; no rule defines it. -/
opaque Config.jccModeIsAddress : BitVec 3 → BitVec 3 → Bool

end Sys2Proof
end

