-- ==== Sys2Proof/Syntax.lean ====
section
/-! DEFINITION. The instructions of Pippin: one constructor per row of spec/opcode_table.json
(30_encoding.md R83). A constructor holds the fields of the 16-bit instruction word and nothing else:
extension words are read through IP while the instruction runs (40_components.md R149; log 16). -/

namespace Sys2Proof

/-- The four scales (40_components.md R120). -/
inductive Scale where
  | b
  | h
  | w
  | a
  deriving DecidableEq, Repr

/-- The eleven effective-address forms (40_components.md R123), without their scale and without their
extension words. -/
inductive EA where
  /-- `Dx`, R126. -/
  | dreg (x : RegNum)
  /-- `Ax`, R127. -/
  | areg (x : RegNum)
  /-- `s(Ax++)`, R128. -/
  | postInc (x : RegNum)
  /-- `s(--Ax)`, R129. -/
  | preDec (x : RegNum)
  /-- `s(Ax)`, R130. -/
  | deferred (x : RegNum)
  /-- `s(Ax+dsp16)`, R131. -/
  | base16 (x : RegNum)
  /-- `s(Ax+dsp32)`, R132. -/
  | base32 (x : RegNum)
  /-- `SR`, R133. -/
  | sr
  /-- `#imm`, R134. -/
  | imm
  /-- `s(IP+dsp16)`, R135. -/
  | ip16
  /-- `s(IP+dsp32)`, R136. -/
  | ip32
  deriving DecidableEq, Repr

/-- The 4-bit field `cccc` of Bcc and Jcc (40_components.md R141). -/
abbrev CondCode := BitVec 4

/-- The fifty instructions in the order of 30_encoding.md R83. `ss` is the scale, `ea` the effective
address, `y` and `x` register numbers, `q` a quick immediate as it stands in the word. -/
inductive Instr where
  -- Miscellaneous
  | nop
  | rfi
  | unlnk
  | rfs (ss : Scale)
  | lnk (ss : Scale)
  -- Arithmetic with Immediate
  | cmpi (ss : Scale) (ea : EA)
  | addi (ss : Scale) (ea : EA)
  | subi (ss : Scale) (ea : EA)
  | xori (ss : Scale) (ea : EA)
  | ori (ss : Scale) (ea : EA)
  | andi (ss : Scale) (ea : EA)
  | sti (ss : Scale) (ea : EA)
  -- Single-operand Arithmetic
  | not (ss : Scale) (ea : EA)
  | neg (ss : Scale) (ea : EA)
  | adc (ss : Scale) (ea : EA)
  | sbc (ss : Scale) (ea : EA)
  | clr (ss : Scale) (ea : EA)
  | rev (ss : Scale) (ea : EA)
  | ext (ss : Scale) (ea : EA)
  | tst (ss : Scale) (ea : EA)
  -- Complex Arithmetic
  | mul (y x : RegNum)
  | hmulu (y x : RegNum)
  | hmuls (y x : RegNum)
  | divu (y x : RegNum)
  | divs (y x : RegNum)
  | modu (y x : RegNum)
  | mods (y x : RegNum)
  -- Shifts and Rotates
  | lsl (y : RegNum) (ea : EA)
  | lsr (y : RegNum) (ea : EA)
  | asr (y : RegNum) (ea : EA)
  | ror (y : RegNum) (ea : EA)
  -- Quick Arithmetic
  | ldq (y : RegNum) (q : BitVec 8)
  | cmpq (y : RegNum) (q : BitVec 8)
  | addq (q : BitVec 3) (ss : Scale) (ea : EA)
  | subq (q : BitVec 3) (ss : Scale) (ea : EA)
  -- Quick Shifts and Rotates
  | lslq (q : BitVec 5) (ea : EA)
  | lsrq (q : BitVec 5) (ea : EA)
  | asrq (q : BitVec 5) (ea : EA)
  | rorq (q : BitVec 5) (ea : EA)
  | rrc (ea : EA)
  -- Arithmetic
  | ld (y : RegNum) (ss : Scale) (ea : EA)
  | cmp (y : RegNum) (ss : Scale) (ea : EA)
  | add (y : RegNum) (ss : Scale) (ea : EA)
  | sub (y : RegNum) (ss : Scale) (ea : EA)
  | xor (y : RegNum) (ss : Scale) (ea : EA)
  | or (y : RegNum) (ss : Scale) (ea : EA)
  | and (y : RegNum) (ss : Scale) (ea : EA)
  | st (y : RegNum) (ss : Scale) (ea : EA)
  -- Flow Control
  | bcc (cccc : CondCode) (q : BitVec 8)
  | jcc (cccc : CondCode) (ss : Scale) (ea : EA)
  deriving DecidableEq, Repr

end Sys2Proof
end

