-- ==== Sys2Proof/WellFormed.lean ====
section
/-! DEFINITION. Which instructions have an instruction word: the two operand checks of
30_encoding.md R83 (RORQ) and R91 (an immediate is no destination). -/

namespace Sys2Proof

/-- The effective address an instruction writes, where it writes one (30_encoding.md R91). -/
def Instr.writtenEA : Instr → Option EA
  | .nop => none
  | .rfi => none
  | .unlnk => none
  | .rfs _ => none
  | .lnk _ => none
  | .cmpi _ _ => none
  | .addi _ ea => some ea
  | .subi _ ea => some ea
  | .xori _ ea => some ea
  | .ori _ ea => some ea
  | .andi _ ea => some ea
  | .sti _ ea => some ea
  | .not _ ea => some ea
  | .neg _ ea => some ea
  | .adc _ ea => some ea
  | .sbc _ ea => some ea
  | .clr _ ea => some ea
  | .rev _ ea => some ea
  | .ext _ ea => some ea
  | .tst _ _ => none
  | .mul _ _ => none
  | .hmulu _ _ => none
  | .hmuls _ _ => none
  | .divu _ _ => none
  | .divs _ _ => none
  | .modu _ _ => none
  | .mods _ _ => none
  | .lsl _ _ => none
  | .lsr _ _ => none
  | .asr _ _ => none
  | .ror _ _ => none
  | .ldq _ _ => none
  | .cmpq _ _ => none
  | .addq _ _ ea => some ea
  | .subq _ _ ea => some ea
  | .lslq _ ea => some ea
  | .lsrq _ ea => some ea
  | .asrq _ ea => some ea
  | .rorq _ ea => some ea
  | .rrc ea => some ea
  | .ld _ _ _ => none
  | .cmp _ _ _ => none
  | .add _ _ _ => none
  | .sub _ _ _ => none
  | .xor _ _ _ => none
  | .or _ _ _ => none
  | .and _ _ _ => none
  | .st _ _ ea => some ea
  | .bcc _ _ => none
  | .jcc _ _ _ => none

/-- The immediate form stands as a destination: illegal (30_encoding.md R91, 40_components.md R140). -/
def Instr.immediateDestination (i : Instr) : Bool :=
  decide (i.writtenEA = some .imm)

/-- RORQ with a count of 0: that word is RRC (47_quick_shifts.md R223, R224, C8). -/
def Instr.rotateByZero : Instr → Bool
  | .rorq q _ => decide (q = 0)
  | _ => false

/-- The instruction has an instruction word that decodes to it. -/
def Instr.wf (i : Instr) : Bool :=
  !i.immediateDestination && !i.rotateByZero

end Sys2Proof
end

