-- ==== Sys2Proof/Decode.lean ====
section
/-! DEFINITION. The decoder (30_encoding.md R89), total on every word and every list of bytes and
rejecting by name; after it the encoder, the byte layout of an instruction word, and the opcode map of
R83 as masks and matches. -/

namespace Sys2Proof

/-- Why a word is no instruction (30_encoding.md R90, R91). -/
inductive DecodeError where
  /-- The word selects no row of the opcode map (R90). -/
  | unlisted (w : Half)
  /-- Mode 111 with `xxx` in 001, 011, 100, 111 (40_components.md R140). -/
  | reservedEA (w : Half)
  /-- The immediate form as a destination (R91). -/
  | immediateDestination (w : Half)
  /-- Fewer than two bytes were given. -/
  | truncated
  deriving DecidableEq, Repr

/-- The scale of a 2-bit field `ss` (40_components.md R120). -/
def decodeScale (ss : BitVec 2) : Scale :=
  if ss = 0b00#2 then .b
  else if ss = 0b01#2 then .h
  else if ss = 0b10#2 then .w
  else .a

/-- The register number in a 3-bit field. -/
def decodeReg (x : BitVec 3) : RegNum := x.toFin

/-- The effective-address form of the fields `mmm` and `xxx` (40_components.md R123); `none` for the
four unlisted forms (R140). -/
def decodeEA (m x : BitVec 3) : Option EA :=
  if m = 0b000#3 then some (.dreg (decodeReg x))
  else if m = 0b001#3 then some (.areg (decodeReg x))
  else if m = 0b010#3 then some (.postInc (decodeReg x))
  else if m = 0b011#3 then some (.preDec (decodeReg x))
  else if m = 0b100#3 then some (.deferred (decodeReg x))
  else if m = 0b101#3 then some (.base16 (decodeReg x))
  else if m = 0b110#3 then some (.base32 (decodeReg x))
  else if x = 0b000#3 then some .sr
  else if x = 0b010#3 then some .imm
  else if x = 0b101#3 then some .ip16
  else if x = 0b110#3 then some .ip32
  else none

/-- Rows 1 to 5 by the low byte (30_encoding.md R83). -/
def decodeMisc (w : Half) : Option Instr :=
  let low := w.extractLsb' 0 8
  if low = 0x00#8 then some .nop
  else if low = 0x10#8 then some .rfi
  else if low = 0x18#8 then some .unlnk
  else if low.extractLsb' 0 6 = 0b110000#6 then some (.rfs (decodeScale (w.extractLsb' 6 2)))
  else if low.extractLsb' 0 6 = 0b111000#6 then some (.lnk (decodeScale (w.extractLsb' 6 2)))
  else none

/-- Rows 6 to 20 by the high byte, 0x01 to 0x0F. -/
def decodeOpea (op : BitVec 8) : Option (Scale → EA → Instr) :=
  if op = 0x01#8 then some .cmpi
  else if op = 0x02#8 then some .addi
  else if op = 0x03#8 then some .subi
  else if op = 0x04#8 then some .xori
  else if op = 0x05#8 then some .ori
  else if op = 0x06#8 then some .andi
  else if op = 0x07#8 then some .sti
  else if op = 0x08#8 then some .not
  else if op = 0x09#8 then some .neg
  else if op = 0x0A#8 then some .adc
  else if op = 0x0B#8 then some .sbc
  else if op = 0x0C#8 then some .clr
  else if op = 0x0D#8 then some .rev
  else if op = 0x0E#8 then some .ext
  else if op = 0x0F#8 then some .tst
  else none

/-- Rows 21 to 27 by `ppp`, bits 5:3; 000 is unlisted (30_encoding.md R90). -/
def decodeCplx (p : BitVec 3) : Option (RegNum → RegNum → Instr) :=
  if p = 0b001#3 then some .mul
  else if p = 0b010#3 then some .hmulu
  else if p = 0b011#3 then some .hmuls
  else if p = 0b100#3 then some .divu
  else if p = 0b101#3 then some .divs
  else if p = 0b110#3 then some .modu
  else if p = 0b111#3 then some .mods
  else none

/-- Rows 28 to 31 by the kind `kk`, bits 7:6. -/
def decodeShft (k : BitVec 2) : RegNum → EA → Instr :=
  if k = 0b00#2 then .lsl
  else if k = 0b01#2 then .lsr
  else if k = 0b10#2 then .asr
  else .ror

/-- Rows 36 to 40 by the kind `kk`, bits 12:11, and the count; RRC has the slot of a rotate by zero
(47_quick_shifts.md R224, C8). -/
def decodeQsh (k : BitVec 2) (q : BitVec 5) : EA → Instr :=
  if k = 0b00#2 then .lslq q
  else if k = 0b01#2 then .lsrq q
  else if k = 0b10#2 then .asrq q
  else if q = 0#5 then .rrc
  else .rorq q

/-- Rows 41 to 48 by `ppp`, bits 13:11. -/
def decodeRea (p : BitVec 3) : RegNum → Scale → EA → Instr :=
  if p = 0b000#3 then .ld
  else if p = 0b001#3 then .cmp
  else if p = 0b010#3 then .add
  else if p = 0b011#3 then .sub
  else if p = 0b100#3 then .xor
  else if p = 0b101#3 then .or
  else if p = 0b110#3 then .and
  else .st

/-- A row with an effective address: reserved forms are illegal (R140), and then the operand check of
R91. -/
def withEA (w : Half) (f : EA → Instr) : Except DecodeError Instr :=
  match decodeEA (w.extractLsb' 3 3) (w.extractLsb' 0 3) with
  | none => .error (.reservedEA w)
  | some ea =>
    if (f ea).immediateDestination then .error (.immediateDestination w) else .ok (f ea)

/-- A row found or not. -/
def listed (w : Half) : Option Instr → Except DecodeError Instr
  | some i => .ok i
  | none => .error (.unlisted w)

/-- The decode procedure of 30_encoding.md R89. Bit 15 is the leftmost pattern character
(00_scope.md R7; log 25). -/
def decode (w : Half) : Except DecodeError Instr :=
  let high := w.extractLsb' 8 8
  let top5 := w.extractLsb' 11 5
  let y := decodeReg (w.extractLsb' 8 3)
  let x := decodeReg (w.extractLsb' 0 3)
  let ss := decodeScale (w.extractLsb' 6 2)
  if high = 0x00#8 then listed w (decodeMisc w)
  else if top5 = 0b00000#5 ∨ top5 = 0b00001#5 then
    match decodeOpea high with
    | some f => withEA w (f ss)
    | none => .error (.unlisted w)
  else if top5 = 0b00010#5 then
    if w.extractLsb' 6 2 = 0b00#2 then
      match decodeCplx (w.extractLsb' 3 3) with
      | some f => .ok (f y x)
      | none => .error (.unlisted w)
    else .error (.unlisted w)
  else if top5 = 0b00011#5 then withEA w (decodeShft (w.extractLsb' 6 2) y)
  else if top5 = 0b01000#5 then .ok (.ldq y (w.extractLsb' 0 8))
  else if top5 = 0b01001#5 then .ok (.cmpq y (w.extractLsb' 0 8))
  else if top5 = 0b01010#5 then withEA w (.addq (w.extractLsb' 8 3) ss)
  else if top5 = 0b01011#5 then withEA w (.subq (w.extractLsb' 8 3) ss)
  else if w.extractLsb' 13 3 = 0b011#3 then
    withEA w (decodeQsh (w.extractLsb' 11 2) (w.extractLsb' 6 5))
  else if w.extractLsb' 14 2 = 0b10#2 then withEA w (decodeRea (w.extractLsb' 11 3) y ss)
  else if w.extractLsb' 12 4 = 0b1110#4 then
    .ok (.bcc (w.extractLsb' 8 4) (w.extractLsb' 0 8))
  else if w.extractLsb' 12 4 = 0b1111#4 then withEA w (.jcc (w.extractLsb' 8 4) ss)
  else .error (.unlisted w)

/-- The two bytes of a halfword in the order they lie in memory, lowest address first
(20_memory.md R54). -/
def halfBytes (o : ByteOrder) (w : Half) : List Byte :=
  match o with
  | .big => [w.extractLsb' 8 8, w.extractLsb' 0 8]
  | .little => [w.extractLsb' 0 8, w.extractLsb' 8 8]

/-- The halfword made of two bytes, lowest address first. -/
def bytesHalf (o : ByteOrder) (b0 b1 : Byte) : Half :=
  match o with
  | .big => b0 ++ b1
  | .little => b1 ++ b0

/-- Decode the instruction word at the front of a list of bytes and give the rest, where the extension
words stand. -/
def decodeBytes (o : ByteOrder) : List Byte → Except DecodeError (Instr × List Byte)
  | b0 :: b1 :: rest =>
    match decode (bytesHalf o b0 b1) with
    | .ok i => .ok (i, rest)
    | .error e => .error e
  | _ => .error .truncated

/-! ### The encoder -/

/-- The field `ss` of a scale (40_components.md R120). -/
def encodeScale : Scale → BitVec 2
  | .b => 0b00#2
  | .h => 0b01#2
  | .w => 0b10#2
  | .a => 0b11#2

/-- The 3-bit field of a register number. -/
def encodeReg (r : RegNum) : BitVec 3 := BitVec.ofFin r

/-- The field `mmm` of an effective-address form (40_components.md R123). -/
def EA.modeBits : EA → BitVec 3
  | .dreg _ => 0b000#3
  | .areg _ => 0b001#3
  | .postInc _ => 0b010#3
  | .preDec _ => 0b011#3
  | .deferred _ => 0b100#3
  | .base16 _ => 0b101#3
  | .base32 _ => 0b110#3
  | .sr => 0b111#3
  | .imm => 0b111#3
  | .ip16 => 0b111#3
  | .ip32 => 0b111#3

/-- The field `xxx` of an effective-address form (40_components.md R123). -/
def EA.regBits : EA → BitVec 3
  | .dreg x => encodeReg x
  | .areg x => encodeReg x
  | .postInc x => encodeReg x
  | .preDec x => encodeReg x
  | .deferred x => encodeReg x
  | .base16 x => encodeReg x
  | .base32 x => encodeReg x
  | .sr => 0b000#3
  | .imm => 0b010#3
  | .ip16 => 0b101#3
  | .ip32 => 0b110#3

/-- The six bits `mmmxxx`. -/
def encodeEA (ea : EA) : BitVec 6 := ea.modeBits ++ ea.regBits

/-- Format OPEA: `oooooooo ss mmm xxx` (30_encoding.md R81). -/
def opeaWord (op : BitVec 8) (ss : Scale) (ea : EA) : Half :=
  op ++ (encodeScale ss ++ encodeEA ea)

/-- Format CPLX: `00010 yyy 00 ppp xxx`. -/
def cplxWord (p : BitVec 3) (y x : RegNum) : Half :=
  0b00010#5 ++ (encodeReg y ++ (0b00#2 ++ (p ++ encodeReg x)))

/-- Format SHFT: `00011 yyy kk mmm xxx`. -/
def shftWord (k : BitVec 2) (y : RegNum) (ea : EA) : Half :=
  0b00011#5 ++ (encodeReg y ++ (k ++ encodeEA ea))

/-- Format Q8: `op5 yyy qqqqqqqq`. -/
def q8Word (op : BitVec 5) (y : RegNum) (q : BitVec 8) : Half :=
  op ++ (encodeReg y ++ q)

/-- Format Q3EA: `op5 qqq ss mmm xxx`. -/
def q3Word (op : BitVec 5) (q : BitVec 3) (ss : Scale) (ea : EA) : Half :=
  op ++ (q ++ (encodeScale ss ++ encodeEA ea))

/-- Format QSH: `011 kk qqqqq mmm xxx`. -/
def qshWord (k : BitVec 2) (q : BitVec 5) (ea : EA) : Half :=
  0b011#3 ++ (k ++ (q ++ encodeEA ea))

/-- Format REA: `10 ppp yyy ss mmm xxx`. -/
def reaWord (p : BitVec 3) (y : RegNum) (ss : Scale) (ea : EA) : Half :=
  0b10#2 ++ (p ++ (encodeReg y ++ (encodeScale ss ++ encodeEA ea)))

/-- The instruction word of an instruction (30_encoding.md R81, R83). -/
def encode : Instr → Half
  | .nop => 0x0000#16
  | .rfi => 0x0010#16
  | .unlnk => 0x0018#16
  | .rfs ss => 0x00#8 ++ (encodeScale ss ++ 0b110000#6)
  | .lnk ss => 0x00#8 ++ (encodeScale ss ++ 0b111000#6)
  | .cmpi ss ea => opeaWord 0x01#8 ss ea
  | .addi ss ea => opeaWord 0x02#8 ss ea
  | .subi ss ea => opeaWord 0x03#8 ss ea
  | .xori ss ea => opeaWord 0x04#8 ss ea
  | .ori ss ea => opeaWord 0x05#8 ss ea
  | .andi ss ea => opeaWord 0x06#8 ss ea
  | .sti ss ea => opeaWord 0x07#8 ss ea
  | .not ss ea => opeaWord 0x08#8 ss ea
  | .neg ss ea => opeaWord 0x09#8 ss ea
  | .adc ss ea => opeaWord 0x0A#8 ss ea
  | .sbc ss ea => opeaWord 0x0B#8 ss ea
  | .clr ss ea => opeaWord 0x0C#8 ss ea
  | .rev ss ea => opeaWord 0x0D#8 ss ea
  | .ext ss ea => opeaWord 0x0E#8 ss ea
  | .tst ss ea => opeaWord 0x0F#8 ss ea
  | .mul y x => cplxWord 0b001#3 y x
  | .hmulu y x => cplxWord 0b010#3 y x
  | .hmuls y x => cplxWord 0b011#3 y x
  | .divu y x => cplxWord 0b100#3 y x
  | .divs y x => cplxWord 0b101#3 y x
  | .modu y x => cplxWord 0b110#3 y x
  | .mods y x => cplxWord 0b111#3 y x
  | .lsl y ea => shftWord 0b00#2 y ea
  | .lsr y ea => shftWord 0b01#2 y ea
  | .asr y ea => shftWord 0b10#2 y ea
  | .ror y ea => shftWord 0b11#2 y ea
  | .ldq y q => q8Word 0b01000#5 y q
  | .cmpq y q => q8Word 0b01001#5 y q
  | .addq q ss ea => q3Word 0b01010#5 q ss ea
  | .subq q ss ea => q3Word 0b01011#5 q ss ea
  | .lslq q ea => qshWord 0b00#2 q ea
  | .lsrq q ea => qshWord 0b01#2 q ea
  | .asrq q ea => qshWord 0b10#2 q ea
  | .rorq q ea => qshWord 0b11#2 q ea
  | .rrc ea => qshWord 0b11#2 0#5 ea
  | .ld y ss ea => reaWord 0b000#3 y ss ea
  | .cmp y ss ea => reaWord 0b001#3 y ss ea
  | .add y ss ea => reaWord 0b010#3 y ss ea
  | .sub y ss ea => reaWord 0b011#3 y ss ea
  | .xor y ss ea => reaWord 0b100#3 y ss ea
  | .or y ss ea => reaWord 0b101#3 y ss ea
  | .and y ss ea => reaWord 0b110#3 y ss ea
  | .st y ss ea => reaWord 0b111#3 y ss ea
  | .bcc c q => 0b1110#4 ++ (c ++ q)
  | .jcc c ss ea => 0b1111#4 ++ (c ++ (encodeScale ss ++ encodeEA ea))

/-- The bytes of an instruction word as they lie in memory. -/
def encodeBytes (o : ByteOrder) (i : Instr) : List Byte := halfBytes o (encode i)

/-! ### The host's word -/

/-- The `k` halfwords of the number `w`, the first in its low 16 bits, as they lie in memory
(numbered as spec/opcode_table.json numbers them). -/
def layoutHalves (o : ByteOrder) : Nat → Nat → List Byte
  | 0, _ => []
  | k + 1, w => halfBytes o (BitVec.ofNat 16 w) ++ layoutHalves o k (w / 2 ^ 16)

/-- The ten bytes of the longest instruction (30_encoding.md R88) whose low `nbits` bits are `w` and
whose other bits are 0. -/
def instrBytes (o : ByteOrder) (nbits w : Nat) : List Byte :=
  layoutHalves o 5 (w % 2 ^ nbits)

/-- The instruction the decoder reads from the bits `w`, laid out in the default byte order. -/
def decodeTableWord (nbits w : Nat) : Option Instr :=
  match decodeBytes Config.default.byteOrder (instrBytes Config.default.byteOrder nbits w) with
  | .ok (i, _) => some i
  | .error _ => none

/-! ### The opcode map as masks -/

/-- The columns `match` and `mask` of 30_encoding.md R83. -/
structure OpcodeRow where
  value : Half
  mask : Half
  deriving DecidableEq, Repr

/-- The row of 30_encoding.md R83 an instruction stands in. -/
def Instr.row : Instr → OpcodeRow
  | .nop => ⟨0x0000, 0xFFFF⟩
  | .rfi => ⟨0x0010, 0xFFFF⟩
  | .unlnk => ⟨0x0018, 0xFFFF⟩
  | .rfs _ => ⟨0x0030, 0xFF3F⟩
  | .lnk _ => ⟨0x0038, 0xFF3F⟩
  | .cmpi _ _ => ⟨0x0100, 0xFF00⟩
  | .addi _ _ => ⟨0x0200, 0xFF00⟩
  | .subi _ _ => ⟨0x0300, 0xFF00⟩
  | .xori _ _ => ⟨0x0400, 0xFF00⟩
  | .ori _ _ => ⟨0x0500, 0xFF00⟩
  | .andi _ _ => ⟨0x0600, 0xFF00⟩
  | .sti _ _ => ⟨0x0700, 0xFF00⟩
  | .not _ _ => ⟨0x0800, 0xFF00⟩
  | .neg _ _ => ⟨0x0900, 0xFF00⟩
  | .adc _ _ => ⟨0x0A00, 0xFF00⟩
  | .sbc _ _ => ⟨0x0B00, 0xFF00⟩
  | .clr _ _ => ⟨0x0C00, 0xFF00⟩
  | .rev _ _ => ⟨0x0D00, 0xFF00⟩
  | .ext _ _ => ⟨0x0E00, 0xFF00⟩
  | .tst _ _ => ⟨0x0F00, 0xFF00⟩
  | .mul _ _ => ⟨0x1008, 0xF8F8⟩
  | .hmulu _ _ => ⟨0x1010, 0xF8F8⟩
  | .hmuls _ _ => ⟨0x1018, 0xF8F8⟩
  | .divu _ _ => ⟨0x1020, 0xF8F8⟩
  | .divs _ _ => ⟨0x1028, 0xF8F8⟩
  | .modu _ _ => ⟨0x1030, 0xF8F8⟩
  | .mods _ _ => ⟨0x1038, 0xF8F8⟩
  | .lsl _ _ => ⟨0x1800, 0xF8C0⟩
  | .lsr _ _ => ⟨0x1840, 0xF8C0⟩
  | .asr _ _ => ⟨0x1880, 0xF8C0⟩
  | .ror _ _ => ⟨0x18C0, 0xF8C0⟩
  | .ldq _ _ => ⟨0x4000, 0xF800⟩
  | .cmpq _ _ => ⟨0x4800, 0xF800⟩
  | .addq _ _ _ => ⟨0x5000, 0xF800⟩
  | .subq _ _ _ => ⟨0x5800, 0xF800⟩
  | .lslq _ _ => ⟨0x6000, 0xF800⟩
  | .lsrq _ _ => ⟨0x6800, 0xF800⟩
  | .asrq _ _ => ⟨0x7000, 0xF800⟩
  | .rorq _ _ => ⟨0x7800, 0xF800⟩
  | .rrc _ => ⟨0x7800, 0xFFC0⟩
  | .ld _ _ _ => ⟨0x8000, 0xF800⟩
  | .cmp _ _ _ => ⟨0x8800, 0xF800⟩
  | .add _ _ _ => ⟨0x9000, 0xF800⟩
  | .sub _ _ _ => ⟨0x9800, 0xF800⟩
  | .xor _ _ _ => ⟨0xA000, 0xF800⟩
  | .or _ _ _ => ⟨0xA800, 0xF800⟩
  | .and _ _ _ => ⟨0xB000, 0xF800⟩
  | .st _ _ _ => ⟨0xB800, 0xF800⟩
  | .bcc _ _ => ⟨0xE000, 0xF000⟩
  | .jcc _ _ _ => ⟨0xF000, 0xF000⟩

end Sys2Proof
end

