-- ==== Sys2Proof/Machine/State.lean ====
section
/-! DEFINITION. The state of Pippin as plain data (00_scope.md R12), the reasons a step can stop
(60_exceptions.md R278), and the state after reset (10_state.md R29). -/

namespace Sys2Proof.Machine

/-- The four condition flags (10_state.md R24). -/
structure Flags where
  n : Bool
  z : Bool
  v : Bool
  c : Bool
  deriving DecidableEq, Repr

/-- The names of the four flags (10_state.md R24). -/
inductive FlagName where
  | n
  | z
  | v
  | c
  deriving DecidableEq, Repr

/-- The two register files, D and A (10_state.md R20, R21). -/
inductive RegFile where
  | d
  | a
  deriving DecidableEq, Repr

/-- The kind of an access, as the faults report it (60_exceptions.md R278). -/
inductive Access where
  | fetch
  | read
  | write
  deriving DecidableEq, Repr

/-- What was read before anything had written it: "which register, flag or address"
(60_exceptions.md R278, row 5). -/
inductive Unwritten where
  | register (file : RegFile) (i : RegNum)
  | flag (f : FlagName)
  | byte (addr : Word)
  deriving DecidableEq, Repr

/-- Why the machine stops (60_exceptions.md R278). A fault is precise and terminal: the step answers it
instead of a next state, and nothing of the instruction is kept (R260). Every fault errs on the safe
side: no claim about what follows can be stated. -/
inductive Fault where
  /-- R261, raised by `step` for a word that decodes to no instruction, and by a meaning whose
  destination is the immediate form (only an ill-formed term reaches that). Safe. -/
  | illegalInstruction (w : Half)
  /-- R262, raised by `checkAlign` for fetches, reads and writes under `ALIGN_POLICY = fault`. Safe. -/
  | misaligned (addr : Word) (size : Nat) (kind : Access)
  /-- R263, raised by `checkMap` for an access that touches a byte outside `MEM_MAP`. Safe. -/
  | accessFault (addr : Word) (kind : Access)
  /-- R264, raised by DIVU, DIVS, MODU and MODS for a zero divisor. Safe. -/
  | divideByZero
  /-- R265, raised by `readReg`, `readFlag` and `readByte` for a register, a flag or a byte that neither
  the launch state nor an instruction has written, under `UNWRITTEN_READ = fault`. Safe. -/
  | unwrittenRead (what : Unwritten)
  /-- R290, raised by `step`: the halfword at IP is `HALT_WORD` and the run is over. It is the host's
  normal end of a run, not a fault of the program; the end state is the state before the step
  (log 9). Safe. -/
  | halted
  deriving DecidableEq, Repr

/-- Why the model gives an instruction no meaning. -/
inductive Refusal where
  /-- `Refused` of R267 and R278, code 6: raised by RFI only, with its name. Safe. -/
  | refused (mnemonic : String)
  /-- An instruction that `exec` has no meaning for yet. Safe. -/
  | notModelled (mnemonic : String)
  deriving DecidableEq, Repr

/-- Memory: the bytes that have been written, at strictly rising addresses (20_memory.md R50). A byte
that is not listed has never been written (10_state.md R30; log 5). -/
abbrev Memory := List Host.Cell

/-- The state of the machine (00_scope.md R12) with its configuration (log 1), what has been written of
it (10_state.md R30; log 7) and one counter of the model's own (log 8). -/
structure State where
  /-- D0 to D7 (10_state.md R20). -/
  d : Vector Word 8
  /-- A0 to A7 (10_state.md R21); SP and BP are two of them (R22). -/
  a : Vector Word 8
  /-- The instruction pointer (10_state.md R23). -/
  ip : Word
  /-- N, Z, V, C (10_state.md R24); SR is a view of them (R25). -/
  flags : Flags
  /-- Which of D0 to D7 the launch state or an instruction has written (10_state.md R30). What `d` holds
  for another is never read. -/
  dWritten : Vector Bool 8
  /-- Which of A0 to A7 the launch state or an instruction has written (10_state.md R30). -/
  aWritten : Vector Bool 8
  /-- Which flags the launch state or an instruction has written (10_state.md R30): true where it has. -/
  flagsWritten : Flags
  /-- The memory, which lists the bytes that have been written (20_memory.md R50). -/
  mem : Memory
  /-- The MODEL's own field: how many free values reads of unwritten state have drawn (log 8). -/
  freeReads : Nat
  /-- The parameters of 00_scope.md R6; no step changes them (R12; log 1). -/
  cfg : Config
  deriving DecidableEq, Repr

/-- The machine right after reset: the launch state of 10_state.md R29 in which the host supplies zero for
every register and flag and no byte. The spec gives no reset value of any register, flag or byte
(70_reset_and_hazards.md R280, R281). DESIGN CHOICE: registers, flags and IP are written and zero
(log 2, 3, 4), no byte of memory is written (log 5) and every address is populated (log 6). A launch
that leaves registers or flags unwritten is `State.launch`. -/
def State.reset : State where
  d := Vector.replicate 8 0
  a := Vector.replicate 8 0
  ip := 0
  flags := ⟨false, false, false, false⟩
  dWritten := Vector.replicate 8 true
  aWritten := Vector.replicate 8 true
  flagsWritten := ⟨true, true, true, true⟩
  mem := []
  freeReads := 0
  cfg := Config.default

end Sys2Proof.Machine
end

