-- ==== Sys2Proof/Machine/Flags.lean ====
section
/-! DEFINITION. The flag functions of 40_components.md R145 to R148, the condition codes of R141 and
the arithmetic of the instructions that is a function of values alone. -/

namespace Sys2Proof.Machine

/-- One flag of the four. -/
def Flags.get (f : Flags) : FlagName → Bool
  | .n => f.n
  | .z => f.z
  | .v => f.v
  | .c => f.c

/-- The four flags with one of them replaced. -/
def Flags.put (f : Flags) (x : FlagName) (b : Bool) : Flags :=
  match x with
  | .n => { f with n := b }
  | .z => { f with z := b }
  | .v => { f with v := b }
  | .c => { f with c := b }

/-- An n-bit result together with the flags computed from it. -/
abbrev Computed (n : Nat) := BitVec n × Flags

/-- `t` lies outside the n-bit signed range [-2^(n-1), 2^(n-1) - 1]. -/
def outsideSigned (n : Nat) (t : Int) : Bool :=
  decide (t < -2 ^ (n - 1)) || decide (2 ^ (n - 1) ≤ t)

/-- `AddFlags(n, a, b, cin)`, 40_components.md R145. -/
def addFlags {n : Nat} (a b : BitVec n) (cin : Bool) : Computed n :=
  let t := a.toNat + b.toNat + bit cin
  let r := BitVec.ofNat n t
  (r,
    { n := r.msb
      z := decide (r = 0)
      v := outsideSigned n (a.toInt + b.toInt + bit cin)
      c := decide (2 ^ n ≤ t) })

/-- C after a subtraction that did or did not borrow (40_components.md R146, `C_SUB_POLARITY`). -/
def carryOfBorrow (p : SubCarry) (borrow : Bool) : Bool :=
  match p with
  | .borrow => borrow
  | .notBorrow => !borrow

/-- `SubFlags(n, a, b, bin)`, 40_components.md R146. -/
def subFlags {n : Nat} (p : SubCarry) (a b : BitVec n) (bin : Bool) : Computed n :=
  let t : Int := (a.toNat : Int) - b.toNat - bit bin
  let r := BitVec.ofInt n t
  (r,
    { n := r.msb
      z := decide (r = 0)
      v := outsideSigned n (a.toInt - b.toInt - bit bin)
      c := carryOfBorrow p (decide (t < 0)) })

/-- `LogicFlags(n, r)`, 40_components.md R147, with the result it is computed from. -/
def logicFlags {n : Nat} (r : BitVec n) : Computed n :=
  (r, { n := r.msb, z := decide (r = 0), v := false, c := false })

/-- The four kinds of shift (30_encoding.md R82). -/
inductive ShiftKind where
  | logicalLeft
  | logicalRight
  | arithmeticRight
  | rotateRight
  deriving DecidableEq, Repr

/-- The result of `Shift(kind, d, c)`, 40_components.md R148. -/
def shiftResult (kind : ShiftKind) (d : Word) (c : Nat) : Word :=
  match kind with
  | .logicalLeft => d <<< c
  | .logicalRight => d >>> c
  | .arithmeticRight => BitVec.ofInt 32 (d.toInt / 2 ^ c)
  | .rotateRight => (d >>> c) ||| (d <<< (32 - c))

/-- `out`, the last bit shifted or rotated out; 0 for a count of 0 (40_components.md R148). -/
def shiftOut (kind : ShiftKind) (d : Word) (c : Nat) : Bool :=
  if c = 0 then false
  else match kind with
    | .logicalLeft => d.getLsbD (32 - c)
    | .logicalRight => d.getLsbD (c - 1)
    | .arithmeticRight => d.getLsbD (c - 1)
    | .rotateRight => d.getLsbD (c - 1)

/-- `Shift(kind, d, c)` with its flags, 40_components.md R148. -/
def shift (kind : ShiftKind) (d : Word) (count : BitVec 5) : Computed 32 :=
  let r := shiftResult kind d count.toNat
  (r, { n := r.msb, z := decide (r = 0), v := false, c := shiftOut kind d count.toNat })

/-- RRC: the 33-bit quantity made of the operand and C rotates right by one
(47_quick_shifts.md R224). -/
def rotateThroughCarry (d : Word) (carry : Bool) : Computed 32 :=
  let r : Word := (d >>> 1) ||| (if carry then 0x80000000#32 else 0#32)
  (r, { n := r.msb, z := decide (r = 0), v := false, c := d.getLsbD 0 })

/-- The flags of Complex Arithmetic: N and Z of the result, V as given, C clear
(44_complex_arith.md R197). -/
def complexFlags (r : Word) (v : Bool) : Computed 32 :=
  (r, { n := r.msb, z := decide (r = 0), v := v, c := false })

/-- MUL, 44_complex_arith.md R190. -/
def mulLow (a b : Word) : Computed 32 :=
  complexFlags (BitVec.ofNat 32 (a.toNat * b.toNat)) false

/-- HMULU, 44_complex_arith.md R191. -/
def mulHighUnsigned (a b : Word) : Computed 32 :=
  complexFlags (BitVec.ofNat 32 (a.toNat * b.toNat / 2 ^ 32)) false

/-- HMULS, 44_complex_arith.md R192: bits 63:32 of the 64-bit product. -/
def mulHighSigned (a b : Word) : Computed 32 :=
  complexFlags (BitVec.ofInt 32 (a.toInt * b.toInt / 2 ^ 32)) false

/-- DIVU for a divisor that is not zero, 44_complex_arith.md R193. -/
def divUnsigned (a b : Word) : Computed 32 :=
  complexFlags (BitVec.ofNat 32 (a.toNat / b.toNat)) false

/-- DIVS for a divisor that is not zero, 44_complex_arith.md R194: rounded toward zero; V for
-2^31 / -1. -/
def divSigned (a b : Word) : Computed 32 :=
  complexFlags (BitVec.ofInt 32 (a.toInt.tdiv b.toInt))
    (decide (a.toInt = -2 ^ 31) && decide (b.toInt = -1))

/-- MODU for a divisor that is not zero, 44_complex_arith.md R195. -/
def modUnsigned (a b : Word) : Computed 32 :=
  complexFlags (BitVec.ofNat 32 (a.toNat - b.toNat * (a.toNat / b.toNat))) false

/-- MODS for a divisor that is not zero, 44_complex_arith.md R196; under `MOD_SIGN = divisor` the
floored modulo (log 22). -/
def modSigned (p : ModSign) (a b : Word) : Computed 32 :=
  let m : Int := match p with
    | .dividend => a.toInt - b.toInt * a.toInt.tdiv b.toInt
    | .divisor => a.toInt - b.toInt * a.toInt.fdiv b.toInt
  complexFlags (BitVec.ofInt 32 m) false

/-- The expression `t(k)` of 40_components.md R141. -/
def condExpr (f : Flags) (k : BitVec 3) : Bool :=
  if k = 0#3 then f.n
  else if k = 1#3 then f.z
  else if k = 2#3 then f.v
  else if k = 3#3 then f.c
  else if k = 4#3 then !f.c || f.z
  else if k = 5#3 then f.n ^^ f.v
  else (f.n ^^ f.v) || f.z

/-- The flags that `t(k)` names; codes 0111 and 1111 read none (40_components.md R141). No rule orders
the reads of one condition. DESIGN CHOICE (log 30): in the order in which the expression names them; it
shows in the flag that an UnwrittenRead names where several are unwritten. Unsafe in that name only. -/
def condFlags (cccc : CondCode) : List FlagName :=
  let k := cccc.extractLsb' 0 3
  if k = 0#3 then [.n]
  else if k = 1#3 then [.z]
  else if k = 2#3 then [.v]
  else if k = 3#3 then [.c]
  else if k = 4#3 then [.c, .z]
  else if k = 5#3 then [.n, .v]
  else if k = 6#3 then [.n, .v, .z]
  else []

/-- `Cond(cccc)`, 40_components.md R141: codes 0111 and 1111 always hold. -/
def condHolds (f : Flags) (cccc : CondCode) : Bool :=
  let k := cccc.extractLsb' 0 3
  if k = 7#3 then true else condExpr f k == cccc.getLsbD 3

/-- Code 0111, "to subroutine" (40_components.md R143). -/
def isCall (cccc : CondCode) : Bool := decide (cccc = 0b0111#4)

end Sys2Proof.Machine
end

