-- ==== Sys2Proof/Machine/Ops.lean ====
section
/-! DEFINITION. The named operations over registers, memory, the instruction stream, the status register
and the stack (10_state.md, 20_memory.md, 30_encoding.md R84 to R86), and raising a fault
(60_exceptions.md R260). -/

namespace Sys2Proof.Machine

/-- What an operation answers: a value, or the fault that stops the instruction. -/
abbrev Run (α : Type) := Except Fault α

/-- TAKING AN EXCEPTION, the one shared operation (60_exceptions.md R260, R275): there is no entry
sequence, no saved state and no vector. A fault replaces the next state, so everything the instruction
did is undone. There is no return: RFI is refused (R267). -/
def raise {α : Type} (f : Fault) : Run α := .error f

/-- `raise IllegalInstruction`, by `ILLEGAL_POLICY` (60_exceptions.md R261). -/
def raiseIllegal {α : Type} (c : Config) (w : Half) : Run α :=
  match c.illegalPolicy with
  | .fault => raise (.illegalInstruction w)

/-- `raise DivideByZero`, by `DIV_ZERO_POLICY` (60_exceptions.md R264). -/
def raiseDivideByZero {α : Type} (c : Config) : Run α :=
  match c.divZero with
  | .fault => raise .divideByZero

/-- What a meaning answers, from the run of its operations. -/
abbrev Result := Host.Outcome State Fault Refusal

/-- The end of an instruction: its state, or its fault with the state before it kept (R260). -/
def finish (r : Run State) : Result :=
  match r with
  | .ok s => .next s
  | .error f => .fault f

/-! ### Registers -/

/-- The 32 bits of `D[i]` or `A[i]` (00_scope.md R8). An instruction reads them through `readReg`. -/
def State.getReg (s : State) (file : RegFile) (i : RegNum) : Word :=
  match file with
  | .d => s.d[i]
  | .a => s.a[i]

/-- The register has been written, by the launch state or by an instruction (10_state.md R30). -/
def State.regWritten (s : State) (file : RegFile) (i : RegNum) : Bool :=
  match file with
  | .d => s.dWritten[i]
  | .a => s.aWritten[i]

/-- What a register holds, `none` if nothing has written it (10_state.md R30). -/
def State.regAt (s : State) (file : RegFile) (i : RegNum) : Option Word :=
  if s.regWritten file i then some (s.getReg file i) else none

/-- What a flag holds, `none` if nothing has written it (10_state.md R30). -/
def State.flagAt (s : State) (x : FlagName) : Option Bool :=
  if s.flagsWritten.get x then some (s.flags.get x) else none

/-- `D[i] <- v` or `A[i] <- v`, all 32 bits (00_scope.md R8). The register is then written. -/
def State.setReg (s : State) (file : RegFile) (i : RegNum) (v : Word) : State :=
  match file with
  | .d => { s with d := s.d.set i v, dWritten := s.dWritten.set i true }
  | .a => { s with a := s.a.set i v, aWritten := s.aWritten.set i true }

/-- `IP <- t`. -/
def State.setIp (s : State) (t : Word) : State := { s with ip := t }

/-- Write the four flags, which are then all written. -/
def State.setFlags (s : State) (f : Flags) : State :=
  { s with flags := f, flagsWritten := ⟨true, true, true, true⟩ }

/-- Replace the memory. -/
def State.setMem (s : State) (m : Memory) : State := { s with mem := m }

/-- One more free value has been drawn (log 8). -/
def State.countFreeRead (s : State) : State := { s with freeReads := s.freeReads + 1 }

/-- SP, the register `A[SP_INDEX]` (10_state.md R22). -/
def State.sp (s : State) : Word := s.getReg .a s.cfg.spIndex

/-- BP, the register `A[BP_INDEX]` (10_state.md R22). -/
def State.bp (s : State) : Word := s.getReg .a s.cfg.bpIndex

/-- `SP <- v`. -/
def State.setSp (s : State) (v : Word) : State := s.setReg .a s.cfg.spIndex v

/-- `BP <- v`. -/
def State.setBp (s : State) (v : Word) : State := s.setReg .a s.cfg.bpIndex v

/-! ### Reading registers and flags -/

/-- Reading what nothing has written (10_state.md R30, 60_exceptions.md R265): `UnwrittenRead`, or under
`any_value` a free value drawn afresh (log 8). -/
def readUnwritten {α : Type} (what : Unwritten) (free : Nat → α) (s : State) : Run (α × State) :=
  match s.cfg.unwrittenRead with
  | .fault => raise (.unwrittenRead what)
  | .anyValue => .ok (free s.freeReads, s.countFreeRead)

/-- An instruction reads a register (60_exceptions.md R265). -/
def readReg (file : RegFile) (i : RegNum) (s : State) : Run (Word × State) :=
  match s.regAt file i with
  | some v => .ok (v, s)
  | none => readUnwritten (.register file i) Config.freeWord s

/-- An instruction reads SP (20_memory.md R63). -/
def readSp (s : State) : Run (Word × State) := readReg .a s.cfg.spIndex s

/-- An instruction reads BP (41_miscellaneous.md R162, R164). -/
def readBp (s : State) : Run (Word × State) := readReg .a s.cfg.bpIndex s

/-- An instruction reads a flag (60_exceptions.md R265). -/
def readFlag (x : FlagName) (s : State) : Run (Bool × State) :=
  match s.flagAt x with
  | some b => .ok (b, s)
  | none => readUnwritten (.flag x) Config.freeFlag s

/-- An instruction reads some flags, in order: `f` with each of them as it was read. -/
def readFlags : List FlagName → Flags → State → Run (Flags × State)
  | [], f, s => .ok (f, s)
  | x :: xs, f, s => do
    let (b, s1) ← readFlag x s
    readFlags xs (f.put x b) s1

/-- `Cond(cccc)` with its reads: the flags it names and no other (40_components.md R141). -/
def readCond (cccc : CondCode) (s : State) : Run (Bool × State) := do
  let (f, s1) ← readFlags (condFlags cccc) s.flags s
  pure (condHolds f cccc, s1)

/-- A narrow register read: the low bits (10_state.md R26). -/
def readRegN (file : RegFile) (i : RegNum) (nb : Nat) (s : State) : Run (BitVec (8 * nb) × State) := do
  let (v, s1) ← readReg file i s
  pure (v.setWidth (8 * nb), s1)

/-- The 32 bits a register holds after an nb-byte result is written over `old` (10_state.md R27). -/
def narrowed (p : NarrowWrite) (nb : Nat) (old : Word) (v : BitVec (8 * nb)) : Word :=
  if nb = 4 then v.setWidth 32
  else match p with
    | .signExtend => v.signExtend 32
    | .zeroExtend => v.setWidth 32
    | .preserve => ((old >>> (8 * nb)) <<< (8 * nb)) ||| v.setWidth 32

/-- A result of `nb` bytes keeps old bits of the register it is written to (10_state.md R27). -/
def keepsOld (p : NarrowWrite) (nb : Nat) : Bool := decide (nb ≠ 4) && decide (p = .preserve)

/-- The old value of a register that a result is written to: "under `preserve` the old value of the
register is read" (10_state.md R27); otherwise nothing is read and the value counts for nothing. -/
def readOld (file : RegFile) (i : RegNum) (nb : Nat) (s : State) : Run (Word × State) :=
  if keepsOld s.cfg.narrowWrite nb then readReg file i s else .ok (0, s)

/-- `RegWriteN(file, i, n, v)`, 10_state.md R27. -/
def regWriteN (file : RegFile) (i : RegNum) (nb : Nat) (v : BitVec (8 * nb)) (s : State) :
    Run State := do
  let (old, s1) ← readOld file i nb s
  pure (s1.setReg file i (narrowed s1.cfg.narrowWrite nb old v))

/-! ### The status register -/

/-- One flag at its place in SR. -/
def srBit (b : Bool) (place : Fin 8) : Word := if b then 1#32 <<< place.val else 0#32

/-- Reading SR: the flags at their places, every other bit 0 (10_state.md R25). -/
def srValue (l : SrLayout) (f : Flags) : Word :=
  srBit f.n l.n ||| srBit f.z l.z ||| srBit f.v l.v ||| srBit f.c l.c

/-- An instruction reads SR: all four flags (10_state.md R25, 60_exceptions.md R265). No rule orders the
four reads. DESIGN CHOICE (log 30): N, Z, V, C, in the order of the bits of SR; it shows in the flag that
an UnwrittenRead names where several are unwritten. Unsafe in that name only. -/
def readSr (s : State) : Run (Word × State) := do
  let (f, s1) ← readFlags [.n, .z, .v, .c] s.flags s
  pure (srValue s1.cfg.srLayout f, s1)

/-- Writing SR: each flag from its place, every other bit discarded (10_state.md R25). -/
def srFlags {n : Nat} (l : SrLayout) (v : BitVec n) : Flags where
  n := v.getLsbD l.n
  z := v.getLsbD l.z
  v := v.getLsbD l.v
  c := v.getLsbD l.c

/-! ### Memory -/

/-- What an address that is not listed reads as: no value, because nothing has written it
(10_state.md R30; log 5). -/
def Memory.unlisted : Option Byte := none

/-- The byte at an address, if it has been written. -/
def Memory.read : Memory → Nat → Option Byte
  | [], _ => Memory.unlisted
  | (k, x) :: m, a => if a = k then some x else Memory.read m a

/-- Write one byte, keeping the addresses strictly rising. -/
def Memory.write : Memory → Nat → Byte → Memory
  | [], a, b => [(a, b)]
  | (k, x) :: m, a, b =>
    if a < k then (a, b) :: (k, x) :: m
    else if a = k then (a, b) :: m
    else (k, x) :: Memory.write m a b

/-- The canonical form: addresses strictly rising and inside the 2^32-byte space. No entry can equal
what an unlisted address reads as, which is no value. -/
def Memory.wf (m : Memory) : Bool :=
  decide (m.Pairwise fun p q => p.1 < q.1) && m.all fun p => decide (p.1 < 2 ^ 32)

/-- The byte at a 32-bit address, if it has been written. -/
def State.byteAt (s : State) (a : Word) : Option Byte := Memory.read s.mem a.toNat

/-- The address is in `MEM_MAP` (20_memory.md R59). -/
def mapped (c : Config) (a : Word) : Bool :=
  c.memMap.any fun r => decide (r.base ≤ a.toNat) && decide (a.toNat < r.base + r.size)

/-- The alignment test of 20_memory.md R52 and R55. -/
def checkAlign (s : State) (kind : Access) (align nb : Nat) (a : Word) : Run Unit :=
  if s.cfg.align = .fault ∧ a.toNat % align ≠ 0 then raise (.misaligned a nb kind) else .ok ()

/-- The map test of 20_memory.md R52 for `nb` bytes from `a` on, reporting the first byte outside. -/
def checkMap (s : State) (kind : Access) : Nat → Word → Run Unit
  | 0, _ => .ok ()
  | nb + 1, a =>
    if mapped s.cfg a then checkMap s kind nb (a + 1) else raise (.accessFault a kind)

/-- One byte of a read: what was written there; otherwise 10_state.md R30. -/
def readByte (s : State) (a : Word) : Run (Byte × State) :=
  match s.byteAt a with
  | some b => .ok (b, s)
  | none => readUnwritten (.byte a) Config.freeByte s

/-- `nb` bytes from `a` on, addresses modulo 2^32 (20_memory.md R51), lowest address first. -/
def readBytes : Nat → Word → State → Run (List Byte × State)
  | 0, _, s => .ok ([], s)
  | nb + 1, a, s =>
    match readByte s a with
    | .error f => .error f
    | .ok (b, s1) =>
      match readBytes nb (a + 1) s1 with
      | .error f => .error f
      | .ok (bs, s2) => .ok (b :: bs, s2)

/-- Bytes as a number, the first least significant. -/
def natOfBytesLE : List Byte → Nat
  | [] => 0
  | b :: bs => b.toNat + 256 * natOfBytesLE bs

/-- The low `nb` bytes of a number, the least significant first. -/
def bytesLEOfNat : Nat → Nat → List Byte
  | 0, _ => []
  | nb + 1, v => BitVec.ofNat 8 v :: bytesLEOfNat nb (v / 256)

/-- The value of `nb` bytes given lowest address first (20_memory.md R52, R54). -/
def assemble (o : ByteOrder) (nb : Nat) (bs : List Byte) : BitVec (8 * nb) :=
  match o with
  | .big => BitVec.ofNat (8 * nb) (natOfBytesLE bs.reverse)
  | .little => BitVec.ofNat (8 * nb) (natOfBytesLE bs)

/-- The `nb` bytes of a value, lowest address first (20_memory.md R53, R54). -/
def disassemble (o : ByteOrder) (nb : Nat) (v : BitVec (8 * nb)) : List Byte :=
  match o with
  | .big => (bytesLEOfNat nb v.toNat).reverse
  | .little => bytesLEOfNat nb v.toNat

/-- `MemRead` with the alignment its caller asks for (20_memory.md R52): alignment, then the map, then
unwritten bytes (60_exceptions.md R269; log 13). -/
def memReadAligned (kind : Access) (align nb : Nat) (a : Word) (s : State) :
    Run (BitVec (8 * nb) × State) := do
  checkAlign s kind align nb a
  checkMap s kind nb a
  let (bs, s') ← readBytes nb a s
  pure (assemble s.cfg.byteOrder nb bs, s')

/-- `MemRead(addr, n)`, 20_memory.md R52. -/
def memRead (nb : Nat) (a : Word) (s : State) : Run (BitVec (8 * nb) × State) :=
  memReadAligned .read nb nb a s

/-- The bytes from `a` on, addresses modulo 2^32. -/
def writeBytes (m : Memory) : Word → List Byte → Memory
  | _, [] => m
  | a, b :: bs => writeBytes (Memory.write m a.toNat b) (a + 1) bs

/-- `MemWrite(addr, n, v)`, 20_memory.md R53: both tests before any byte is written. -/
def memWrite (nb : Nat) (a : Word) (v : BitVec (8 * nb)) (s : State) : Run State := do
  checkAlign s .write nb nb a
  checkMap s .write nb a
  pure (s.setMem (writeBytes s.mem a (disassemble s.cfg.byteOrder nb v)))

/-! ### The instruction stream -/

/-- Read `nb` bytes of the instruction stream at IP and move IP past them. -/
def fetch (align nb : Nat) (s : State) : Run (BitVec (8 * nb) × State) := do
  let (v, s') ← memReadAligned .fetch align nb s.ip s
  pure (v, s'.setIp (s.ip + BitVec.ofNat 32 nb))

/-- `FetchExt16()`, 30_encoding.md R84; also the fetch of the instruction word (20_memory.md R65). -/
def fetchExt16 (s : State) : Run (Half × State) := fetch 2 2 s

/-- `FetchExt32()`, 30_encoding.md R85: alignment 2 only. -/
def fetchExt32 (s : State) : Run (Word × State) := fetch 2 4 s

/-- `FetchImm(n)`, 30_encoding.md R86: a byte immediate takes a whole halfword of the stream, whose
high byte is ignored, or one byte under `BYTE_IMM_STREAM_BYTES = 1`. -/
def fetchImm (nb : Nat) (s : State) : Run (BitVec (8 * nb) × State) :=
  if nb = 1 then
    match s.cfg.byteImm with
    | .halfword => do
      let (h, s') ← fetchExt16 s
      pure (h.setWidth (8 * nb), s')
    | .oneByte => do
      let (b, s') ← fetch 1 1 s
      pure (b.setWidth (8 * nb), s')
  else if nb = 2 then do
    let (h, s') ← fetchExt16 s
    pure (h.setWidth (8 * nb), s')
  else do
    let (v, s') ← fetchExt32 s
    pure (v.setWidth (8 * nb), s')

/-- The bytes of the instruction stream an immediate of `nb` bytes takes (30_encoding.md R86, R88). -/
def immLength (c : Config) (nb : Nat) : Nat :=
  if nb = 1 then
    match c.byteImm with
    | .halfword => 2
    | .oneByte => 1
  else if nb = 2 then 2
  else 4

/-- The end-of-run test of 70_reset_and_hazards.md R290, which "reads memory like a fetch": whether the
halfword at IP is `HALT_WORD`. IP does not move. -/
def haltTest (s : State) : Run (Bool × State) :=
  match s.cfg.haltWord with
  | none => .ok (false, s)
  | some h => do
    let (w, s') ← memReadAligned .fetch 2 2 s.ip s
    pure (decide ((w : Half) = h), s')

/-- Steps 1 to 3 of 40_components.md R149: the end-of-run test, the fetch of the instruction word and
its decoding. The state has IP past the instruction word. -/
def fetchInstr (s : State) : Run (Instr × State) := do
  let (halt, s0) ← haltTest s
  if halt then raise .halted
  else
    let (w, s1) ← fetchExt16 s0
    match decode w with
    | .ok i => pure (i, s1)
    | .error _ => raiseIllegal s.cfg w

/-! ### The stack -/

/-- `Push32(v)`, 20_memory.md R63. -/
def push32 (v : Word) (s : State) : Run State := do
  let (sp, s1) ← readSp s
  memWrite 4 (sp - 4) v (s1.setSp (sp - 4))

/-- `Pop32()`, 20_memory.md R63; it reads SP for the address and again to move it (log 8). -/
def pop32 (s : State) : Run (Word × State) := do
  let (sp, s1) ← readSp s
  let (v, s2) ← memRead 4 sp s1
  let (sp', s3) ← readSp s2
  pure (v, s3.setSp (sp' + 4))

/-! ### Launch -/

/-- What the host supplies at launch (10_state.md R29, D26): `INIT_IP`, `INIT_SP`, `INIT_BP`,
`INIT_REGS`, `INIT_FLAGS` and `INIT_MEM`; `none` for a register or flag it leaves unwritten. `INIT_SP`
and `INIT_BP`, where given, go over `INIT_REGS`. -/
structure Launch where
  ip : Word
  sp : Option Word
  bp : Option Word
  d : Vector (Option Word) 8
  a : Vector (Option Word) 8
  n : Option Bool
  z : Option Bool
  v : Option Bool
  c : Option Bool
  mem : List Host.Cell
  deriving DecidableEq, Repr

/-- Nothing supplied but IP: every register, flag and byte is unwritten. -/
def Launch.nothing : Launch where
  ip := 0
  sp := none
  bp := none
  d := Vector.replicate 8 none
  a := Vector.replicate 8 none
  n := none
  z := none
  v := none
  c := none
  mem := []

/-- Zero supplied for every register and flag: the values of log 2 to 5, with which `State.reset`
starts. -/
def Launch.zeros : Launch :=
  { Launch.nothing with
    d := Vector.replicate 8 (some 0)
    a := Vector.replicate 8 (some 0)
    n := some false
    z := some false
    v := some false
    c := some false }

/-- The flag that `INIT_FLAGS` supplies under a name. -/
def Launch.flag (p : Launch) : FlagName → Option Bool
  | .n => p.n
  | .z => p.z
  | .v => p.v
  | .c => p.c

/-- Something of each of the eight registers of a file. -/
def ofEach {α β : Type} (f : α → β) (v : Vector α 8) : Vector β 8 :=
  #v[f v[0], f v[1], f v[2], f v[3], f v[4], f v[5], f v[6], f v[7]]

/-- `INIT_MEM`: the bytes the host writes before the run. -/
def loadCells (m : Memory) : List Host.Cell → Memory
  | [] => m
  | (k, b) :: cells => loadCells (Memory.write m (k % 2 ^ 32) b) cells

/-- The launch state of 10_state.md R29 under a configuration. What the host does not supply is
unwritten. -/
def State.launch (c : Config) (p : Launch) : State :=
  let s : State :=
    { d := ofEach (fun w => w.getD 0) p.d
      a := ofEach (fun w => w.getD 0) p.a
      ip := p.ip
      flags := ⟨p.n.getD false, p.z.getD false, p.v.getD false, p.c.getD false⟩
      dWritten := ofEach Option.isSome p.d
      aWritten := ofEach Option.isSome p.a
      flagsWritten := ⟨p.n.isSome, p.z.isSome, p.v.isSome, p.c.isSome⟩
      mem := loadCells [] p.mem
      freeReads := 0
      cfg := c }
  let s := match p.sp with
    | some v => s.setSp v
    | none => s
  match p.bp with
  | some v => s.setBp v
  | none => s

/-! ### The host's word -/

/-- Every one of the `nb` bytes from `a` on is in `MEM_MAP`. -/
def allMapped (c : Config) : Nat → Word → Bool
  | 0, _ => true
  | nb + 1, a => mapped c a && allMapped c nb (a + 1)

/-- The configuration under which the next step fetches the word `w` at `ip` and runs it: ten bytes at
`ip` populated, and `HALT_WORD` set to none if it is that very word (log 17). Otherwise unchanged. -/
def configForWord (c : Config) (ip : Word) (w : Half) : Config :=
  let c1 := if allMapped c 10 ip then c else
    { c with memMap :=
        (List.range 10).map (fun k => ⟨(ip + BitVec.ofNat 32 k).toNat, 1⟩) ++ c.memMap }
  if c.haltWord = some w then { c1 with haltWord := none } else c1

/-- `s` with the instruction whose low `nbits` bits are `w` stored at IP (log 17). -/
def placeWord (s : State) (nbits w : Nat) : State :=
  { s with
    mem := writeBytes s.mem s.ip (instrBytes s.cfg.byteOrder nbits w)
    cfg := configForWord s.cfg s.ip (BitVec.ofNat 16 (w % 2 ^ nbits)) }

end Sys2Proof.Machine
end

