-- ==== Sys2Proof/Machine/Operands.lean ====
section
/-! DEFINITION. Operands: scales, effective addresses, locations, and the shapes of instruction the
families share (40_components.md R120 to R140, R149). -/

namespace Sys2Proof.Machine

/-- `Bytes(ss)`, 40_components.md R120. -/
def bytes : Scale → Nat
  | .b => 1
  | .h => 2
  | .w => 4
  | .a => 4

/-- A location (40_components.md R124). It is a value of the model, not machine state. -/
inductive Loc where
  | dreg (i : RegNum)
  | areg (i : RegNum)
  | mem (addr : Word)
  | imm (v : Word)
  | sr
  deriving DecidableEq, Repr

/-- `Step(x, n)`, 40_components.md R139. -/
def stepAmount (c : Config) (x : RegNum) (nb : Nat) : Word :=
  if x = c.spIndex ∧ c.spStep = .four then 4#32 else BitVec.ofNat 32 nb

/-- A 16-bit displacement at 32 bits (40_components.md R131, `DISP_SIGNED`). -/
def dispWord (c : Config) (d : Half) : Word :=
  if c.dispSigned then d.signExtend 32 else d.setWidth 32

/-- The base of an IP-relative form: IP after the displacement, or the address of the displacement
itself (40_components.md R135, R136, `IPREL_BASE`). `size` is the displacement's size in bytes. -/
def ipBase (s : State) (size : Word) : Word :=
  match s.cfg.ipRelBase with
  | .afterDisp => s.ip
  | .atDisp => s.ip - size

/-- `EvalEA`, 40_components.md R125: the location, with the extension words read and the register
stepped. The base register is read before an extension word is fetched (60_exceptions.md R269 step 4);
a post-increment reads it for the address and again to step it (log 8). -/
def evalEA (ea : EA) (nb : Nat) (s : State) : Run (Loc × State) :=
  match ea with
  | .dreg x => .ok (.dreg x, s)
  | .areg x => .ok (.areg x, s)
  | .postInc x => do
    let (a, s1) ← readReg .a x s
    let (old, s2) ← readReg .a x s1
    pure (.mem a, s2.setReg .a x (old + stepAmount s.cfg x nb))
  | .preDec x => do
    let (old, s1) ← readReg .a x s
    let a := old - stepAmount s.cfg x nb
    pure (.mem a, s1.setReg .a x a)
  | .deferred x => do
    let (a, s1) ← readReg .a x s
    pure (.mem a, s1)
  | .base16 x => do
    let (a, s1) ← readReg .a x s
    let (d, s2) ← fetchExt16 s1
    pure (.mem (a + dispWord s2.cfg d), s2)
  | .base32 x => do
    let (a, s1) ← readReg .a x s
    let (d, s2) ← fetchExt32 s1
    pure (.mem (a + d), s2)
  | .sr => .ok (.sr, s)
  | .imm => do
    let (v, s1) ← fetchImm nb s
    pure (.imm (v.setWidth 32), s1)
  | .ip16 => do
    let (d, s1) ← fetchExt16 s
    pure (.mem (ipBase s1 2 + dispWord s1.cfg d), s1)
  | .ip32 => do
    let (d, s1) ← fetchExt32 s
    pure (.mem (ipBase s1 4 + d), s1)

/-- `ReadLoc`, 40_components.md R137. -/
def readLoc (loc : Loc) (nb : Nat) (s : State) : Run (BitVec (8 * nb) × State) :=
  match loc with
  | .dreg i => readRegN .d i nb s
  | .areg i => readRegN .a i nb s
  | .mem a => memRead nb a s
  | .imm v => .ok (v.setWidth (8 * nb), s)
  | .sr => do
    let (v, s1) ← readSr s
    pure (v.setWidth (8 * nb), s1)

/-- `WriteLoc`, 40_components.md R138. The constant of an immediate is never written: `guardDest` stops
an instruction whose destination it is. -/
def writeLoc (loc : Loc) (nb : Nat) (v : BitVec (8 * nb)) (s : State) : Run State :=
  match loc with
  | .dreg i => regWriteN .d i nb v s
  | .areg i => regWriteN .a i nb v s
  | .mem a => memWrite nb a v s
  | .imm _ => .ok s
  | .sr => .ok (s.setFlags (srFlags s.cfg.srLayout v))

/-- `SetFlagsUnlessSR`, 40_components.md R138: a written SR wins over the instruction's own flags. -/
def setFlagsUnlessSR (loc : Loc) (f : Flags) (s : State) : State :=
  match loc with
  | .sr => s
  | .dreg _ => s.setFlags f
  | .areg _ => s.setFlags f
  | .mem _ => s.setFlags f
  | .imm _ => s.setFlags f

/-- The register file `RegSel(ss, y)` selects, 40_components.md R121. -/
def regSel : Scale → RegFile
  | .b => .d
  | .h => .d
  | .w => .d
  | .a => .a

/-- An immediate destination is illegal (30_encoding.md R91); `w` is the instruction word. A decoded
instruction never fails this. -/
def guardDest (c : Config) (ea : EA) (w : Half) : Run Unit :=
  if ea = .imm then raiseIllegal c w else .ok ()

/-- `ExtLen(n, mmm, xxx)`, 30_encoding.md R88. -/
def extLen (c : Config) (nb : Nat) : EA → Nat
  | .dreg _ => 0
  | .areg _ => 0
  | .postInc _ => 0
  | .preDec _ => 0
  | .deferred _ => 0
  | .base16 _ => 2
  | .base32 _ => 4
  | .sr => 0
  | .imm => immLength c nb
  | .ip16 => 2
  | .ip32 => 4

/-- The effective address and the instruction's own immediate, their extension words in the order of
`EXT_ORDER` (30_encoding.md R87, 40_components.md R149 steps 5 and 6). -/
def evalEAImm (ea : EA) (nb : Nat) (s : State) : Run (Loc × BitVec (8 * nb) × State) :=
  match s.cfg.extOrder with
  | .eaThenImm => do
    let (loc, s1) ← evalEA ea nb s
    let (imm, s2) ← fetchImm nb s1
    pure (loc, imm, s2)
  | .immThenEa => do
    let (imm, s1) ← fetchImm nb s
    let (loc, s2) ← evalEA ea nb s1
    pure (loc, imm, s2)

/-- The operand of an effective address: its location and its value (40_components.md R149 steps 5
and 7). -/
def operand (ea : EA) (nb : Nat) (s : State) : Run (Loc × BitVec (8 * nb) × State) := do
  let (loc, s1) ← evalEA ea nb s
  let (v, s2) ← readLoc loc nb s1
  pure (loc, v, s2)

/-- The operand of an effective address and the instruction's own immediate: location, operand value,
immediate (40_components.md R149 steps 5 to 7). -/
def operandImm (ea : EA) (nb : Nat) (s : State) :
    Run (Loc × BitVec (8 * nb) × BitVec (8 * nb) × State) := do
  let (loc, imm, s1) ← evalEAImm ea nb s
  let (v, s2) ← readLoc loc nb s1
  pure (loc, v, imm, s2)

/-- Write a computed result to its location and its flags after it (40_components.md R149 steps 9
and 10). -/
def writeBack (loc : Loc) (nb : Nat) (r : Computed (8 * nb)) (s : State) : Run State := do
  let s1 ← writeLoc loc nb r.1 s
  pure (setFlagsUnlessSR loc r.2 s1)

/-! ### The shapes of instruction -/

/-- Read an effective address, compute, write the result back to it; `w` is the instruction word. -/
def modifyEA (w : Half) (ea : EA) (nb : Nat) (f : BitVec (8 * nb) → Computed (8 * nb))
    (s : State) : Run State := do
  guardDest s.cfg ea w
  let (loc, v, s1) ← operand ea nb s
  writeBack loc nb (f v) s1

/-- The same with C as a further operand, read after the others (60_exceptions.md R269 step 6): ADC, SBC
and RRC. -/
def modifyEACarry (w : Half) (ea : EA) (nb : Nat)
    (f : BitVec (8 * nb) → Bool → Computed (8 * nb)) (s : State) : Run State := do
  guardDest s.cfg ea w
  let (loc, v, s1) ← operand ea nb s
  let (c, s2) ← readFlag .c s1
  writeBack loc nb (f v c) s2

/-- `modifyEA` at the width of the quick shifts, `QSHIFT_WIDTH` (47_quick_shifts.md R225). -/
def modifyQuickEA (w : Half) (ea : EA) (f : Word → Computed 32) (s : State) : Run State :=
  match s.cfg.qshiftWidth with
  | .bits32 => modifyEA w ea 4 f s

/-- `modifyEACarry` at the width of the quick shifts, `QSHIFT_WIDTH` (47_quick_shifts.md R224, R225). -/
def modifyQuickEACarry (w : Half) (ea : EA) (f : Word → Bool → Computed 32) (s : State) : Run State :=
  match s.cfg.qshiftWidth with
  | .bits32 => modifyEACarry w ea 4 f s

/-- `modifyEA` with the instruction's own immediate as right-hand operand (42_arith_immediate.md R171). -/
def modifyEAImm (w : Half) (ea : EA) (nb : Nat)
    (f : BitVec (8 * nb) → BitVec (8 * nb) → Computed (8 * nb)) (s : State) : Run State := do
  guardDest s.cfg ea w
  let (loc, v, imm, s1) ← operandImm ea nb s
  writeBack loc nb (f v imm) s1

/-- Read an effective address and set the flags; nothing else is written. -/
def testEA (ea : EA) (nb : Nat) (f : BitVec (8 * nb) → Computed (8 * nb)) (s : State) :
    Run State := do
  let (_, v, s1) ← operand ea nb s
  pure (s1.setFlags (f v).2)

/-- `Ry op operand`, the result to `Ry` (48_arithmetic.md R238). The register is read after the
effective address is evaluated and written last. -/
def computeRy (y : RegNum) (ss : Scale) (ea : EA)
    (f : BitVec (8 * bytes ss) → BitVec (8 * bytes ss) → Computed (8 * bytes ss)) (s : State) :
    Run State := do
  let (_, b, s1) ← operand ea (bytes ss) s
  let (a, s2) ← readRegN (regSel ss) y (bytes ss) s1
  let r := f a b
  let s3 ← regWriteN (regSel ss) y (bytes ss) r.1 s2
  pure (s3.setFlags r.2)

/-- The operands of Complex Arithmetic, each read once (40_components.md R149 step 7,
44_complex_arith.md R197). DEDUCED (log 30): `Dy` then `Dx`. -/
def operandsDy (y x : RegNum) (s : State) : Run (Word × Word × State) := do
  let (a, s1) ← readReg .d y s
  let (b, s2) ← readReg .d x s1
  pure (a, b, s2)

/-- A 32-bit result to `Dy`, with its flags. -/
def writeDy (y : RegNum) (r : Computed 32) (s : State) : State := (s.setReg .d y r.1).setFlags r.2

/-- `Dy op Dx`, the result to `Dy`, all 32 bits (44_complex_arith.md R197). -/
def computeDy (y x : RegNum) (f : Word → Word → Computed 32) (s : State) : Run State := do
  let (a, b, s1) ← operandsDy y x s
  pure (writeDy y (f a b) s1)

/-- The same for a division: a zero divisor faults once both operands are read, before anything is
written (60_exceptions.md R264, R269 steps 6 and 7). -/
def divideDy (y x : RegNum) (f : Word → Word → Computed 32) (s : State) : Run State := do
  let (a, b, s1) ← operandsDy y x s
  if b = 0 then raiseDivideByZero s.cfg else pure (writeDy y (f a b) s1)

/-- Shift `Dy` by a byte count from an effective address, low five bits used
(45_shifts_rotates.md R204). -/
def shiftDy (kind : ShiftKind) (y : RegNum) (ea : EA) (s : State) : Run State := do
  let (_, b, s1) ← operand ea 1 s
  let (d, s2) ← readReg .d y s1
  pure (writeDy y (shift kind d (b.setWidth 5)) s2)

/-- The immediate of RFS and LNK at 32 bits (41_miscellaneous.md R163, R164, `LNK_IMM_EXTEND`). -/
def fetchFrameImm (ss : Scale) (s : State) : Run (Word × State) := do
  let (v, s1) ← fetchImm (bytes ss) s
  match s1.cfg.frameImm with
  | .zeroExtend => pure (v.setWidth 32, s1)
  | .signExtend => pure (v.signExtend 32, s1)

/-- Transfer control: push the return address for code 0111, then write IP
(40_components.md R143, R149 step 11). IP holds the address of the following instruction. -/
def transfer (cccc : CondCode) (target : Word) (s : State) : Run State :=
  if isCall cccc then do
    let s1 ← push32 s.ip s
    pure (s1.setIp target)
  else .ok (s.setIp target)

/-- The operand of Jcc is an address (49_flow_control.md R251): by scale, or by the free rule of
`JCC_KIND_BY = mode` (log 14). -/
def jumpIsAbsolute (c : Config) (ss : Scale) (ea : EA) : Bool :=
  match c.jccKindBy with
  | .scale => decide (ss = .a)
  | .mode => Config.jccModeIsAddress ea.modeBits ea.regBits

/-- The target of a taken Jcc whose operand is `v` and whose following instruction is at `next`
(49_flow_control.md R251). DESIGN CHOICE (log 14): no rule says how a byte or halfword operand taken as
an address is widened, which only `JCC_KIND_BY = mode` can ask for; the model zero-extends it. Unsafe
under that value. -/
def jumpTarget (c : Config) (ss : Scale) (ea : EA) (next : Word) (v : BitVec (8 * bytes ss)) : Word :=
  if jumpIsAbsolute c ss ea then v.setWidth 32 else next + v.signExtend 32

end Sys2Proof.Machine
end

