-- ==== Sys2Proof/Machine/ArithImmediate.lean ====
section
/-! DEFINITION. Arithmetic with Immediate: CMPI, ADDI, SUBI, XORI, ORI, ANDI, STI
(42_arith_immediate.md R170 to R177). -/

namespace Sys2Proof.Machine

/-- CMPI, 42_arith_immediate.md R170: the flags of operand - imm; nothing else is written. -/
def execCmpi (ss : Scale) (ea : EA) (s : State) : Result :=
  finish do
    let (_, a, imm, s1) ← operandImm ea (bytes ss) s
    pure (s1.setFlags (subFlags s1.cfg.subCarry a imm false).2)

/-- ADDI, 42_arith_immediate.md R171: operand + imm. -/
def execAddi (ss : Scale) (ea : EA) (s : State) : Result :=
  finish (modifyEAImm (encode (.addi ss ea)) ea (bytes ss) (fun a imm => addFlags a imm false) s)

/-- SUBI, 42_arith_immediate.md R172: operand - imm. -/
def execSubi (ss : Scale) (ea : EA) (s : State) : Result :=
  finish (modifyEAImm (encode (.subi ss ea)) ea (bytes ss) (fun a imm => subFlags s.cfg.subCarry a imm false) s)

/-- XORI, 42_arith_immediate.md R173: operand exclusive or imm. -/
def execXori (ss : Scale) (ea : EA) (s : State) : Result :=
  finish (modifyEAImm (encode (.xori ss ea)) ea (bytes ss) (fun a imm => logicFlags (a ^^^ imm)) s)

/-- ORI, 42_arith_immediate.md R174: operand or imm. -/
def execOri (ss : Scale) (ea : EA) (s : State) : Result :=
  finish (modifyEAImm (encode (.ori ss ea)) ea (bytes ss) (fun a imm => logicFlags (a ||| imm)) s)

/-- ANDI, 42_arith_immediate.md R175: operand and imm. -/
def execAndi (ss : Scale) (ea : EA) (s : State) : Result :=
  finish (modifyEAImm (encode (.andi ss ea)) ea (bytes ss) (fun a imm => logicFlags (a &&& imm)) s)

/-- STI, 42_arith_immediate.md R176: the immediate to the destination, which is not read; the flags
move only when the destination is SR. -/
def execSti (ss : Scale) (ea : EA) (s : State) : Result :=
  finish do
    guardDest s.cfg ea (encode (.sti ss ea))
    let (loc, imm, s1) ← evalEAImm ea (bytes ss) s
    writeLoc loc (bytes ss) imm s1

end Sys2Proof.Machine
end

