-- ==== Sys2Proof/Machine/Arithmetic.lean ====
section
/-! DEFINITION. Arithmetic: LD, CMP, ADD, SUB, XOR, OR, AND, ST (48_arithmetic.md R230 to R238). -/

namespace Sys2Proof.Machine

/-- LD, 48_arithmetic.md R230: the operand to Ry; flags unchanged. -/
def execLd (y : RegNum) (ss : Scale) (ea : EA) (s : State) : Result :=
  finish do
    let (_, v, s1) ← operand ea (bytes ss) s
    regWriteN (regSel ss) y (bytes ss) v s1

/-- CMP, 48_arithmetic.md R231: the flags of Ry - operand; Ry is not written. -/
def execCmp (y : RegNum) (ss : Scale) (ea : EA) (s : State) : Result :=
  finish do
    let (_, b, s1) ← operand ea (bytes ss) s
    let (a, s2) ← readRegN (regSel ss) y (bytes ss) s1
    pure (s2.setFlags (subFlags s2.cfg.subCarry a b false).2)

/-- ADD, 48_arithmetic.md R232. -/
def execAdd (y : RegNum) (ss : Scale) (ea : EA) (s : State) : Result :=
  finish (computeRy y ss ea (fun a b => addFlags a b false) s)

/-- SUB, 48_arithmetic.md R233. -/
def execSub (y : RegNum) (ss : Scale) (ea : EA) (s : State) : Result :=
  finish (computeRy y ss ea (fun a b => subFlags s.cfg.subCarry a b false) s)

/-- XOR, 48_arithmetic.md R234. -/
def execXor (y : RegNum) (ss : Scale) (ea : EA) (s : State) : Result :=
  finish (computeRy y ss ea (fun a b => logicFlags (a ^^^ b)) s)

/-- OR, 48_arithmetic.md R235. -/
def execOr (y : RegNum) (ss : Scale) (ea : EA) (s : State) : Result :=
  finish (computeRy y ss ea (fun a b => logicFlags (a ||| b)) s)

/-- AND, 48_arithmetic.md R236. -/
def execAnd (y : RegNum) (ss : Scale) (ea : EA) (s : State) : Result :=
  finish (computeRy y ss ea (fun a b => logicFlags (a &&& b)) s)

/-- ST, 48_arithmetic.md R237: Ry, read after the effective address is evaluated, to the destination,
which is not read; the flags move only when the destination is SR. -/
def execSt (y : RegNum) (ss : Scale) (ea : EA) (s : State) : Result :=
  finish do
    guardDest s.cfg ea (encode (.st y ss ea))
    let (loc, s1) ← evalEA ea (bytes ss) s
    let (v, s2) ← readRegN (regSel ss) y (bytes ss) s1
    writeLoc loc (bytes ss) v s2

end Sys2Proof.Machine
end

