-- ==== Sys2Proof/Machine/ComplexArith.lean ====
section
/-! DEFINITION. Complex Arithmetic: MUL, HMULU, HMULS, DIVU, DIVS, MODU, MODS
(44_complex_arith.md R190 to R197). -/

namespace Sys2Proof.Machine

/-- MUL, 44_complex_arith.md R190: low 32 bits of the product. -/
def execMul (y x : RegNum) (s : State) : Result := finish (computeDy y x mulLow s)

/-- HMULU, 44_complex_arith.md R191: high 32 bits of the unsigned product. -/
def execHmulu (y x : RegNum) (s : State) : Result := finish (computeDy y x mulHighUnsigned s)

/-- HMULS, 44_complex_arith.md R192: high 32 bits of the signed product. -/
def execHmuls (y x : RegNum) (s : State) : Result := finish (computeDy y x mulHighSigned s)

/-- DIVU, 44_complex_arith.md R193: unsigned quotient. -/
def execDivu (y x : RegNum) (s : State) : Result := finish (divideDy y x divUnsigned s)

/-- DIVS, 44_complex_arith.md R194: signed quotient, rounded toward zero. -/
def execDivs (y x : RegNum) (s : State) : Result := finish (divideDy y x divSigned s)

/-- MODU, 44_complex_arith.md R195: unsigned remainder. -/
def execModu (y x : RegNum) (s : State) : Result := finish (divideDy y x modUnsigned s)

/-- MODS, 44_complex_arith.md R196: signed remainder. -/
def execMods (y x : RegNum) (s : State) : Result := finish (divideDy y x (modSigned s.cfg.modSign) s)

end Sys2Proof.Machine
end

