-- ==== Sys2Proof/Machine/FlowControl.lean ====
section
/-! DEFINITION. Flow Control: Bcc, Jcc (49_flow_control.md R250 to R253). -/

namespace Sys2Proof.Machine

/-- Bcc, 49_flow_control.md R250: IP holds the address of the following instruction; the offset counts
bytes. -/
def execBcc (cccc : CondCode) (q : BitVec 8) (s : State) : Result :=
  finish do
    let (taken, s1) ← readCond cccc s
    if taken then transfer cccc (s1.ip + q.signExtend 32) s1 else pure s1

/-- Jcc, 49_flow_control.md R251: a false condition only moves IP past the extension words; otherwise
the operand is read before the push of code 0111. -/
def execJcc (cccc : CondCode) (ss : Scale) (ea : EA) (s : State) : Result :=
  finish do
    let (taken, s1) ← readCond cccc s
    if taken then do
      let (_, v, s2) ← operand ea (bytes ss) s1
      transfer cccc (jumpTarget s2.cfg ss ea s2.ip v) s2
    else pure (s1.setIp (s1.ip + BitVec.ofNat 32 (extLen s1.cfg (bytes ss) ea)))

end Sys2Proof.Machine
end

