-- ==== Sys2Proof/Machine/Miscellaneous.lean ====
section
/-! DEFINITION. Miscellaneous: NOP, RFI, UNLNK, RFS, LNK (41_miscellaneous.md R160 to R165). -/

namespace Sys2Proof.Machine

/-- NOP, 41_miscellaneous.md R160. -/
def execNop (s : State) : Result := .next s

/-- RFI, 41_miscellaneous.md R161 and 60_exceptions.md R267: "the model refuses it", because the source
says nothing of what it restores (log 15). -/
def execRfi (_s : State) : Result := .refused (.refused "RFI")

/-- UNLNK, 41_miscellaneous.md R162: SP <- BP, then BP <- Pop32(). -/
def execUnlnk (s : State) : Result :=
  finish do
    let (bp, s1) ← readBp s
    let (v, s2) ← pop32 (s1.setSp bp)
    pure (s2.setBp v)

/-- RFS, 41_miscellaneous.md R163: IP <- Pop32(), then SP <- SP + imm; the pop has written SP. -/
def execRfs (ss : Scale) (s : State) : Result :=
  finish do
    let (imm, s1) ← fetchFrameImm ss s
    let (t, s2) ← pop32 s1
    let s3 := s2.setIp t
    pure (s3.setSp (s3.sp + imm))

/-- LNK, 41_miscellaneous.md R164: Push32(BP), BP <- SP, SP <- SP - imm; the push has written SP.
DEDUCED (log 30): BP is read before the push reads SP. -/
def execLnk (ss : Scale) (s : State) : Result :=
  finish do
    let (imm, s1) ← fetchFrameImm ss s
    let (bp, s2) ← readBp s1
    let s3 ← push32 bp s2
    let s4 := s3.setBp s3.sp
    pure (s4.setSp (s4.sp - imm))

end Sys2Proof.Machine
end

