-- ==== Sys2Proof/Machine/QuickArith.lean ====
section
/-! DEFINITION. Quick Arithmetic: LDQ, CMPQ, ADDQ, SUBQ (46_quick_arith.md R210 to R214). -/

namespace Sys2Proof.Machine

/-- LDQ, 46_quick_arith.md R210: the sign-extended value to all of Dy; flags unchanged. -/
def execLdq (y : RegNum) (q : BitVec 8) (s : State) : Result :=
  .next (s.setReg .d y (q.signExtend 32))

/-- CMPQ, 46_quick_arith.md R211: the flags of Dy - q at 32 bits. -/
def execCmpq (y : RegNum) (q : BitVec 8) (s : State) : Result :=
  finish do
    let (a, s1) ← readReg .d y s
    pure (s1.setFlags (subFlags s1.cfg.subCarry a (q.signExtend 32) false).2)

/-- The operand of ADDQ and SUBQ, the field plus one: 1 to 8 (46_quick_arith.md R212). -/
def quickAmount (q : BitVec 3) (n : Nat) : BitVec n := BitVec.ofNat n (q.toNat + 1)

/-- ADDQ, 46_quick_arith.md R212: operand + amount. -/
def execAddq (q : BitVec 3) (ss : Scale) (ea : EA) (s : State) : Result :=
  finish (modifyEA (encode (.addq q ss ea)) ea (bytes ss)
    (fun a => addFlags a (quickAmount q _) false) s)

/-- SUBQ, 46_quick_arith.md R213: operand - amount. -/
def execSubq (q : BitVec 3) (ss : Scale) (ea : EA) (s : State) : Result :=
  finish (modifyEA (encode (.subq q ss ea)) ea (bytes ss)
    (fun a => subFlags s.cfg.subCarry a (quickAmount q _) false) s)

end Sys2Proof.Machine
end

