-- ==== Sys2Proof/Machine/QuickShifts.lean ====
section
/-! DEFINITION. Quick Shifts and Rotates: LSLQ, LSRQ, ASRQ, RORQ, RRC
(47_quick_shifts.md R220 to R225). -/

namespace Sys2Proof.Machine

/-- LSLQ, 47_quick_shifts.md R220: the 32-bit operand shifted in place by the count in the word. -/
def execLslq (q : BitVec 5) (ea : EA) (s : State) : Result :=
  finish (modifyQuickEA (encode (.lslq q ea)) ea (fun d => shift .logicalLeft d q) s)

/-- LSRQ, 47_quick_shifts.md R221: the 32-bit operand shifted in place by the count in the word. -/
def execLsrq (q : BitVec 5) (ea : EA) (s : State) : Result :=
  finish (modifyQuickEA (encode (.lsrq q ea)) ea (fun d => shift .logicalRight d q) s)

/-- ASRQ, 47_quick_shifts.md R222: the 32-bit operand shifted in place by the count in the word. -/
def execAsrq (q : BitVec 5) (ea : EA) (s : State) : Result :=
  finish (modifyQuickEA (encode (.asrq q ea)) ea (fun d => shift .arithmeticRight d q) s)

/-- RORQ, 47_quick_shifts.md R223: the 32-bit operand shifted in place by the count in the word. -/
def execRorq (q : BitVec 5) (ea : EA) (s : State) : Result :=
  finish (modifyQuickEA (encode (.rorq q ea)) ea (fun d => shift .rotateRight d q) s)

/-- RRC, 47_quick_shifts.md R224: the operand and C rotate right by one. -/
def execRrc (ea : EA) (s : State) : Result :=
  finish (modifyQuickEACarry (encode (.rrc ea)) ea rotateThroughCarry s)

end Sys2Proof.Machine
end

