-- ==== Sys2Proof/Machine/Shifts.lean ====
section
/-! DEFINITION. Shifts and Rotates: LSL, LSR, ASR, ROR (45_shifts_rotates.md R200 to R204). -/

namespace Sys2Proof.Machine

/-- LSL, 45_shifts_rotates.md R200. -/
def execLsl (y : RegNum) (ea : EA) (s : State) : Result := finish (shiftDy .logicalLeft y ea s)

/-- LSR, 45_shifts_rotates.md R201. -/
def execLsr (y : RegNum) (ea : EA) (s : State) : Result := finish (shiftDy .logicalRight y ea s)

/-- ASR, 45_shifts_rotates.md R202. -/
def execAsr (y : RegNum) (ea : EA) (s : State) : Result := finish (shiftDy .arithmeticRight y ea s)

/-- ROR, 45_shifts_rotates.md R203. -/
def execRor (y : RegNum) (ea : EA) (s : State) : Result := finish (shiftDy .rotateRight y ea s)

end Sys2Proof.Machine
end

