-- ==== Sys2Proof/Machine/SingleOperand.lean ====
section
/-! DEFINITION. Single-operand Arithmetic: NOT, NEG, ADC, SBC, CLR, REV, EXT, TST
(43_single_operand.md R180 to R188). -/

namespace Sys2Proof.Machine

/-- NOT, 43_single_operand.md R180: every bit inverted. -/
def execNot (ss : Scale) (ea : EA) (s : State) : Result :=
  finish (modifyEA (encode (.not ss ea)) ea (bytes ss) (fun a => logicFlags (~~~a)) s)

/-- NEG, 43_single_operand.md R181: 0 - operand. -/
def execNeg (ss : Scale) (ea : EA) (s : State) : Result :=
  finish (modifyEA (encode (.neg ss ea)) ea (bytes ss) (fun a => subFlags s.cfg.subCarry 0 a false) s)

/-- ADC, 43_single_operand.md R182: operand + 0 + C. -/
def execAdc (ss : Scale) (ea : EA) (s : State) : Result :=
  finish (modifyEACarry (encode (.adc ss ea)) ea (bytes ss) (fun a c => addFlags a 0 c) s)

/-- SBC, 43_single_operand.md R183: operand - 0 - borrow, the borrow being C or its inverse
by `C_SUB_POLARITY`. -/
def execSbc (ss : Scale) (ea : EA) (s : State) : Result :=
  finish (modifyEACarry (encode (.sbc ss ea)) ea (bytes ss)
    (fun a c => subFlags s.cfg.subCarry a 0 (carryOfBorrow s.cfg.subCarry c)) s)

/-- CLR, 43_single_operand.md R184: zero to the destination, which is not read; the flags move only
when the destination is SR. -/
def execClr (ss : Scale) (ea : EA) (s : State) : Result :=
  finish do
    guardDest s.cfg ea (encode (.clr ss ea))
    let (loc, s1) ← evalEA ea (bytes ss) s
    writeLoc loc (bytes ss) 0 s1

/-- The value REV writes: the bits, or the bytes, in reverse order (43_single_operand.md R185,
`REV_FN`). -/
def reversed (p : RevFn) (nb : Nat) (v : BitVec (8 * nb)) : BitVec (8 * nb) :=
  match p with
  | .bitReverse => v.reverse
  | .byteReverse => assemble .big nb (disassemble .little nb v)

/-- REV, 43_single_operand.md R185: the operand reversed. -/
def execRev (ss : Scale) (ea : EA) (s : State) : Result :=
  finish (modifyEA (encode (.rev ss ea)) ea (bytes ss) (fun a => logicFlags (reversed s.cfg.revFn (bytes ss) a)) s)

/-- What EXT writes: a register receives the operand sign-extended to all 32 bits, whatever
`NARROW_REG_WRITE` is; memory and SR receive the operand itself (43_single_operand.md R186). -/
def writeExtended (loc : Loc) (nb : Nat) (v : BitVec (8 * nb)) (s : State) : Run State :=
  match loc with
  | .dreg i => .ok (s.setReg .d i (v.signExtend 32))
  | .areg i => .ok (s.setReg .a i (v.signExtend 32))
  | .mem a => writeLoc (.mem a) nb v s
  | .imm c => writeLoc (.imm c) nb v s
  | .sr => writeLoc .sr nb v s

/-- EXT, 43_single_operand.md R186. -/
def execExt (ss : Scale) (ea : EA) (s : State) : Result :=
  finish do
    guardDest s.cfg ea (encode (.ext ss ea))
    let (loc, a, s1) ← operand ea (bytes ss) s
    let s2 ← writeExtended loc (bytes ss) a s1
    pure (setFlagsUnlessSR loc (logicFlags a).2 s2)

/-- TST, 43_single_operand.md R187: the flags of operand - 0; nothing else is written. -/
def execTst (ss : Scale) (ea : EA) (s : State) : Result :=
  finish (testEA ea (bytes ss) (fun a => subFlags s.cfg.subCarry a 0 false) s)

end Sys2Proof.Machine
end

