-- ==== Sys2Proof/Machine/Dispatch.lean ====
section
/-! DEFINITION. One instruction's meaning, chosen by its constructor. The state `exec` is given has IP
past the instruction word (41_miscellaneous.md, "IP in the pseudocode has already been advanced"). -/

namespace Sys2Proof.Machine

def exec (i : Instr) (s : State) : Host.Outcome State Fault Refusal :=
  match i with
  | .nop => Sys2Proof.Machine.execNop s
  | .rfi => Sys2Proof.Machine.execRfi s
  | .unlnk => Sys2Proof.Machine.execUnlnk s
  | .rfs ss => Sys2Proof.Machine.execRfs ss s
  | .lnk ss => Sys2Proof.Machine.execLnk ss s
  | .cmpi ss ea => Sys2Proof.Machine.execCmpi ss ea s
  | .addi ss ea => Sys2Proof.Machine.execAddi ss ea s
  | .subi ss ea => Sys2Proof.Machine.execSubi ss ea s
  | .xori ss ea => Sys2Proof.Machine.execXori ss ea s
  | .ori ss ea => Sys2Proof.Machine.execOri ss ea s
  | .andi ss ea => Sys2Proof.Machine.execAndi ss ea s
  | .sti ss ea => Sys2Proof.Machine.execSti ss ea s
  | .not ss ea => Sys2Proof.Machine.execNot ss ea s
  | .neg ss ea => Sys2Proof.Machine.execNeg ss ea s
  | .adc ss ea => Sys2Proof.Machine.execAdc ss ea s
  | .sbc ss ea => Sys2Proof.Machine.execSbc ss ea s
  | .clr ss ea => Sys2Proof.Machine.execClr ss ea s
  | .rev ss ea => Sys2Proof.Machine.execRev ss ea s
  | .ext ss ea => Sys2Proof.Machine.execExt ss ea s
  | .tst ss ea => Sys2Proof.Machine.execTst ss ea s
  | .mul y x => Sys2Proof.Machine.execMul y x s
  | .hmulu y x => Sys2Proof.Machine.execHmulu y x s
  | .hmuls y x => Sys2Proof.Machine.execHmuls y x s
  | .divu y x => Sys2Proof.Machine.execDivu y x s
  | .divs y x => Sys2Proof.Machine.execDivs y x s
  | .modu y x => Sys2Proof.Machine.execModu y x s
  | .mods y x => Sys2Proof.Machine.execMods y x s
  | .lsl y ea => Sys2Proof.Machine.execLsl y ea s
  | .lsr y ea => Sys2Proof.Machine.execLsr y ea s
  | .asr y ea => Sys2Proof.Machine.execAsr y ea s
  | .ror y ea => Sys2Proof.Machine.execRor y ea s
  | .ldq y q => Sys2Proof.Machine.execLdq y q s
  | .cmpq y q => Sys2Proof.Machine.execCmpq y q s
  | .addq q ss ea => Sys2Proof.Machine.execAddq q ss ea s
  | .subq q ss ea => Sys2Proof.Machine.execSubq q ss ea s
  | .lslq q ea => Sys2Proof.Machine.execLslq q ea s
  | .lsrq q ea => Sys2Proof.Machine.execLsrq q ea s
  | .asrq q ea => Sys2Proof.Machine.execAsrq q ea s
  | .rorq q ea => Sys2Proof.Machine.execRorq q ea s
  | .rrc ea => Sys2Proof.Machine.execRrc ea s
  | .ld y ss ea => Sys2Proof.Machine.execLd y ss ea s
  | .cmp y ss ea => Sys2Proof.Machine.execCmp y ss ea s
  | .add y ss ea => Sys2Proof.Machine.execAdd y ss ea s
  | .sub y ss ea => Sys2Proof.Machine.execSub y ss ea s
  | .xor y ss ea => Sys2Proof.Machine.execXor y ss ea s
  | .or y ss ea => Sys2Proof.Machine.execOr y ss ea s
  | .and y ss ea => Sys2Proof.Machine.execAnd y ss ea s
  | .st y ss ea => Sys2Proof.Machine.execSt y ss ea s
  | .bcc cccc q => Sys2Proof.Machine.execBcc cccc q s
  | .jcc cccc ss ea => Sys2Proof.Machine.execJcc cccc ss ea s

end Sys2Proof.Machine
end

