-- ==== Sys2Proof/Machine/Step.lean ====
section
/-! DEFINITION. One step: the end-of-run test, the fetch and decoding of the instruction word, and the
meaning of the instruction (40_components.md R149, 70_reset_and_hazards.md R289, R290). -/

namespace Sys2Proof.Machine

/-- One whole instruction (00_scope.md R11). -/
def step (s : State) : Host.Outcome State Fault Refusal :=
  match fetchInstr s with
  | .error f => .fault f
  | .ok (i, s1) => exec i s1

/-- `s` with the instruction whose low `nbits` bits are `w` stored at IP, so that the next step runs it
(log 17). -/
def State.withFetchWord (s : State) (nbits w : Nat) : State := placeWord s nbits w

end Sys2Proof.Machine
end

