-- ==== Sys2Proof/Safety.lean ====
section
/-! DEFINITION. The terms in which claims about the machine are made: the invariant of a state, when an
access is possible, what a location holds, what an instruction may change and where it stores. -/

namespace Sys2Proof.Machine

/-- The invariant: memory in canonical form, and a configuration inside the spec's restrictions. -/
def State.wf (s : State) : Bool := Memory.wf s.mem && s.cfg.wf

/-- The three operand sizes (20_memory.md R52, "n in {1, 2, 4}"). -/
abbrev OperandSize (nb : Nat) : Prop := nb = 1 ∨ nb = 2 ∨ nb = 4

/-- The `k`-th byte address from `a` on, modulo 2^32 (20_memory.md R51). -/
abbrev byteAddr (a : Word) (k : Nat) : Word := a + BitVec.ofNat 32 k

/-- `s` after its reads have drawn free values up to number `n` (log 8); under the default
`UNWRITTEN_READ` no read draws one. -/
def State.withReads (s : State) (n : Nat) : State := { s with freeReads := n }

/-- The access is aligned or need not be, and every byte of it is in `MEM_MAP`
(20_memory.md R52, R55, R59). -/
abbrev Accessible (s : State) (align nb : Nat) (a : Word) : Prop :=
  (s.cfg.align = .allow ∨ a.toNat % align = 0) ∧
    ∀ k, k < nb → mapped s.cfg (byteAddr a k) = true

/-- Every byte of the access has been written (10_state.md R30). -/
abbrev Written (s : State) (nb : Nat) (a : Word) : Prop :=
  ∀ k, k < nb → (s.byteAt (byteAddr a k)).isSome = true

/-- The `nb` bytes from `a` on have been written and hold `v` in the byte order of the machine
(20_memory.md R54). -/
abbrev HoldsValue (s : State) (nb : Nat) (a : Word) (v : BitVec (8 * nb)) : Prop :=
  ∀ k, k < nb → s.byteAt (byteAddr a k) = some (match s.cfg.byteOrder with
    | .big => v.extractLsb' (8 * (nb - 1 - k)) 8
    | .little => v.extractLsb' (8 * k) 8)

/-- The old value of a location that a write of `nb` bytes keeps bits of: a register's under
`NARROW_REG_WRITE = preserve` (10_state.md R27), else nothing is read. -/
def Loc.readOld (loc : Loc) (nb : Nat) (s : State) : Run (Word × State) :=
  match loc with
  | .dreg i => Machine.readOld .d i nb s
  | .areg i => Machine.readOld .a i nb s
  | .mem _ => .ok (0, s)
  | .imm _ => .ok (0, s)
  | .sr => .ok (0, s)

/-- An operand can be written to the location in `s`: the old register value, where the write keeps bits
of it, can be read, as `old` and leaving `u`; memory must be accessible; a constant never can. -/
def Loc.Writable (loc : Loc) (nb : Nat) (s : State) (old : Word) (u : State) : Prop :=
  loc.readOld nb s = .ok (old, u) ∧
    match loc with
    | .dreg _ => True
    | .areg _ => True
    | .mem a => Accessible s nb nb a
    | .imm _ => False
    | .sr => True

/-- The four flags of `t` are `f` where it is given, and those of `s` where it is not. -/
def FlagsAfter (f : Option Flags) (s t : State) : Prop :=
  ∀ x, t.flagAt x = match f with
    | some f => some (f.get x)
    | none => s.flagAt x

/-- `v` has been written to the location over the old value `old`, giving `t`: the location holds it
(40_components.md R138, 10_state.md R25, R27). -/
def Loc.Holds (loc : Loc) (nb : Nat) (v : BitVec (8 * nb)) (old : Word) (t : State) : Prop :=
  match loc with
  | .dreg i => t.regAt .d i = some (narrowed t.cfg.narrowWrite nb old v)
  | .areg i => t.regAt .a i = some (narrowed t.cfg.narrowWrite nb old v)
  | .mem a => memRead nb a t = .ok (v, t)
  | .imm _ => False
  | .sr => ∀ x, t.flagAt x = some ((srFlags t.cfg.srLayout v).get x)

/-- The byte address lies inside the `nb` bytes of the location. -/
def Loc.Covers (loc : Loc) (nb : Nat) (b : Word) : Prop :=
  ∃ a k, loc = .mem a ∧ k < nb ∧ b = byteAddr a k

/-- Nothing but the location (and the flags) differs between `s` and `t`. -/
def UnchangedOutside (loc : Loc) (nb : Nat) (s t : State) : Prop :=
  (∀ i, loc ≠ .dreg i → t.regAt .d i = s.regAt .d i) ∧
  (∀ i, loc ≠ .areg i → t.regAt .a i = s.regAt .a i) ∧
  (∀ b, ¬ loc.Covers nb b → t.byteAt b = s.byteAt b) ∧
  t.ip = s.ip ∧ t.cfg = s.cfg ∧ t.freeReads = s.freeReads

/-- Only register `i` of a file (and the flags) differs between `s` and `t`. -/
def UnchangedButReg (file : RegFile) (i : RegNum) (s t : State) : Prop :=
  (∀ f j, (f, j) ≠ (file, i) → t.regAt f j = s.regAt f j) ∧
  t.mem = s.mem ∧ t.ip = s.ip ∧ t.cfg = s.cfg ∧ t.freeReads = s.freeReads

/-- The result `r` stands at the location, over the old value `old`, with the flags `f` (`none`: those of
`s`) unless the location is SR, and nothing else differs between `s` and `t`
(40_components.md R138). -/
def WritesResult (loc : Loc) (nb : Nat) (r : BitVec (8 * nb)) (f : Option Flags) (old : Word)
    (s t : State) : Prop :=
  loc.Holds nb r old t ∧ UnchangedOutside loc nb s t ∧ (loc ≠ .sr → FlagsAfter f s t)

/-- The result `r` stands in register `i` of a file, over the old value `old`, with the flags `f` (`none`:
those of `s`), and nothing else differs between `s` and `t` (10_state.md R27, 48_arithmetic.md R238). -/
def WritesReg (file : RegFile) (i : RegNum) (nb : Nat) (r : BitVec (8 * nb)) (f : Option Flags)
    (old : Word) (s t : State) : Prop :=
  t.regAt file i = some (narrowed s.cfg.narrowWrite nb old r) ∧
    UnchangedButReg file i s t ∧ FlagsAfter f s t

/-! ### What results and flags are, said without the model's own flag functions -/

/-- `r` and `f` are the n-bit sum of `a`, `b` and a carry with its flags (40_components.md R145): V says
that the signed reading of the result is not the exact sum. -/
def Adds {n : Nat} (a b : BitVec n) (cin : Bool) (r : BitVec n) (f : Flags) : Prop :=
  r = a + b + BitVec.ofNat n cin.toNat ∧ f.n = r.msb ∧ (f.z = true ↔ r = 0) ∧
    (f.c = true ↔ 2 ^ n ≤ a.toNat + b.toNat + cin.toNat) ∧
    (f.v = true ↔ r.toInt ≠ a.toInt + b.toInt + cin.toNat)

/-- `r` and `f` are the n-bit difference of `a`, `b` and a borrow with its flags (40_components.md R146);
C is the borrow or its inverse by `C_SUB_POLARITY`. -/
def Subtracts {n : Nat} (p : SubCarry) (a b : BitVec n) (bin : Bool) (r : BitVec n) (f : Flags) :
    Prop :=
  r = a - b - BitVec.ofNat n bin.toNat ∧ f.n = r.msb ∧ (f.z = true ↔ r = 0) ∧
    (p = .borrow → (f.c = true ↔ a.toNat < b.toNat + bin.toNat)) ∧
    (p = .notBorrow → (f.c = true ↔ b.toNat + bin.toNat ≤ a.toNat)) ∧
    (f.v = true ↔ r.toInt ≠ a.toInt - b.toInt - bin.toNat)

/-- `f` has N and Z of the result, V as given and C as given (40_components.md R147, R148;
44_complex_arith.md R197). -/
def ResultFlags {n : Nat} (r : BitVec n) (v c : Bool) (f : Flags) : Prop :=
  f.n = r.msb ∧ (f.z = true ↔ r = 0) ∧ f.v = v ∧ f.c = c

/-- The result of a shift or rotate as the bit-vector operation of its kind
(45_shifts_rotates.md R200 to R203). -/
def shifted (kind : ShiftKind) (d : Word) (c : Nat) : Word :=
  match kind with
  | .logicalLeft => d <<< c
  | .logicalRight => d >>> c
  | .arithmeticRight => d.sshiftRight c
  | .rotateRight => d.rotateRight c

/-- The last bit shifted or rotated out, 0 for a count of 0 (45_shifts_rotates.md R204). -/
def lastOut (kind : ShiftKind) (d : Word) (c : Nat) : Bool :=
  decide (0 < c) &&
    match kind with
    | .logicalLeft => d.getLsbD (32 - c)
    | .logicalRight => d.getLsbD (c - 1)
    | .arithmeticRight => d.getLsbD (c - 1)
    | .rotateRight => d.getLsbD (c - 1)

/-- The byte the host supplies for an address: that of the last cell that names the address modulo 2^32,
none where no cell does (10_state.md R29, `INIT_MEM`). -/
def suppliedByte (cells : List Host.Cell) (a : Word) : Option Byte :=
  (cells.reverse.find? fun p => p.1 % 2 ^ 32 = a.toNat).map fun p => p.2

/-- A return from `t` goes back: RFS, in every state `u` that agrees with `t` on SP, on the four bytes
below `top` and on the parameters, and in which the immediate of RFS can be fetched, completes with IP
at `ret` and with SP at `top` plus the immediate (41_miscellaneous.md R163). -/
def ReturnsTo (t : State) (ret top : Word) : Prop :=
  ∀ (ss : Scale) (u u1 : State) (imm : Word),
    u.regAt .a t.cfg.spIndex = t.regAt .a t.cfg.spIndex → u.cfg = t.cfg →
    (∀ k, k < 4 → u.byteAt (byteAddr (top - 4) k) = t.byteAt (byteAddr (top - 4) k)) →
    fetchFrameImm ss u = .ok (imm, u1) →
    ∃ w, exec (.rfs ss) u = .next w ∧ w.ip = ret ∧ w.regAt .a t.cfg.spIndex = some (top + imm)

/-- SP has been read in `s` as `sp` and one word `v` been pushed, giving `t`: SP is down by 4, the word
stands at the new SP, and no other register, byte or flag differs (20_memory.md R63); IP is left
open. -/
def Pushed (v sp : Word) (s t : State) : Prop :=
  t.regAt .a s.cfg.spIndex = some (sp - 4) ∧ memRead 4 (sp - 4) t = .ok (v, t) ∧
    (∀ i, t.regAt .d i = s.regAt .d i) ∧
    (∀ i, i ≠ s.cfg.spIndex → t.regAt .a i = s.regAt .a i) ∧
    (∀ b, (∀ k, k < 4 → b ≠ byteAddr (sp - 4) k) → t.byteAt b = s.byteAt b) ∧
    FlagsAfter none s t ∧ t.cfg = s.cfg ∧ t.freeReads = s.freeReads

end Sys2Proof.Machine

namespace Sys2Proof

open Machine

/-! ### What an instruction may change (10_state.md R31) -/

/-- The data registers an effective address names as a destination. -/
def EA.dataDest : EA → List RegNum
  | .dreg x => [x]
  | _ => []

/-- The address registers an effective address names as a destination. -/
def EA.addressDest : EA → List RegNum
  | .areg x => [x]
  | _ => []

/-- The address registers evaluating an effective address steps (40_components.md R128, R129). -/
def EA.stepped : EA → List RegNum
  | .postInc x => [x]
  | .preDec x => [x]
  | _ => []

/-- The address registers whose value evaluating an effective address reads (40_components.md R125). -/
def EA.base : EA → List RegNum
  | .postInc x => [x]
  | .preDec x => [x]
  | .deferred x => [x]
  | .base16 x => [x]
  | .base32 x => [x]
  | _ => []

/-- The effective address an instruction evaluates. -/
def Instr.operandEA : Instr → Option EA
  | .nop => none
  | .rfi => none
  | .unlnk => none
  | .rfs _ => none
  | .lnk _ => none
  | .cmpi _ ea => some ea
  | .addi _ ea => some ea
  | .subi _ ea => some ea
  | .xori _ ea => some ea
  | .ori _ ea => some ea
  | .andi _ ea => some ea
  | .sti _ ea => some ea
  | .not _ ea => some ea
  | .neg _ ea => some ea
  | .adc _ ea => some ea
  | .sbc _ ea => some ea
  | .clr _ ea => some ea
  | .rev _ ea => some ea
  | .ext _ ea => some ea
  | .tst _ ea => some ea
  | .mul _ _ => none
  | .hmulu _ _ => none
  | .hmuls _ _ => none
  | .divu _ _ => none
  | .divs _ _ => none
  | .modu _ _ => none
  | .mods _ _ => none
  | .lsl _ ea => some ea
  | .lsr _ ea => some ea
  | .asr _ ea => some ea
  | .ror _ ea => some ea
  | .ldq _ _ => none
  | .cmpq _ _ => none
  | .addq _ _ ea => some ea
  | .subq _ _ ea => some ea
  | .lslq _ ea => some ea
  | .lsrq _ ea => some ea
  | .asrq _ ea => some ea
  | .rorq _ ea => some ea
  | .rrc ea => some ea
  | .ld _ _ ea => some ea
  | .cmp _ _ ea => some ea
  | .add _ _ ea => some ea
  | .sub _ _ ea => some ea
  | .xor _ _ ea => some ea
  | .or _ _ ea => some ea
  | .and _ _ ea => some ea
  | .st _ _ ea => some ea
  | .bcc _ _ => none
  | .jcc _ _ ea => some ea

/-- The register an instruction writes through its `yyy` field, with its file (10_state.md R31). -/
def Instr.yDest : Instr → Option (RegFile × RegNum)
  | .mul y _ => some (.d, y)
  | .hmulu y _ => some (.d, y)
  | .hmuls y _ => some (.d, y)
  | .divu y _ => some (.d, y)
  | .divs y _ => some (.d, y)
  | .modu y _ => some (.d, y)
  | .mods y _ => some (.d, y)
  | .lsl y _ => some (.d, y)
  | .lsr y _ => some (.d, y)
  | .asr y _ => some (.d, y)
  | .ror y _ => some (.d, y)
  | .ldq y _ => some (.d, y)
  | .ld y ss _ => some (regSel ss, y)
  | .add y ss _ => some (regSel ss, y)
  | .sub y ss _ => some (regSel ss, y)
  | .xor y ss _ => some (regSel ss, y)
  | .or y ss _ => some (regSel ss, y)
  | .and y ss _ => some (regSel ss, y)
  | _ => none

/-- The address registers an instruction writes as SP or BP (10_state.md R31). -/
def Instr.stackRegs (c : Config) : Instr → List RegNum
  | .unlnk => [c.spIndex, c.bpIndex]
  | .rfs _ => [c.spIndex]
  | .lnk _ => [c.spIndex, c.bpIndex]
  | .bcc cccc _ => if isCall cccc then [c.spIndex] else []
  | .jcc cccc _ _ => if isCall cccc then [c.spIndex] else []
  | _ => []

/-- Every data register an instruction may write (10_state.md R31). -/
def Instr.dataWritten (i : Instr) : List RegNum :=
  (i.writtenEA.map EA.dataDest).getD [] ++
    match i.yDest with
    | some (.d, y) => [y]
    | _ => []

/-- Every address register an instruction may write (10_state.md R31). -/
def Instr.addressWritten (c : Config) (i : Instr) : List RegNum :=
  (i.operandEA.map EA.stepped).getD [] ++ (i.writtenEA.map EA.addressDest).getD [] ++
    i.stackRegs c ++
    match i.yDest with
    | some (.a, y) => [y]
    | _ => []

/-- The instruction computes flags (40_components.md R150: every row that is not "unchanged"). -/
def Instr.computesFlags : Instr → Bool
  | .nop => false
  | .rfi => false
  | .unlnk => false
  | .rfs _ => false
  | .lnk _ => false
  | .sti _ _ => false
  | .clr _ _ => false
  | .ldq _ _ => false
  | .ld _ _ _ => false
  | .st _ _ _ => false
  | .bcc _ _ => false
  | .jcc _ _ _ => false
  | _ => true

/-- The instruction may change a flag: it computes flags, or its destination is SR
(40_components.md R138, R150). -/
def Instr.writesFlags (i : Instr) : Bool := i.computesFlags || decide (i.writtenEA = some .sr)

/-- The instruction may set IP other than by falling through (49_flow_control.md). -/
def Instr.transfersControl : Instr → Bool
  | .rfs _ => true
  | .bcc _ _ => true
  | .jcc _ _ _ => true
  | _ => false

/-- The operand width in bytes of an instruction that has an effective address
(20_memory.md R56). -/
def Instr.operandBytes : Instr → Nat
  | .cmpi ss _ => bytes ss
  | .addi ss _ => bytes ss
  | .subi ss _ => bytes ss
  | .xori ss _ => bytes ss
  | .ori ss _ => bytes ss
  | .andi ss _ => bytes ss
  | .sti ss _ => bytes ss
  | .not ss _ => bytes ss
  | .neg ss _ => bytes ss
  | .adc ss _ => bytes ss
  | .sbc ss _ => bytes ss
  | .clr ss _ => bytes ss
  | .rev ss _ => bytes ss
  | .ext ss _ => bytes ss
  | .tst ss _ => bytes ss
  | .lsl _ _ => 1
  | .lsr _ _ => 1
  | .asr _ _ => 1
  | .ror _ _ => 1
  | .addq _ ss _ => bytes ss
  | .subq _ ss _ => bytes ss
  | .lslq _ _ => 4
  | .lsrq _ _ => 4
  | .asrq _ _ => 4
  | .rorq _ _ => 4
  | .rrc _ => 4
  | .ld _ ss _ => bytes ss
  | .cmp _ ss _ => bytes ss
  | .add _ ss _ => bytes ss
  | .sub _ ss _ => bytes ss
  | .xor _ ss _ => bytes ss
  | .or _ ss _ => bytes ss
  | .and _ ss _ => bytes ss
  | .st _ ss _ => bytes ss
  | .jcc _ ss _ => bytes ss
  | _ => 0

/-- The width of the instruction's own `#imm` operand, where it has one (30_encoding.md R96). -/
def Instr.ownImm : Instr → Option Nat
  | .rfs ss => some (bytes ss)
  | .lnk ss => some (bytes ss)
  | .cmpi ss _ => some (bytes ss)
  | .addi ss _ => some (bytes ss)
  | .subi ss _ => some (bytes ss)
  | .xori ss _ => some (bytes ss)
  | .ori ss _ => some (bytes ss)
  | .andi ss _ => some (bytes ss)
  | .sti ss _ => some (bytes ss)
  | _ => none

/-- The bytes of extension words after the instruction word (30_encoding.md R88, less the 2 bytes of
the instruction word). -/
def Instr.extBytes (c : Config) (i : Instr) : Nat :=
  (i.operandEA.map (extLen c i.operandBytes)).getD 0 + (i.ownImm.map (immLength c)).getD 0

end Sys2Proof

namespace Sys2Proof.Machine

/-- Where the stored bytes of a location lie. -/
def Loc.stored (loc : Loc) (nb : Nat) : Option (Word × Nat) :=
  match loc with
  | .mem a => some (a, nb)
  | _ => none

/-- Where an instruction stores through its effective address: the location its meaning evaluates, in
the order its meaning evaluates it. -/
def eaStore (i : Instr) (s : State) : Option (Word × Nat) :=
  match i.writtenEA with
  | none => none
  | some ea =>
    match i.ownImm with
    | none =>
      match evalEA ea i.operandBytes s with
      | .ok (loc, _) => loc.stored i.operandBytes
      | .error _ => none
    | some _ =>
      match evalEAImm ea i.operandBytes s with
      | .ok (loc, _, _) => loc.stored i.operandBytes
      | .error _ => none

/-- Where a push in this state stores: the word below SP, as the push reads SP (20_memory.md R63). -/
def wordBelowSp (s : State) : Option (Word × Nat) :=
  match readSp s with
  | .ok (sp, _) => some (sp - 4, 4)
  | .error _ => none

/-- Where an instruction pushes: below SP, as its meaning finds SP when it pushes
(20_memory.md R63). -/
def pushStore (i : Instr) (s : State) : Option (Word × Nat) :=
  match i with
  | .lnk ss =>
    match fetchFrameImm ss s with
    | .ok (_, s1) =>
      match readBp s1 with
      | .ok (_, s2) => wordBelowSp s2
      | .error _ => none
    | .error _ => none
  | .bcc cccc _ => if isCall cccc then wordBelowSp s else none
  | .jcc cccc ss ea =>
    if isCall cccc then
      match operand ea (bytes ss) s with
      | .ok (_, _, s1) => wordBelowSp s1
      | .error _ => none
    else none
  | _ => none

/-- The byte address lies inside what the instruction stores in this state (20_memory.md R56). -/
def StoresTo (i : Instr) (s : State) (b : Word) : Prop :=
  ∃ a n k, (eaStore i s = some (a, n) ∨ pushStore i s = some (a, n)) ∧ k < n ∧ b = byteAddr a k

end Sys2Proof.Machine
end

