-- ==== Sys2Proof/Certificates/Slice0/Obligations.lean ====
section
/-! DEFINITION. What is claimed of the model, one `def Obligations.<Name> : Prop` each. A docstring cites
the numbered rule a statement formalises; where it names a decision D<n> (spec/92_eei_decisions.md) or a
log entry, the statement rests on a choice that is not a fact of the source. -/

open Sys2Proof Sys2Proof.Machine

/-! ### Encoding -/

/-- 30_encoding.md R81, R83, R89: the word of every well-formed instruction decodes to it, with every
field at every value. -/
def Obligations.EncodeThenDecode : Prop :=
  ∀ i : Instr, i.wf = true → decode (encode i) = .ok i

/-- 30_encoding.md R83: "a word w selects the row when `w & mask == match`": what a word decodes to is
well formed, has that word and no other, and the word agrees with the row's match under the row's
mask. -/
def Obligations.DecodeThenEncode : Prop :=
  ∀ (w : Half) (i : Instr), decode w = .ok i →
    i.wf = true ∧ encode i = w ∧ w &&& i.row.mask = i.row.value

/-- 30_encoding.md R90 and R91, 40_components.md R140 (decisions D13, D14): a word is refused by the
decoder exactly when it lies in one of the four unlisted ranges, or has a reserved effective-address
form, or has the immediate form where the row writes its effective address; and it is then refused by
that reason's name. -/
def Obligations.RejectedWordsExactly : Prop :=
  ∀ w : Half,
    let high := w.extractLsb' 8 8
    let low := w.extractLsb' 0 8
    let top5 := w.extractLsb' 11 5
    let unlisted : Prop :=
      (high = 0x00#8 ∧ low ∉ [0x00#8, 0x10#8, 0x18#8, 0x30#8, 0x70#8, 0xB0#8, 0xF0#8, 0x38#8, 0x78#8,
          0xB8#8, 0xF8#8]) ∨
      (top5 = 0b00010#5 ∧ (w.extractLsb' 6 2 ≠ 0#2 ∨ w.extractLsb' 3 3 = 0#3)) ∨
      (0x2000 ≤ w.toNat ∧ w.toNat ≤ 0x3FFF) ∨ (0xC000 ≤ w.toNat ∧ w.toNat ≤ 0xDFFF)
    let hasEA : Prop :=
      (0x0100 ≤ w.toNat ∧ w.toNat ≤ 0x0FFF) ∨ (0x1800 ≤ w.toNat ∧ w.toNat ≤ 0x1FFF) ∨
        (0x5000 ≤ w.toNat ∧ w.toNat ≤ 0xBFFF) ∨ 0xF000 ≤ w.toNat
    let writesEA : Prop :=
      (0x0200 ≤ w.toNat ∧ w.toNat ≤ 0x0EFF) ∨ (0x5000 ≤ w.toNat ∧ w.toNat ≤ 0x7FFF) ∨
        (0xB800 ≤ w.toNat ∧ w.toNat ≤ 0xBFFF)
    (decode w = .error (.unlisted w) ↔ unlisted) ∧
      (decode w = .error (.reservedEA w) ↔
        hasEA ∧ w.extractLsb' 3 3 = 0b111#3 ∧
          w.extractLsb' 0 3 ∈ [0b001#3, 0b011#3, 0b100#3, 0b111#3]) ∧
      (decode w = .error (.immediateDestination w) ↔ writesEA ∧ w.extractLsb' 0 6 = 0b111010#6) ∧
      decode w ≠ .error .truncated

/-- 30_encoding.md R83 with the words of spec/95_test_vectors.md: some words written out by hand
decode to the instruction they stand for (a sanity statement). -/
def Obligations.HandWrittenWordsDecode : Prop :=
  decode 0b0000000000011000#16 = .ok .unlnk ∧
    decode 0b0000000001111000#16 = .ok (.lnk .h) ∧
    decode 0b0000001000000000#16 = .ok (.addi .b (.dreg 0)) ∧
    decode 0b0000111100100000#16 = .ok (.tst .b (.deferred 0)) ∧
    decode 0b0001000100001010#16 = .ok (.mul 1 2) ∧
    decode 0b0001100001010001#16 = .ok (.lsr 0 (.postInc 1)) ∧
    decode 0b0100000011111111#16 = .ok (.ldq 0 0xFF#8) ∧
    decode 0b0101011111001000#16 = .ok (.addq 7#3 .a (.areg 0)) ∧
    decode 0b0111100000100000#16 = .ok (.rrc (.deferred 0)) ∧
    decode 0b1011111111011111#16 = .ok (.st 7 .a (.preDec 7)) ∧
    decode 0b1110011111111110#16 = .ok (.bcc 7#4 0xFE#8) ∧
    decode 0b1111111111111010#16 = .ok (.jcc 15#4 .a .imm)

/-! ### One step -/

/-- 40_components.md R149 steps 1 to 3: where the two bytes at IP have been written and decode to `i`,
and are not the host's `HALT_WORD`, the step is `exec i` with IP moved past the instruction word. -/
def Obligations.StepRunsDecodedInstruction : Prop :=
  ∀ (s : State) (b0 b1 : Byte) (i : Instr), Accessible s 2 2 s.ip →
    s.byteAt s.ip = some b0 → s.byteAt (s.ip + 1) = some b1 →
    decodeBytes s.cfg.byteOrder [b0, b1] = .ok (i, []) →
    s.cfg.haltWord ≠ some (bytesHalf s.cfg.byteOrder b0 b1) →
    step s = exec i (s.setIp (s.ip + 2))

/-- 70_reset_and_hazards.md R290 (decision D27; log 9) and 60_exceptions.md R261 (decision D13): where the
halfword at IP is `HALT_WORD` the run is over and nothing is executed; where it is another word that
decodes to no instruction the step faults with that word. -/
def Obligations.StepStopsAtHaltAndIllegalWords : Prop :=
  ∀ (s : State) (b0 b1 : Byte), Accessible s 2 2 s.ip →
    s.byteAt s.ip = some b0 → s.byteAt (s.ip + 1) = some b1 →
    let w := bytesHalf s.cfg.byteOrder b0 b1
    (s.cfg.haltWord = some w → step s = .fault .halted) ∧
    ∀ e, s.cfg.haltWord ≠ some w → decode w = .error e →
      step s = .fault (.illegalInstruction w)

/-- 60_exceptions.md R269 step 1, R262, R263, R265 (decisions D12, D28, D33): the faults of fetching the
instruction word, in their order: an odd IP, then the first byte outside `MEM_MAP`, then the first
byte that nothing has written. -/
def Obligations.InstructionFetchFaults : Prop :=
  ∀ s : State,
    (s.cfg.align = .fault → s.ip.toNat % 2 = 1 → step s = .fault (.misaligned s.ip 2 .fetch)) ∧
    ((s.cfg.align = .allow ∨ s.ip.toNat % 2 = 0) → mapped s.cfg s.ip = false →
      step s = .fault (.accessFault s.ip .fetch)) ∧
    ((s.cfg.align = .allow ∨ s.ip.toNat % 2 = 0) → mapped s.cfg s.ip = true →
      mapped s.cfg (s.ip + 1) = false → step s = .fault (.accessFault (s.ip + 1) .fetch)) ∧
    (Accessible s 2 2 s.ip → s.cfg.unwrittenRead = .fault → s.byteAt s.ip = none →
      step s = .fault (.unwrittenRead (.byte s.ip))) ∧
    (Accessible s 2 2 s.ip → s.cfg.unwrittenRead = .fault → s.byteAt s.ip ≠ none →
      s.byteAt (s.ip + 1) = none → step s = .fault (.unwrittenRead (.byte (s.ip + 1))))

/-- 20_memory.md R62 (decision D29): a store is seen by the very next fetch: after `w`, the word of
`i`, is stored at an address that IP then holds, the step runs `i`. -/
def Obligations.StoreSeenByNextFetch : Prop :=
  ∀ (s t : State) (a : Word) (i : Instr), i.wf = true →
    memWrite 2 a (encode i) s = .ok t → s.cfg.haltWord ≠ some (encode i) →
    step (t.setIp a) = exec i (t.setIp (a + 2))

/-! ### Memory -/

/-- 20_memory.md R52, R54, R60, 30_encoding.md R84, R85 (decisions D1, D12, D29): a read of the bytes just
written returns what was written and changes nothing, be it a data read or a read of the stream at
its own alignment; bytes that hold a value in the byte order of the machine read as that value; and
so do the extension words at IP, which moves past them. -/
def Obligations.ReadAfterWriteReturnsValue : Prop :=
  (∀ (nb : Nat) (a : Word) (v : BitVec (8 * nb)) (s t : State), OperandSize nb →
    memWrite nb a v s = .ok t →
      memRead nb a t = .ok (v, t) ∧
      ∀ (kind : Access) (align : Nat), (s.cfg.align = .allow ∨ a.toNat % align = 0) →
        memReadAligned kind align nb a t = .ok (v, t)) ∧
  (∀ (kind : Access) (align nb : Nat) (a : Word) (v : BitVec (8 * nb)) (s : State), OperandSize nb →
    Accessible s align nb a → HoldsValue s nb a v →
      memReadAligned kind align nb a s = .ok (v, s)) ∧
  ∀ s : State,
    (∀ h : Half, Accessible s 2 2 s.ip → HoldsValue s 2 s.ip h →
      fetchExt16 s = .ok (h, s.setIp (s.ip + 2))) ∧
    ∀ w : Word, Accessible s 2 4 s.ip → HoldsValue s 4 s.ip w →
      fetchExt32 s = .ok (w, s.setIp (s.ip + 4))

/-- 20_memory.md R53, R54 (decision D1): the bytes a write leaves, the most significant at the lowest
address in big-endian order, the least significant in little-endian order; every other byte, and
everything that is not memory, is unchanged. -/
def Obligations.WriteLaysOutBytes : Prop :=
  ∀ (nb : Nat) (a : Word) (v : BitVec (8 * nb)) (s t : State), OperandSize nb →
    memWrite nb a v s = .ok t →
    (∀ k, k < nb →
      (s.cfg.byteOrder = .big →
        t.byteAt (byteAddr a k) = some (v.extractLsb' (8 * (nb - 1 - k)) 8)) ∧
      (s.cfg.byteOrder = .little →
        t.byteAt (byteAddr a k) = some (v.extractLsb' (8 * k) 8))) ∧
    (∀ b, (∀ k, k < nb → b ≠ byteAddr a k) → t.byteAt b = s.byteAt b) ∧
    t = s.setMem t.mem

/-- 20_memory.md R52, R53, R55, R59 and 10_state.md R30 (decisions D12, D28, D33): a read answers exactly
where the access is aligned as the policy asks, every byte is in `MEM_MAP` and every byte has been
written; a write needs the first two only. -/
def Obligations.AccessAnswersExactlyWhen : Prop :=
  ∀ (nb : Nat) (a : Word) (s : State), OperandSize nb → s.cfg.unwrittenRead = .fault →
    ((∃ v, memRead nb a s = .ok (v, s)) ↔ Accessible s nb nb a ∧ Written s nb a) ∧
    ∀ v : BitVec (8 * nb), (∃ t, memWrite nb a v s = .ok t) ↔ Accessible s nb nb a

/-- 20_memory.md R52, R53, 60_exceptions.md R262, R263, R269 (decisions D12, D28; log 13): which fault an
impossible access reports, a read of any kind at the alignment it asks for (`memRead` asks for its own
size, an extension word for 2) or a write: the alignment first, then the first byte outside
`MEM_MAP`; no access is misaligned under `ALIGN_POLICY = allow`. -/
def Obligations.ImpossibleAccessFaults : Prop :=
  ∀ (nb : Nat) (a : Word) (v : BitVec (8 * nb)) (s : State), OperandSize nb →
    (s.cfg.align = .fault →
      (∀ (kind : Access) (align : Nat), a.toNat % align ≠ 0 →
        memReadAligned kind align nb a s = .error (.misaligned a nb kind)) ∧
      (a.toNat % nb ≠ 0 → memRead nb a s = .error (.misaligned a nb .read) ∧
        memWrite nb a v s = .error (.misaligned a nb .write))) ∧
    ∀ j, j < nb → mapped s.cfg (byteAddr a j) = false →
      (∀ k, k < j → mapped s.cfg (byteAddr a k) = true) →
      (∀ (kind : Access) (align : Nat), (s.cfg.align = .allow ∨ a.toNat % align = 0) →
        memReadAligned kind align nb a s = .error (.accessFault (byteAddr a j) kind)) ∧
      ((s.cfg.align = .allow ∨ a.toNat % nb = 0) →
        memRead nb a s = .error (.accessFault (byteAddr a j) .read) ∧
        memWrite nb a v s = .error (.accessFault (byteAddr a j) .write))

/-- 10_state.md R30, 60_exceptions.md R265, R278 row 5 (decision D33; log 8): a read of what nothing has
written. A possible read of bytes (`memRead` is the read of kind read at its own size) reports the first
unwritten one under `fault`; under `any_value` it answers, and only the count of free values drawn
moves. A register or a flag that has been written reads as what it holds; one that has not is
reported under its name, or draws one free value. And the reads that count: the operand registers and
the flags of an instruction, by family. Where SR or a condition reads several flags, that the first
unwritten one is named, in the order N, Z, V, C or that of the condition's expression, is the model's
choice (log 30), as it is the model's reading that Dy is read before Dx and BP before SP (log 30); that
the read stops is the rule's. -/
def Obligations.UnwrittenReads : Prop :=
  (∀ (kind : Access) (align nb : Nat) (a : Word) (s : State), OperandSize nb → Accessible s align nb a →
    (s.cfg.unwrittenRead = .fault → ∀ j, j < nb → s.byteAt (byteAddr a j) = none →
      (∀ k, k < j → s.byteAt (byteAddr a k) ≠ none) →
      memReadAligned kind align nb a s = .error (.unwrittenRead (.byte (byteAddr a j)))) ∧
    (s.cfg.unwrittenRead = .anyValue →
      ∃ v n, memReadAligned kind align nb a s = .ok (v, s.withReads (s.freeReads + n)) ∧ n ≤ nb)) ∧
  (∀ (f : RegFile) (i : RegNum) (s : State),
    (∀ v, s.regAt f i = some v → readReg f i s = .ok (v, s)) ∧
    (s.regAt f i = none →
      (s.cfg.unwrittenRead = .fault → readReg f i s = .error (.unwrittenRead (.register f i))) ∧
      (s.cfg.unwrittenRead = .anyValue →
        ∃ v, readReg f i s = .ok (v, s.withReads (s.freeReads + 1))))) ∧
  (∀ (x : FlagName) (s : State),
    (∀ b, s.flagAt x = some b → readFlag x s = .ok (b, s)) ∧
    (s.flagAt x = none →
      (s.cfg.unwrittenRead = .fault → readFlag x s = .error (.unwrittenRead (.flag x))) ∧
      (s.cfg.unwrittenRead = .anyValue →
        ∃ b, readFlag x s = .ok (b, s.withReads (s.freeReads + 1))))) ∧
  ∀ (s : State), s.cfg.unwrittenRead = .fault →
    (∀ (y x : RegNum) (i : Instr),
      i ∈ [Instr.mul y x, .hmulu y x, .hmuls y x, .divu y x, .divs y x, .modu y x, .mods y x] →
      (s.regAt .d y = none → exec i s = .fault (.unwrittenRead (.register .d y))) ∧
      (s.regAt .d y ≠ none → s.regAt .d x = none →
        exec i s = .fault (.unwrittenRead (.register .d x)))) ∧
    (∀ (y : RegNum) (q : BitVec 8), s.regAt .d y = none →
      exec (.cmpq y q) s = .fault (.unwrittenRead (.register .d y))) ∧
    (∀ (ss : Scale) (x : RegNum) (y : RegNum) (i : Instr),
      i ∈ [Instr.tst ss (.postInc x), .clr ss (.preDec x), .st y ss (.deferred x),
        .ld y ss (.base16 x), .cmp y ss (.base32 x)] →
      s.regAt .a x = none → exec i s = .fault (.unwrittenRead (.register .a x))) ∧
    (∀ (ss : Scale) (ea : EA) (loc : Loc) (a : BitVec (8 * bytes ss)) (y : RegNum) (s1 : State),
      operand ea (bytes ss) s = .ok (loc, a, s1) →
      (s.regAt (regSel ss) y = none → y ∉ ea.stepped → ∀ i : Instr,
        i ∈ [Instr.cmp y ss ea, .add y ss ea, .sub y ss ea, .xor y ss ea, .or y ss ea,
          .and y ss ea] → exec i s = .fault (.unwrittenRead (.register (regSel ss) y))) ∧
      (s.regAt (regSel ss) y = none → y ∉ ea.stepped → s.cfg.narrowWrite = .preserve → bytes ss ≠ 4 →
        exec (.ld y ss ea) s = .fault (.unwrittenRead (.register (regSel ss) y))) ∧
      (s.regAt .a s.cfg.spIndex = none →
        exec (.jcc 0b0111#4 ss ea) s = .fault (.unwrittenRead (.register .a s.cfg.spIndex))) ∧
      (s.flagAt .c = none → ea ≠ .imm → ∀ i : Instr, i ∈ [Instr.adc ss ea, .sbc ss ea] →
        exec i s = .fault (.unwrittenRead (.flag .c)))) ∧
    (∀ (ea : EA) (loc : Loc) (y : RegNum) (s1 : State),
      (∀ b, operand ea 1 s = .ok (loc, b, s1) → s.regAt .d y = none → ∀ i : Instr,
        i ∈ [Instr.lsl y ea, .lsr y ea, .asr y ea, .ror y ea] →
          exec i s = .fault (.unwrittenRead (.register .d y))) ∧
      (∀ d, operand ea 4 s = .ok (loc, d, s1) → s.flagAt .c = none → ea ≠ .imm →
        exec (.rrc ea) s = .fault (.unwrittenRead (.flag .c))) ∧
      ∀ ss : Scale, evalEA ea (bytes ss) s = .ok (loc, s1) → s.regAt (regSel ss) y = none →
        y ∉ ea.stepped → ea ≠ .imm →
        exec (.st y ss ea) s = .fault (.unwrittenRead (.register (regSel ss) y))) ∧
    (∀ (ss : Scale) (x : RegNum), s.regAt .d x = none →
      exec (.neg ss (.dreg x)) s = .fault (.unwrittenRead (.register .d x)) ∧
      (s.cfg.narrowWrite = .preserve → bytes ss ≠ 4 →
        exec (.clr ss (.dreg x)) s = .fault (.unwrittenRead (.register .d x)))) ∧
    (∀ (xs ys : List FlagName) (x : FlagName), (∀ y ∈ xs, s.flagAt y ≠ none) → s.flagAt x = none →
      ([FlagName.n, .z, .v, .c] = xs ++ x :: ys →
        ∀ ss : Scale, exec (.tst ss .sr) s = .fault (.unwrittenRead (.flag x))) ∧
      ∀ cccc : CondCode, condFlags cccc = xs ++ x :: ys → ∀ (q : BitVec 8) (ss : Scale) (ea : EA),
        exec (.bcc cccc q) s = .fault (.unwrittenRead (.flag x)) ∧
        exec (.jcc cccc ss ea) s = .fault (.unwrittenRead (.flag x))) ∧
    (s.regAt .a s.cfg.bpIndex = none →
      exec .unlnk s = .fault (.unwrittenRead (.register .a s.cfg.bpIndex)) ∧
      ∀ (ss : Scale) (imm : Word) (s1 : State), fetchFrameImm ss s = .ok (imm, s1) →
        exec (.lnk ss) s = .fault (.unwrittenRead (.register .a s.cfg.bpIndex))) ∧
    (s.regAt .a s.cfg.spIndex = none →
      (∀ q : BitVec 8,
        exec (.bcc 0b0111#4 q) s = .fault (.unwrittenRead (.register .a s.cfg.spIndex))) ∧
      ∀ (ss : Scale) (imm : Word) (s1 : State), fetchFrameImm ss s = .ok (imm, s1) →
        exec (.rfs ss) s = .fault (.unwrittenRead (.register .a s.cfg.spIndex)) ∧
        (s.regAt .a s.cfg.bpIndex ≠ none →
          exec (.lnk ss) s = .fault (.unwrittenRead (.register .a s.cfg.spIndex))))

/-! ### Reset, launch and invariants -/

/-- 10_state.md R29, 70_reset_and_hazards.md R280, R281: the spec gives no reset value. The state after
reset is the model's choice (log 1 to 6): every register and flag written and zero, IP zero, no byte
written, the default parameters; and the invariant holds there. -/
def Obligations.ResetState : Prop :=
  State.reset.wf = true ∧ (∀ f i, State.reset.regAt f i = some 0) ∧ State.reset.ip = 0 ∧
    (∀ x, State.reset.flagAt x = some false) ∧ (∀ a, State.reset.byteAt a = none) ∧
    State.reset.cfg = Config.default

/-- 10_state.md R29, 70_reset_and_hazards.md R280 (decision D26): a launch state holds what the host
supplies: the registers, with `INIT_SP` and `INIT_BP` over them where given, IP, the flags, the
parameters, and at every address the last byte supplied for it; a register, flag or byte that it does
not supply is unwritten; and it meets the invariant. -/
def Obligations.LaunchStateHoldsWhatIsSupplied : Prop :=
  ∀ (c : Config) (p : Launch), c.wf = true →
    (State.launch c p).wf = true ∧ (State.launch c p).ip = p.ip ∧
    (∀ x, (State.launch c p).flagAt x = p.flag x) ∧ (State.launch c p).cfg = c ∧
    (∀ a, (State.launch c p).byteAt a = suppliedByte p.mem a) ∧
    (∀ i, (State.launch c p).regAt .d i = p.d[i]) ∧
    (State.launch c p).regAt .a c.spIndex = p.sp.or p.a[c.spIndex] ∧
    (State.launch c p).regAt .a c.bpIndex = p.bp.or p.a[c.bpIndex] ∧
    ∀ i, i ≠ c.spIndex → i ≠ c.bpIndex → (State.launch c p).regAt .a i = p.a[i]

/-- 20_memory.md R50, 00_scope.md R12 (log 5): from every state whose memory is canonical and whose
parameters are inside the spec's restrictions, every step that completes leaves such a state. -/
def Obligations.StepKeepsInvariant : Prop :=
  ∀ s t : State, s.wf = true → step s = .next t → t.wf = true

/-- 00_scope.md R12, the parameters are "never changed by a step", and 10_state.md R30 (log 8): under
`UNWRITTEN_READ = fault` no step draws a free value. -/
def Obligations.StepKeepsParameters : Prop :=
  ∀ s t : State, step s = .next t →
    t.cfg = s.cfg ∧ (s.cfg.unwrittenRead = .fault → t.freeReads = s.freeReads)

/-! ### Registers and SR -/

/-- 10_state.md R20: eight data registers named by a 3-bit field, none hardwired, none an alias of
another or of an address register. -/
def Obligations.DataRegistersHoldWhatIsWritten : Prop :=
  (∀ (s : State) (i j : RegNum) (v : Word),
    (s.setReg .d i v).regAt .d j = (if j = i then some v else s.regAt .d j) ∧
    (s.setReg .d i v).regAt .a j = s.regAt .a j ∧
    (s.setReg .a i v).regAt .d j = s.regAt .d j) ∧
  (∀ i : RegNum, ∃ x : BitVec 3, decodeReg x = i) ∧
  (∀ x y : BitVec 3, decodeReg x = decodeReg y → x = y)

/-- 10_state.md R27 (decision D4; log 21): bit by bit, what a register holds after a narrow write:
below the width the value, above it the sign, zero or the old bits. -/
def Obligations.NarrowWriteBits : Prop :=
  ∀ (p : NarrowWrite) (nb : Nat) (old : Word) (v : BitVec (8 * nb)) (k : Nat), OperandSize nb →
    k < 32 →
    (narrowed p nb old v).getLsbD k =
      if k < 8 * nb then v.getLsbD k
      else match p with
        | .signExtend => v.msb
        | .zeroExtend => false
        | .preserve => old.getLsbD k

/-- 10_state.md R25, 40_components.md R133, R137, R138 (decisions D5, D30; log 22): the bits of SR that
are 1 are the places of the flags that are set; the form SR evaluates to SR, takes no extension word and
changes nothing; where the four flags are written as `f`, reading it at any size gives the low bits of
that value and changes nothing; writing a value to it writes the four flags from their places, and
nothing else; and SR read at any width and written back sets the same flags. -/
def Obligations.StatusRegisterReadsBack : Prop :=
  ∀ (l : SrLayout) (f : Flags) (nb : Nat), l.distinct = true → OperandSize nb →
    srFlags l ((srValue l f).setWidth (8 * nb)) = f ∧
    (∀ k, (srValue l f).getLsbD k = true ↔
      (k = l.n ∧ f.n = true) ∨ (k = l.z ∧ f.z = true) ∨ (k = l.v ∧ f.v = true) ∨
        (k = l.c ∧ f.c = true)) ∧
    ∀ s : State, s.cfg.srLayout = l →
      evalEA .sr nb s = .ok (.sr, s) ∧ extLen s.cfg nb .sr = 0 ∧
      ((∀ x, s.flagAt x = some (f.get x)) →
        readLoc .sr nb s = .ok ((srValue l f).setWidth (8 * nb), s)) ∧
      (∀ v : BitVec (8 * nb), writeLoc .sr nb v s = .ok (s.setFlags
        { n := v.getLsbD l.n, z := v.getLsbD l.z, v := v.getLsbD l.v, c := v.getLsbD l.c })) ∧
      ∀ x, (s.setFlags f).flagAt x = some (f.get x)

/-! ### Effective addresses and operands -/

/-- 40_components.md R120: the four scales, the bytes each takes up and its default register set. -/
def Obligations.ScaleTable : Prop :=
  (decodeScale 0b00#2 = .b ∧ bytes .b = 1 ∧ regSel .b = .d) ∧
    (decodeScale 0b01#2 = .h ∧ bytes .h = 2 ∧ regSel .h = .d) ∧
    (decodeScale 0b10#2 = .w ∧ bytes .w = 4 ∧ regSel .w = .d) ∧
    (decodeScale 0b11#2 = .a ∧ bytes .a = 4 ∧ regSel .a = .a)

/-- 40_components.md R126, 10_state.md R27 (decisions D4, D33): the data register form takes no extension
word and evaluating it changes nothing and cannot fault; it reads the low bits of the register as an
instruction reads it, and writes with `RegWriteN`, which reads the old register where it keeps bits of
it; where the register has been written neither can fault. -/
def Obligations.DataRegisterForm : Prop :=
  ∀ (x : RegNum) (nb : Nat) (v : BitVec (8 * nb)) (s : State),
    evalEA (.dreg x) nb s = .ok (.dreg x, s) ∧ extLen s.cfg nb (.dreg x) = 0 ∧
    (∀ w s1, readReg .d x s = .ok (w, s1) →
      readLoc (.dreg x) nb s = .ok (w.setWidth (8 * nb), s1)) ∧
    (∀ old s1, readOld .d x nb s = .ok (old, s1) →
      writeLoc (.dreg x) nb v s = .ok (s1.setReg .d x (narrowed s.cfg.narrowWrite nb old v))) ∧
    ∀ w, s.regAt .d x = some w → readLoc (.dreg x) nb s = .ok (w.setWidth (8 * nb), s) ∧
      writeLoc (.dreg x) nb v s = .ok (s.setReg .d x (narrowed s.cfg.narrowWrite nb w v))

/-- 40_components.md R127, 10_state.md R27 (decisions D4, D33): the address register form is the same in
the A file, at any scale; with its example `ADDQ B A0, #1`, "an 8-bit addition on the low byte of A0
followed by `RegWriteN(A, 0, 1, r)`". -/
def Obligations.AddressRegisterForm : Prop :=
  (∀ (x : RegNum) (nb : Nat) (v : BitVec (8 * nb)) (s : State),
    evalEA (.areg x) nb s = .ok (.areg x, s) ∧ extLen s.cfg nb (.areg x) = 0 ∧
    (∀ w s1, readReg .a x s = .ok (w, s1) →
      readLoc (.areg x) nb s = .ok (w.setWidth (8 * nb), s1)) ∧
    (∀ old s1, readOld .a x nb s = .ok (old, s1) →
      writeLoc (.areg x) nb v s = .ok (s1.setReg .a x (narrowed s.cfg.narrowWrite nb old v))) ∧
    ∀ w, s.regAt .a x = some w → readLoc (.areg x) nb s = .ok (w.setWidth (8 * nb), s) ∧
      writeLoc (.areg x) nb v s = .ok (s.setReg .a x (narrowed s.cfg.narrowWrite nb w v))) ∧
  ∀ (s : State) (w : Word), s.regAt .a 0 = some w →
    ∃ f, exec (.addq 0 .b (.areg 0)) s =
      .next ((s.setReg .a 0 (narrowed s.cfg.narrowWrite 1 w (w.setWidth 8 + 1))).setFlags f)

/-- 40_components.md R130: "the operand is the n-byte memory cell at A[x]. A[x] is unchanged." -/
def Obligations.DeferredForm : Prop :=
  ∀ (x : RegNum) (nb : Nat) (a : Word) (s s1 : State), readReg .a x s = .ok (a, s1) →
    evalEA (.deferred x) nb s = .ok (.mem a, s1) ∧ s1.regAt .a x = s.regAt .a x ∧
    readLoc (.mem a) nb s1 = memRead nb a s1 ∧
    ∀ v : BitVec (8 * nb), writeLoc (.mem a) nb v s1 = memWrite nb a v s1

/-- 40_components.md R128, R129, R139 (decision D10): the stepping forms: which cell they name, how far
they move their register, 4 for SP under `SP_STEP = 4` and the operand size otherwise, and that they
move nothing else: for a register that has been written, and from whatever a read of it gives. -/
def Obligations.SteppingForms : Prop :=
  ∀ (x : RegNum) (nb : Nat) (s : State),
    let step : Word := if x = s.cfg.spIndex ∧ s.cfg.spStep = .four then 4 else BitVec.ofNat 32 nb
    (∀ a, s.regAt .a x = some a →
      evalEA (.postInc x) nb s = .ok (.mem a, s.setReg .a x (a + step)) ∧
      evalEA (.preDec x) nb s = .ok (.mem (a - step), s.setReg .a x (a - step))) ∧
    ∀ a s1, readReg .a x s = .ok (a, s1) →
      evalEA (.preDec x) nb s = .ok (.mem (a - step), s1.setReg .a x (a - step)) ∧
      ∃ b s2, readReg .a x s1 = .ok (b, s2) ∧
        evalEA (.postInc x) nb s = .ok (.mem a, s2.setReg .a x (b + step))

/-- 40_components.md R131, R132, R135, R136 (decisions D8, D9): the displacement forms. The displacement
is read through IP, which moves past it; 16-bit displacements are widened by `DISP_SIGNED`; the base
register is read before the displacement is fetched (R269); the IP-relative base is the address after
the displacement, or of it under `IPREL_BASE = at_disp`. -/
def Obligations.DisplacementForms : Prop :=
  ∀ (nb : Nat) (s s1 : State),
    (∀ d : Half, memReadAligned .fetch 2 2 s.ip s = .ok (d, s1) →
      let wide : Word := if s.cfg.dispSigned then d.signExtend 32 else d.setWidth 32
      let base : Word := if s.cfg.ipRelBase = .afterDisp then s.ip + 2 else s.ip
      evalEA .ip16 nb s = .ok (.mem (base + wide), s1.setIp (s.ip + 2)) ∧
      ∀ (x : RegNum) (a : Word) (s0 : State), readReg .a x s0 = .ok (a, s) →
        evalEA (.base16 x) nb s0 = .ok (.mem (a + wide), s1.setIp (s.ip + 2))) ∧
    (∀ d : Word, memReadAligned .fetch 2 4 s.ip s = .ok (d, s1) →
      let base : Word := if s.cfg.ipRelBase = .afterDisp then s.ip + 4 else s.ip
      evalEA .ip32 nb s = .ok (.mem (base + d), s1.setIp (s.ip + 4)) ∧
      ∀ (x : RegNum) (a : Word) (s0 : State), readReg .a x s0 = .ok (a, s) →
        evalEA (.base32 x) nb s0 = .ok (.mem (a + d), s1.setIp (s.ip + 4)))

/-- 30_encoding.md R86, 40_components.md R134 (decision D7): the immediate form: a byte takes a whole
halfword of the stream, whose high byte is ignored, or one byte under `BYTE_IMM_STREAM_BYTES = 1`; a
halfword takes two bytes and a word four. -/
def Obligations.ImmediateForm : Prop :=
  ∀ s s1 : State,
    (∀ h : Half, s.cfg.byteImm = .halfword → memReadAligned .fetch 2 2 s.ip s = .ok (h, s1) →
      fetchImm 1 s = .ok (h.extractLsb' 0 8, s1.setIp (s.ip + 2))) ∧
    (∀ b : Byte, s.cfg.byteImm = .oneByte → memReadAligned .fetch 1 1 s.ip s = .ok (b, s1) →
      fetchImm 1 s = .ok (b, s1.setIp (s.ip + 1))) ∧
    (∀ h : Half, memReadAligned .fetch 2 2 s.ip s = .ok (h, s1) →
      fetchImm 2 s = .ok (h, s1.setIp (s.ip + 2))) ∧
    (∀ w : Word, memReadAligned .fetch 2 4 s.ip s = .ok (w, s1) →
      fetchImm 4 s = .ok (w, s1.setIp (s.ip + 4))) ∧
    (∀ (nb : Nat) (v : BitVec (8 * nb)), OperandSize nb → fetchImm nb s = .ok (v, s1) →
      evalEA .imm nb s = .ok (.imm (v.setWidth 32), s1) ∧
      readLoc (.imm (v.setWidth 32)) nb s1 = .ok (v, s1))

/-- 40_components.md R125, R137 and 10_state.md R30 (decisions D12, D28, D33): when an operand can be
read. An effective address evaluates exactly when its base register, if any, has been written and its
extension words, if any, can be fetched; a location can be read exactly when it is a register, or the
four flags, that have been written, or a constant, or a cell that is accessible and written. -/
def Obligations.OperandReadableExactlyWhen : Prop :=
  ∀ (ea : EA) (nb : Nat) (s : State), OperandSize nb → s.cfg.unwrittenRead = .fault →
    ((∃ r, evalEA ea nb s = .ok r) ↔
      (∀ x ∈ ea.base, s.regAt .a x ≠ none) ∧
        (extLen s.cfg nb ea = 0 ∨
          (Accessible s (min 2 (extLen s.cfg nb ea)) (extLen s.cfg nb ea) s.ip ∧
            Written s (extLen s.cfg nb ea) s.ip))) ∧
    ∀ loc : Loc, (∃ r, readLoc loc nb s = .ok r) ↔
      match loc with
      | .dreg i => s.regAt .d i ≠ none
      | .areg i => s.regAt .a i ≠ none
      | .mem a => Accessible s nb nb a ∧ Written s nb a
      | .imm _ => True
      | .sr => ∀ x, s.flagAt x ≠ none

/-- 40_components.md R125, R149 steps 5 and 7, 30_encoding.md R88 (decision D15): what reading an operand
leaves: IP past the extension words, the stepped register of a stepping form, and nothing else. -/
def Obligations.OperandReadFrame : Prop :=
  ∀ (ea : EA) (nb : Nat) (s t : State) (loc : Loc) (v : BitVec (8 * nb)),
    operand ea nb s = .ok (loc, v, t) →
    t.ip = s.ip + BitVec.ofNat 32 (extLen s.cfg nb ea) ∧
    (∀ i, t.regAt .d i = s.regAt .d i) ∧
    (∀ i, i ∉ ea.stepped → t.regAt .a i = s.regAt .a i) ∧
    (∀ b, t.byteAt b = s.byteAt b) ∧ FlagsAfter none s t ∧ t.cfg = s.cfg ∧
    (s.cfg.unwrittenRead = .fault → t.freeReads = s.freeReads)

/-- 30_encoding.md R87, 40_components.md R149 steps 5 to 7 (decisions D6, D15; log 20): with an
immediate of the instruction's own, the extension words of the effective address come first, or last
under `EXT_ORDER = imm_then_ea`, and the operand is read after both. -/
def Obligations.OperandThenImmediate : Prop :=
  ∀ (ea : EA) (nb : Nat) (s : State) (loc : Loc) (v imm : BitVec (8 * nb)) (t : State),
    operandImm ea nb s = .ok (loc, v, imm, t) ↔
      ∃ s1 s2, (match s.cfg.extOrder with
        | .eaThenImm => evalEA ea nb s = .ok (loc, s1) ∧ fetchImm nb s1 = .ok (imm, s2)
        | .immThenEa => fetchImm nb s = .ok (imm, s1) ∧ evalEA ea nb s1 = .ok (loc, s2)) ∧
        readLoc loc nb s2 = .ok (v, t)

/-! ### Flags and conditions -/

/-- 40_components.md R145, R146 (decisions D3, D16; log 12): the flag functions give the sum and the
difference with their flags, under both polarities of C, and the equivalent formulas for V hold:
`((a ^ r) & (b ^ r))[n-1]` and `((a ^ b) & (a ^ r))[n-1]`. -/
def Obligations.FlagFunctionsAreExact : Prop :=
  ∀ (n : Nat) (p : SubCarry) (a b : BitVec n) (x : Bool), 0 < n →
    Adds a b x (addFlags a b x).1 (addFlags a b x).2 ∧
    (addFlags a b x).2.v = ((a ^^^ (addFlags a b x).1) &&& (b ^^^ (addFlags a b x).1)).msb ∧
    Subtracts p a b x (subFlags p a b x).1 (subFlags p a b x).2 ∧
    (subFlags p a b x).2.v = ((a ^^^ b) &&& (a ^^^ (subFlags p a b x).1)).msb

/-- 40_components.md R144, R146 and the source's "if the negative flag xor the overflow flag is set, then
the left-hand-side is less than the right-hand-side" (decision D3): which condition codes hold after a
compare of `a` with `b`, signed, equal, and unsigned under each polarity of C. -/
def Obligations.ConditionsAfterCompare : Prop :=
  ∀ (n : Nat) (p : SubCarry) (a b : BitVec n), 0 < n →
    let f := (subFlags p a b false).2
    (condHolds f 0b1101#4 = true ↔ a.toInt < b.toInt) ∧
    (condHolds f 0b0101#4 = true ↔ b.toInt ≤ a.toInt) ∧
    (condHolds f 0b1110#4 = true ↔ a.toInt ≤ b.toInt) ∧
    (condHolds f 0b0110#4 = true ↔ b.toInt < a.toInt) ∧
    (condHolds f 0b1001#4 = true ↔ a = b) ∧
    (condHolds f 0b0001#4 = true ↔ a ≠ b) ∧
    (p = .borrow →
      (condHolds f 0b0011#4 = true ↔ b.toNat ≤ a.toNat) ∧
      (condHolds f 0b1011#4 = true ↔ a.toNat < b.toNat) ∧
      (condHolds f 0b0100#4 = true ↔ a.toNat < b.toNat) ∧
      (condHolds f 0b1100#4 = true ↔ b.toNat ≤ a.toNat)) ∧
    (p = .notBorrow →
      (condHolds f 0b0011#4 = true ↔ a.toNat < b.toNat) ∧
      (condHolds f 0b1011#4 = true ↔ b.toNat ≤ a.toNat) ∧
      (condHolds f 0b0100#4 = true ↔ b.toNat < a.toNat) ∧
      (condHolds f 0b1100#4 = true ↔ a.toNat ≤ b.toNat))

/-- 40_components.md R142: the required state of each of the sixteen condition codes. -/
def Obligations.ConditionTable : Prop :=
  ∀ f : Flags,
    condHolds f 0b0000#4 = !f.n ∧ condHolds f 0b1000#4 = f.n ∧
    condHolds f 0b0001#4 = !f.z ∧ condHolds f 0b1001#4 = f.z ∧
    condHolds f 0b0010#4 = !f.v ∧ condHolds f 0b1010#4 = f.v ∧
    condHolds f 0b0011#4 = !f.c ∧ condHolds f 0b1011#4 = f.c ∧
    condHolds f 0b0100#4 = !(!f.c || f.z) ∧ condHolds f 0b1100#4 = (!f.c || f.z) ∧
    condHolds f 0b0101#4 = (f.n == f.v) ∧ condHolds f 0b1101#4 = (f.n != f.v) ∧
    condHolds f 0b0110#4 = ((f.n == f.v) && !f.z) ∧ condHolds f 0b1110#4 = ((f.n != f.v) || f.z) ∧
    condHolds f 0b0111#4 = true ∧ condHolds f 0b1111#4 = true

/-- 47_quick_shifts.md R224 (decision D21), "Thirty-three RRCs restore the operand and C." -/
def Obligations.ThirtyThreeRotatesRestore : Prop :=
  ∀ (d : Word) (c : Bool),
    (fun p : Word × Bool => ((rotateThroughCarry p.1 p.2).1, (rotateThroughCarry p.1 p.2).2.c))^[33]
      (d, c) = (d, c)

/-! ### Results, family by family -/

/-- 41_miscellaneous.md R160, 46_quick_arith.md R210 (decisions D16, D17): NOP and LDQ always complete;
NOP changes nothing, LDQ only all of its register. -/
def Obligations.NopAndLoadQuick : Prop :=
  ∀ s : State, exec .nop s = .next s ∧
    ∀ (y : RegNum) (q : BitVec 8), exec (.ldq y q) s = .next (s.setReg .d y (q.signExtend 32))

/-- 42_arith_immediate.md R171 to R175 (decisions D3, D16): ADDI, SUBI, XORI, ORI and ANDI complete
wherever the operand and the immediate can be read and the location written, and write the result and
its flags, or SR alone. -/
def Obligations.ImmediateArithmeticResults : Prop :=
  ∀ (ss : Scale) (ea : EA) (s s1 u : State) (loc : Loc) (a imm : BitVec (8 * bytes ss)) (old : Word),
    operandImm ea (bytes ss) s = .ok (loc, a, imm, s1) → loc.Writable (bytes ss) s1 old u →
    (∃ t r f, exec (.addi ss ea) s = .next t ∧ Adds a imm false r f ∧
      WritesResult loc (bytes ss) r (some f) old u t) ∧
    (∃ t r f, exec (.subi ss ea) s = .next t ∧ Subtracts s.cfg.subCarry a imm false r f ∧
      WritesResult loc (bytes ss) r (some f) old u t) ∧
    (∃ t f, exec (.xori ss ea) s = .next t ∧ ResultFlags (a ^^^ imm) false false f ∧
      WritesResult loc (bytes ss) (a ^^^ imm) (some f) old u t) ∧
    (∃ t f, exec (.ori ss ea) s = .next t ∧ ResultFlags (a ||| imm) false false f ∧
      WritesResult loc (bytes ss) (a ||| imm) (some f) old u t) ∧
    (∃ t f, exec (.andi ss ea) s = .next t ∧ ResultFlags (a &&& imm) false false f ∧
      WritesResult loc (bytes ss) (a &&& imm) (some f) old u t)

/-- 42_arith_immediate.md R170, 43_single_operand.md R187, 46_quick_arith.md R211, 48_arithmetic.md R231
(decisions D3, D16): CMPI, TST, CMPQ and CMP complete wherever their operands can be read, and change
the flags alone: those of the subtraction of the right-hand side from the left-hand side. -/
def Obligations.ComparesSetFlagsOnly : Prop :=
  (∀ (ss : Scale) (ea : EA) (s s1 : State) (loc : Loc) (a imm : BitVec (8 * bytes ss)),
    operandImm ea (bytes ss) s = .ok (loc, a, imm, s1) →
    ∃ r f, exec (.cmpi ss ea) s = .next (s1.setFlags f) ∧
      Subtracts s.cfg.subCarry a imm false r f) ∧
  (∀ (ss : Scale) (ea : EA) (s s1 : State) (loc : Loc) (b : BitVec (8 * bytes ss)),
    operand ea (bytes ss) s = .ok (loc, b, s1) →
    (∃ r f, exec (.tst ss ea) s = .next (s1.setFlags f) ∧
      Subtracts s.cfg.subCarry b 0 false r f) ∧
    ∀ (y : RegNum) (a : Word) (s2 : State), readReg (regSel ss) y s1 = .ok (a, s2) →
      ∃ r f, exec (.cmp y ss ea) s = .next (s2.setFlags f) ∧
        Subtracts s.cfg.subCarry (a.setWidth (8 * bytes ss)) b false r f) ∧
  ∀ (y : RegNum) (q : BitVec 8) (a : Word) (s s1 : State), readReg .d y s = .ok (a, s1) →
    ∃ r f, exec (.cmpq y q) s = .next (s1.setFlags f) ∧
      Subtracts s.cfg.subCarry a (q.signExtend 32) false r f

/-- 42_arith_immediate.md R176, 43_single_operand.md R184, 48_arithmetic.md R237 (decision D16): STI, CLR
and ST complete wherever the effective address can be evaluated and the location written, which is not
read; they write the immediate, zero, or the register as it stands after the address is evaluated,
and leave the flags, except that a store to SR sets them. -/
def Obligations.StoreResults : Prop :=
  (∀ (ss : Scale) (ea : EA) (s s1 u : State) (loc : Loc) (imm : BitVec (8 * bytes ss)) (old : Word),
    evalEAImm ea (bytes ss) s = .ok (loc, imm, s1) → loc.Writable (bytes ss) s1 old u →
    ∃ t, exec (.sti ss ea) s = .next t ∧ WritesResult loc (bytes ss) imm none old u t) ∧
  ∀ (ss : Scale) (ea : EA) (s s1 : State) (loc : Loc), evalEA ea (bytes ss) s = .ok (loc, s1) →
    (∀ old u, loc.Writable (bytes ss) s1 old u →
      ∃ t, exec (.clr ss ea) s = .next t ∧ WritesResult loc (bytes ss) 0 none old u t) ∧
    ∀ (y : RegNum) (v : Word) (s2 : State) (old : Word) (u : State),
      readReg (regSel ss) y s1 = .ok (v, s2) → loc.Writable (bytes ss) s2 old u →
      ∃ t, exec (.st y ss ea) s = .next t ∧
        WritesResult loc (bytes ss) (v.setWidth (8 * bytes ss)) none old u t

/-- 43_single_operand.md R180 to R183 (decisions D3, D16): NOT, NEG, ADC and SBC complete wherever the
operand, and for ADC and SBC then C, can be read and the location written; ADC adds C, SBC subtracts
the pending borrow, which is C or its inverse by `C_SUB_POLARITY`. -/
def Obligations.SingleOperandResults : Prop :=
  ∀ (ss : Scale) (ea : EA) (s s1 : State) (loc : Loc) (a : BitVec (8 * bytes ss)),
    operand ea (bytes ss) s = .ok (loc, a, s1) →
    (∀ old u, loc.Writable (bytes ss) s1 old u →
      (∃ t f, exec (.not ss ea) s = .next t ∧ ResultFlags (~~~a) false false f ∧
        WritesResult loc (bytes ss) (~~~a) (some f) old u t) ∧
      (∃ t r f, exec (.neg ss ea) s = .next t ∧ Subtracts s.cfg.subCarry 0 a false r f ∧
        WritesResult loc (bytes ss) r (some f) old u t)) ∧
    ∀ c s2 old u, readFlag .c s1 = .ok (c, s2) → loc.Writable (bytes ss) s2 old u →
      (∃ t r f, exec (.adc ss ea) s = .next t ∧ Adds a 0 c r f ∧
        WritesResult loc (bytes ss) r (some f) old u t) ∧
      (∃ t r f, exec (.sbc ss ea) s = .next t ∧
        Subtracts s.cfg.subCarry a 0
          (match s.cfg.subCarry with | .borrow => c | .notBorrow => !c) r f ∧
        WritesResult loc (bytes ss) r (some f) old u t)

/-- 43_single_operand.md R185 (decision D18): REV completes wherever the operand can be read and written,
and writes its bits, or its bytes under `REV_FN = byte_reverse`, in reverse order. -/
def Obligations.ReverseResult : Prop :=
  ∀ (ss : Scale) (ea : EA) (s s1 u : State) (loc : Loc) (a : BitVec (8 * bytes ss)) (old : Word),
    operand ea (bytes ss) s = .ok (loc, a, s1) → loc.Writable (bytes ss) s1 old u →
    ∃ t r f, exec (.rev ss ea) s = .next t ∧
      (s.cfg.revFn = .bitReverse →
        ∀ k, k < 8 * bytes ss → r.getLsbD k = a.getLsbD (8 * bytes ss - 1 - k)) ∧
      (s.cfg.revFn = .byteReverse →
        ∀ j, j < bytes ss → r.extractLsb' (8 * j) 8 = a.extractLsb' (8 * (bytes ss - 1 - j)) 8) ∧
      ResultFlags r false false f ∧ WritesResult loc (bytes ss) r (some f) old u t

/-- 43_single_operand.md R186 (decision D19): EXT completes wherever the operand can be read and the
location written; a register receives the operand sign-extended to all 32 bits whatever
`NARROW_REG_WRITE` is, its old value not read; memory and SR keep the operand, and the flags are those
of the operand, except that SR keeps its own. -/
def Obligations.ExtendResult : Prop :=
  ∀ (ss : Scale) (ea : EA) (s s1 : State) (loc : Loc) (a : BitVec (8 * bytes ss)),
    operand ea (bytes ss) s = .ok (loc, a, s1) → ea ≠ .imm →
    (∀ m, loc = .mem m → Accessible s1 (bytes ss) (bytes ss) m) →
    ∃ t f, exec (.ext ss ea) s = .next t ∧
      (match loc with
        | .dreg i => t.regAt .d i = some (a.signExtend 32)
        | .areg i => t.regAt .a i = some (a.signExtend 32)
        | _ => loc.Holds (bytes ss) a 0 t) ∧
      UnchangedOutside loc (bytes ss) s1 t ∧ ResultFlags a false false f ∧
      (loc ≠ .sr → FlagsAfter (some f) s1 t)

/-- 44_complex_arith.md R190 to R192, R197 (decision D20): MUL, HMULU and HMULS complete wherever both
registers can be read: the low word, and the high word of the unsigned and of the signed 64-bit
product. -/
def Obligations.ProductResults : Prop :=
  ∀ (y x : RegNum) (s s1 u : State) (a b : Word),
    readReg .d y s = .ok (a, s1) → readReg .d x s1 = .ok (b, u) →
    (∃ f, exec (.mul y x) s = .next ((u.setReg .d y (a * b)).setFlags f) ∧
      ResultFlags (a * b) false false f) ∧
    (∃ r f, exec (.hmulu y x) s = .next ((u.setReg .d y r).setFlags f) ∧
      r = (a.setWidth 64 * b.setWidth 64).extractLsb' 32 32 ∧ ResultFlags r false false f) ∧
    (∃ r f, exec (.hmuls y x) s = .next ((u.setReg .d y r).setFlags f) ∧
      r = (a.signExtend 64 * b.signExtend 64).extractLsb' 32 32 ∧ ResultFlags r false false f)

/-- 44_complex_arith.md R193 to R197 (decision D20; log 22): DIVU, DIVS, MODU and MODS complete wherever
both registers can be read and the divisor is not zero: the quotient rounded toward zero, V only for
-2^31 / -1, and the remainder, with the sign of the dividend, or of the divisor under
`MOD_SIGN = divisor`. -/
def Obligations.DivisionResults : Prop :=
  ∀ (y x : RegNum) (s s1 u : State) (a b : Word),
    readReg .d y s = .ok (a, s1) → readReg .d x s1 = .ok (b, u) → b ≠ 0 →
    (∃ f, exec (.divu y x) s = .next ((u.setReg .d y (a / b)).setFlags f) ∧
      ResultFlags (a / b) false false f) ∧
    (∃ f, exec (.divs y x) s = .next ((u.setReg .d y (a.sdiv b)).setFlags f) ∧
      ResultFlags (a.sdiv b) (decide (a = 0x80000000#32 ∧ b = 0xFFFFFFFF#32)) false f) ∧
    (∃ f, exec (.modu y x) s = .next ((u.setReg .d y (a % b)).setFlags f) ∧
      ResultFlags (a % b) false false f) ∧
    (∃ r f, exec (.mods y x) s = .next ((u.setReg .d y r).setFlags f) ∧
      r = (match s.cfg.modSign with | .dividend => a.srem b | .divisor => a.smod b) ∧
      ResultFlags r false false f)

/-- 60_exceptions.md R264, R269 (decision D20): DIVU, DIVS, MODU and MODS fault for a zero divisor, once
both registers are read, and no other instruction ever does. -/
def Obligations.OnlyZeroDivisorsFaultSo : Prop :=
  ∀ (i : Instr) (s : State), exec i s = .fault .divideByZero ↔
    ∃ y x a s1 u, i ∈ [Instr.divu y x, .divs y x, .modu y x, .mods y x] ∧
      readReg .d y s = .ok (a, s1) ∧ readReg .d x s1 = .ok (0, u)

/-- 45_shifts_rotates.md R200 to R204 (decision D21): LSL, LSR, ASR and ROR complete wherever the count
byte and then Dy can be read; the low five bits of the byte shift all of Dy, read after the effective
address is evaluated. -/
def Obligations.RegisterShiftResults : Prop :=
  ∀ (y : RegNum) (ea : EA) (s s1 u : State) (loc : Loc) (b : Byte) (d : Word),
    operand ea 1 s = .ok (loc, b, s1) → readReg .d y s1 = .ok (d, u) →
    let c := b.toNat % 32
    let Shifts (kind : ShiftKind) (i : Instr) : Prop :=
      ∃ f, exec i s = .next ((u.setReg .d y (shifted kind d c)).setFlags f) ∧
        ResultFlags (shifted kind d c) false (lastOut kind d c) f
    Shifts .logicalLeft (.lsl y ea) ∧ Shifts .logicalRight (.lsr y ea) ∧
      Shifts .arithmeticRight (.asr y ea) ∧ Shifts .rotateRight (.ror y ea)

/-- 47_quick_shifts.md R220 to R225 (decision D21): LSLQ, LSRQ, ASRQ, RORQ and RRC complete wherever the
32-bit operand, and for RRC then C, can be read and the location written, and rewrite it in place; RRC
takes C in at the top and puts bit 0 into C. -/
def Obligations.QuickShiftResults : Prop :=
  ∀ (ea : EA) (s s1 : State) (loc : Loc) (d : Word), operand ea 4 s = .ok (loc, d, s1) →
    (∀ old u, loc.Writable 4 s1 old u →
      let Shifts (kind : ShiftKind) (q : BitVec 5) (i : Instr) : Prop :=
        ∃ t f, exec i s = .next t ∧
          WritesResult loc 4 (shifted kind d q.toNat) (some f) old u t ∧
          ResultFlags (shifted kind d q.toNat) false (lastOut kind d q.toNat) f
      ∀ q, Shifts .logicalLeft q (.lslq q ea) ∧ Shifts .logicalRight q (.lsrq q ea) ∧
        Shifts .arithmeticRight q (.asrq q ea) ∧ (q ≠ 0 → Shifts .rotateRight q (.rorq q ea))) ∧
    ∀ c s2 old u, readFlag .c s1 = .ok (c, s2) → loc.Writable 4 s2 old u →
      ∃ t r f, exec (.rrc ea) s = .next t ∧ WritesResult loc 4 r (some f) old u t ∧
        r = BitVec.ofBool c ++ d.extractLsb' 1 31 ∧ ResultFlags r false (d.getLsbD 0) f

/-- 46_quick_arith.md R212, R213 (decisions D3, D16): ADDQ and SUBQ complete wherever the operand can be
read and the location written; the amount is the field plus one, 1 to 8. -/
def Obligations.QuickAddSubtractResults : Prop :=
  ∀ (q : BitVec 3) (ss : Scale) (ea : EA) (s s1 u : State) (loc : Loc) (a : BitVec (8 * bytes ss))
    (old : Word),
    operand ea (bytes ss) s = .ok (loc, a, s1) → loc.Writable (bytes ss) s1 old u →
    let k : BitVec (8 * bytes ss) := q.setWidth (8 * bytes ss) + 1
    (∃ t r f, exec (.addq q ss ea) s = .next t ∧ Adds a k false r f ∧
      WritesResult loc (bytes ss) r (some f) old u t) ∧
    (∃ t r f, exec (.subq q ss ea) s = .next t ∧ Subtracts s.cfg.subCarry a k false r f ∧
      WritesResult loc (bytes ss) r (some f) old u t)

/-- 48_arithmetic.md R230, R232 to R236, R238 (decisions D3, D4, D16): LD, ADD, SUB, XOR, OR and AND
complete wherever the operand and, but for LD, then the register can be read, and its old value where
the write keeps bits of it; the register, A under the address scale and D under the others, is the
left-hand side, read after the effective address is evaluated and written last, so the result wins
over a step of the same register; LD leaves the flags. -/
def Obligations.RegisterArithmeticResults : Prop :=
  ∀ (y : RegNum) (ss : Scale) (ea : EA) (s s1 : State) (loc : Loc) (b : BitVec (8 * bytes ss)),
    operand ea (bytes ss) s = .ok (loc, b, s1) →
    let file : RegFile := if ss = .a then .a else .d
    (∀ old u, readOld file y (bytes ss) s1 = .ok (old, u) →
      ∃ t, exec (.ld y ss ea) s = .next t ∧ WritesReg file y (bytes ss) b none old u t) ∧
    ∀ (w : Word) (s2 : State) (old : Word) (u : State),
      readReg file y s1 = .ok (w, s2) → readOld file y (bytes ss) s2 = .ok (old, u) →
      let a := w.setWidth (8 * bytes ss)
      (∃ t r f, exec (.add y ss ea) s = .next t ∧ Adds a b false r f ∧
        WritesReg file y (bytes ss) r (some f) old u t) ∧
      (∃ t r f, exec (.sub y ss ea) s = .next t ∧ Subtracts s.cfg.subCarry a b false r f ∧
        WritesReg file y (bytes ss) r (some f) old u t) ∧
      (∃ t f, exec (.xor y ss ea) s = .next t ∧ ResultFlags (a ^^^ b) false false f ∧
        WritesReg file y (bytes ss) (a ^^^ b) (some f) old u t) ∧
      (∃ t f, exec (.or y ss ea) s = .next t ∧ ResultFlags (a ||| b) false false f ∧
        WritesReg file y (bytes ss) (a ||| b) (some f) old u t) ∧
      (∃ t f, exec (.and y ss ea) s = .next t ∧ ResultFlags (a &&& b) false false f ∧
        WritesReg file y (bytes ss) (a &&& b) (some f) old u t)

/-! ### Control flow and the stack -/

/-- 49_flow_control.md R250, 40_components.md R141, R143 (decision D9): Bcc completes: with IP alone
changed, by the sign-extended byte offset from the following instruction, where the condition can be
read and holds; with nothing changed where it does not hold; and as a call for code 0111, which pushes
the address of the following instruction first. A condition is that of the flags it names, where they
have been written, whatever the others are. -/
def Obligations.BranchResults : Prop :=
  ∀ (cccc : CondCode) (q : BitVec 8) (s : State),
    (∀ f : Flags, (∀ x ∈ condFlags cccc, s.flagAt x = some (f.get x)) →
      readCond cccc s = .ok (condHolds f cccc, s)) ∧
    (∀ s1, readCond cccc s = .ok (false, s1) → exec (.bcc cccc q) s = .next s1) ∧
    (∀ s1, readCond cccc s = .ok (true, s1) → cccc ≠ 0b0111#4 →
      exec (.bcc cccc q) s = .next (s1.setIp (s.ip + q.signExtend 32))) ∧
    (cccc = 0b0111#4 → ∀ sp s1, readSp s = .ok (sp, s1) → Accessible s1 4 4 (sp - 4) →
      ∃ t, exec (.bcc cccc q) s = .next t ∧ t.ip = s.ip + q.signExtend 32 ∧ Pushed s.ip sp s1 t)

/-- 49_flow_control.md R251 (decisions D9, D24; log 14): Jcc completes where its condition reads false, past
its extension words and with nothing touched; where it holds and the operand can be read, IP is the
operand under the address scale, and the following instruction plus the signed operand under the
others (`JCC_KIND_BY = scale`; under `mode` it is one of the two); code 0111 pushes the address of the
following instruction after the operand is read. -/
def Obligations.JumpResults : Prop :=
  ∀ (cccc : CondCode) (ss : Scale) (ea : EA) (s : State),
    (∀ s1, readCond cccc s = .ok (false, s1) →
      exec (.jcc cccc ss ea) s =
        .next (s1.setIp (s.ip + BitVec.ofNat 32 (extLen s.cfg (bytes ss) ea)))) ∧
    ∀ (s1 s2 : State) (loc : Loc) (v : BitVec (8 * bytes ss)), readCond cccc s = .ok (true, s1) →
      operand ea (bytes ss) s1 = .ok (loc, v, s2) →
      ∃ target : Word,
        (s.cfg.jccKindBy = .scale →
          target = if ss = .a then v.setWidth 32 else s2.ip + v.signExtend 32) ∧
        (target = v.setWidth 32 ∨ target = s2.ip + v.signExtend 32) ∧
        (cccc ≠ 0b0111#4 → exec (.jcc cccc ss ea) s = .next (s2.setIp target)) ∧
        (cccc = 0b0111#4 → ∀ sp s3, readSp s2 = .ok (sp, s3) → Accessible s3 4 4 (sp - 4) →
          ∃ t, exec (.jcc cccc ss ea) s = .next t ∧ t.ip = target ∧ Pushed s2.ip sp s3 t)

/-- 40_components.md R143, 49_flow_control.md R250, R251, 20_memory.md R63 (decisions D9, D12, D22, D24;
log 14): code 1111 is always taken and changes IP alone, for Jcc after its operand is read; code 0111 is
always taken, to the same target, and pushes the address of the instruction that follows the Bcc or Jcc
in memory, IP after the instruction word and all its extension words. -/
def Obligations.SpecialConditionCodes : Prop :=
  ∀ s : State,
    (∀ q, exec (.bcc 0b1111#4 q) s = .next (s.setIp (s.ip + q.signExtend 32)) ∧
      ∀ sp s1, readSp s = .ok (sp, s1) → Accessible s1 4 4 (sp - 4) →
        ∃ t, exec (.bcc 0b0111#4 q) s = .next t ∧ t.ip = s.ip + q.signExtend 32 ∧
          Pushed s.ip sp s1 t) ∧
    ∀ (ss : Scale) (ea : EA) (s1 : State) (loc : Loc) (v : BitVec (8 * bytes ss)),
      operand ea (bytes ss) s = .ok (loc, v, s1) →
      s1.ip = s.ip + BitVec.ofNat 32 (extLen s.cfg (bytes ss) ea) ∧
      ∃ target, (target = v.setWidth 32 ∨ target = s1.ip + v.signExtend 32) ∧
        exec (.jcc 0b1111#4 ss ea) s = .next (s1.setIp target) ∧
        ∀ sp s2, readSp s1 = .ok (sp, s2) → Accessible s2 4 4 (sp - 4) →
          ∃ t, exec (.jcc 0b0111#4 ss ea) s = .next t ∧ t.ip = target ∧ Pushed s1.ip sp s2 t

/-- 41_miscellaneous.md R164 (decision D22): LNK completes wherever its immediate can be fetched, BP and
then SP read, and BP pushed: BP stands at the new top of the stack, BP points at it, and SP is the immediate, widened by
`LNK_IMM_EXTEND`, below it. -/
def Obligations.LinkResult : Prop :=
  ∀ (ss : Scale) (s s1 s2 s3 : State) (v : BitVec (8 * bytes ss)) (bp sp : Word),
    fetchImm (bytes ss) s = .ok (v, s1) → readBp s1 = .ok (bp, s2) → readSp s2 = .ok (sp, s3) →
    Accessible s 4 4 (sp - 4) → s.cfg.spIndex ≠ s.cfg.bpIndex →
    let imm : Word := match s.cfg.frameImm with
      | .zeroExtend => v.setWidth 32
      | .signExtend => v.signExtend 32
    ∃ t, exec (.lnk ss) s = .next t ∧ t.regAt .a s.cfg.bpIndex = some (sp - 4) ∧
      t.regAt .a s.cfg.spIndex = some (sp - 4 - imm) ∧
      memRead 4 (sp - 4) t = .ok (bp, t) ∧ t.ip = s1.ip ∧ FlagsAfter none s t ∧
      (∀ i, t.regAt .d i = s.regAt .d i) ∧
      (∀ i, i ≠ s.cfg.spIndex → i ≠ s.cfg.bpIndex → t.regAt .a i = s.regAt .a i) ∧
      ∀ b, (∀ k, k < 4 → b ≠ byteAddr (sp - 4) k) → t.byteAt b = s.byteAt b

/-- 41_miscellaneous.md R162, R163 (decision D22). UNLNK completes wherever BP and the word at BP can be
read: BP is that word and SP is past it; "the value of SP before UNLNK does not matter". RFS completes
wherever its immediate can be fetched and SP and the word at SP read: IP is that word, and SP is past
it and past as many bytes as the immediate, widened by `LNK_IMM_EXTEND`, says. -/
def Obligations.UnlinkAndReturnResults : Prop :=
  (∀ (s s1 s2 : State) (bp v : Word), readBp s = .ok (bp, s1) → memRead 4 bp s1 = .ok (v, s2) →
    exec .unlnk s = .next ((s2.setSp (bp + 4)).setBp v)) ∧
  ∀ (ss : Scale) (s s1 s2 : State) (v : BitVec (8 * bytes ss)) (sp w : Word),
    fetchImm (bytes ss) s = .ok (v, s1) → s1.regAt .a s.cfg.spIndex = some sp →
    memRead 4 sp s1 = .ok (w, s2) →
    let imm : Word := match s.cfg.frameImm with
      | .zeroExtend => v.setWidth 32
      | .signExtend => v.signExtend 32
    exec (.rfs ss) s = .next ((s2.setIp w).setSp (sp + 4 + imm))

/-- 41_miscellaneous.md R162, "After LNK ... UNLNK with BP unchanged in between, SP and BP are exactly
what they were before the LNK, whatever LNK's immediate was" (decision D22): for every state `u` that
agrees with the one LNK left on BP, on the saved word and on the parameters, whatever became of the
rest, SP among it. -/
def Obligations.LinkThenUnlinkRestores : Prop :=
  ∀ (ss : Scale) (s t u : State) (sp bp : Word), s.cfg.spIndex ≠ s.cfg.bpIndex →
    s.regAt .a s.cfg.spIndex = some sp → s.regAt .a s.cfg.bpIndex = some bp →
    exec (.lnk ss) s = .next t → u.regAt .a s.cfg.bpIndex = t.regAt .a s.cfg.bpIndex →
    u.cfg = t.cfg →
    (∀ k, k < 4 → u.byteAt (byteAddr (sp - 4) k) = t.byteAt (byteAddr (sp - 4) k)) →
    ∃ w, exec .unlnk u = .next w ∧ w.regAt .a s.cfg.spIndex = some sp ∧
      w.regAt .a s.cfg.bpIndex = some bp

/-- 49_flow_control.md R250, R251, R253, 41_miscellaneous.md R163 (decisions D9, D22): a return after a
call, by Bcc or by Jcc with code 0111, goes to the instruction after the call and leaves SP where it
stood before the push, plus the immediate of RFS: for every state that agrees with the one the call left
on SP, on the pushed word and on the parameters, whatever became of the rest. -/
def Obligations.CallThenReturnComesBack : Prop :=
  (∀ (q : BitVec 8) (s s1 t : State) (sp : Word), readSp s = .ok (sp, s1) →
    exec (.bcc 0b0111#4 q) s = .next t → ReturnsTo t s.ip sp) ∧
  ∀ (ss : Scale) (ea : EA) (s s1 s2 t : State) (loc : Loc) (v : BitVec (8 * bytes ss)) (sp : Word),
    operand ea (bytes ss) s = .ok (loc, v, s1) → readSp s1 = .ok (sp, s2) →
    exec (.jcc 0b0111#4 ss ea) s = .next t →
    ReturnsTo t (s.ip + BitVec.ofNat 32 (extLen s.cfg (bytes ss) ea)) sp

/-! ### What no instruction does -/

/-- 10_state.md R31: every register is unchanged by every instruction that completes, except: the
register of a register destination; the register named by `yyy` where it is a destination, in the file
its scale selects; the address register a stepping form steps; SP and BP for LNK and UNLNK, and SP for
RFS and for Bcc and Jcc with code 0111. -/
def Obligations.RegisterFrame : Prop :=
  ∀ (i : Instr) (s t : State), exec i s = .next t →
    (∀ j, j ∉ i.dataWritten → t.regAt .d j = s.regAt .d j) ∧
    ∀ j, j ∉ i.addressWritten s.cfg → t.regAt .a j = s.regAt .a j

/-- 40_components.md R150 (decisions D16, D30): an instruction of an "unchanged" row whose destination is
not SR leaves all four flags. -/
def Obligations.FlagFrame : Prop :=
  ∀ (i : Instr) (s t : State), exec i s = .next t → i.writesFlags = false → FlagsAfter none s t

/-- 20_memory.md R56: every byte of memory outside what the instruction stores is unchanged: outside the
bytes of the location its effective address gives where it writes that, and outside the word it
pushes; every byte, where it stores nothing. -/
def Obligations.MemoryFrame : Prop :=
  ∀ (i : Instr) (s t : State), exec i s = .next t →
    ∀ b, ¬ StoresTo i s b → t.byteAt b = s.byteAt b

/-- 10_state.md R23, 30_encoding.md R88: an instruction that is no Bcc, Jcc or RFS leaves IP past its own
extension words. -/
def Obligations.InstructionPointerFrame : Prop :=
  ∀ (i : Instr) (s t : State), exec i s = .next t → i.transfersControl = false →
    t.ip = s.ip + BitVec.ofNat 32 (i.extBytes s.cfg)

/-- 41_miscellaneous.md R161, 60_exceptions.md R267 (decision D23; log 15), 30_encoding.md R83: RFI is
refused by name in every state, no other of the fifty instructions is ever refused, and a well-formed
instruction never ends as an illegal instruction or as a halt. -/
def Obligations.OnlyRfiHasNoMeaning : Prop :=
  ∀ (i : Instr) (s : State),
    exec .rfi s = .refused (.refused "RFI") ∧ ((∃ r, exec i s = .refused r) ↔ i = .rfi) ∧
    (i.wf = true → (∀ w, exec i s ≠ .fault (.illegalInstruction w)) ∧ exec i s ≠ .fault .halted)
end

