-- ==== Sys2Proof/Laws/State.lean ====
section
/-! SUPPORT. What each update of the state does to each field and to each way of reading the state:
one small lemma each, so that no proof unfolds a record update. -/

namespace Sys2Proof.Machine

/-! ### Running operations in order -/

/-- An operation followed by another answers exactly when both do. -/
theorem run_bind_ok {α β : Type} {x : Run α} {f : α → Run β} {b : β} :
    (x >>= f) = .ok b ↔ ∃ a, x = .ok a ∧ f a = .ok b := by
  cases x <;> simp [bind, Except.bind]

@[simp] theorem run_ok_bind {α β : Type} (a : α) (f : α → Run β) :
    ((.ok a : Run α) >>= f) = f a := rfl

@[simp] theorem run_error_bind {α β : Type} (e : Fault) (f : α → Run β) :
    ((.error e : Run α) >>= f) = .error e := rfl

@[simp] theorem run_pure {α : Type} (a : α) : (pure a : Run α) = .ok a := rfl

@[simp] theorem raise_eq {α : Type} (f : Fault) : (raise f : Run α) = .error f := rfl

@[simp] theorem raiseIllegal_eq {α : Type} (c : Config) (w : Half) :
    (raiseIllegal c w : Run α) = .error (.illegalInstruction w) := rfl

@[simp] theorem raiseDivideByZero_eq {α : Type} (c : Config) :
    (raiseDivideByZero c : Run α) = .error .divideByZero := rfl

@[simp] theorem finish_ok (s : State) : finish (.ok s) = .next s := rfl

@[simp] theorem finish_error (f : Fault) : finish (.error f) = .fault f := rfl

theorem finish_eq_next {r : Run State} {t : State} : finish r = .next t ↔ r = .ok t := by
  cases r <;> simp [finish]

theorem finish_eq_fault {r : Run State} {f : Fault} : finish r = .fault f ↔ r = .error f := by
  cases r <;> simp [finish]

theorem finish_ne_refused (r : Run State) (x : Refusal) : finish r ≠ .refused x := by
  cases r <;> simp [finish]

/-! ### Registers -/

theorem getReg_setReg (s : State) (f g : RegFile) (i j : RegNum) (v : Word) :
    (s.setReg f i v).getReg g j = if (g, j) = (f, i) then v else s.getReg g j := by
  cases f <;> cases g <;>
    simp [State.setReg, State.getReg, Vector.getElem_set, Fin.ext_iff, eq_comm]

@[simp] theorem getReg_setReg_self (s : State) (f : RegFile) (i : RegNum) (v : Word) :
    (s.setReg f i v).getReg f i = v := by simp [getReg_setReg]

theorem getReg_setReg_ne (s : State) {f g : RegFile} {i j : RegNum} (v : Word)
    (h : (g, j) ≠ (f, i)) : (s.setReg f i v).getReg g j = s.getReg g j := by
  simp [getReg_setReg, h]

theorem regWritten_setReg (s : State) (f g : RegFile) (i j : RegNum) (v : Word) :
    (s.setReg f i v).regWritten g j = (decide ((g, j) = (f, i)) || s.regWritten g j) := by
  cases f <;> cases g <;>
    simp [State.setReg, State.regWritten, Vector.getElem_set, Fin.ext_iff, eq_comm,
      Bool.if_true_left]

theorem regAt_setReg (s : State) (f g : RegFile) (i j : RegNum) (v : Word) :
    (s.setReg f i v).regAt g j = if (g, j) = (f, i) then some v else s.regAt g j := by
  by_cases h : (g, j) = (f, i) <;> simp [State.regAt, regWritten_setReg, getReg_setReg, h]

@[simp] theorem regAt_setReg_self (s : State) (f : RegFile) (i : RegNum) (v : Word) :
    (s.setReg f i v).regAt f i = some v := by simp [regAt_setReg]

theorem regAt_setReg_ne (s : State) {f g : RegFile} {i j : RegNum} (v : Word)
    (h : (g, j) ≠ (f, i)) : (s.setReg f i v).regAt g j = s.regAt g j := by
  simp [regAt_setReg, h]

/-- A register that has been written holds its 32 bits. -/
theorem getReg_of_regAt {s : State} {f : RegFile} {i : RegNum} {v : Word}
    (h : s.regAt f i = some v) : s.getReg f i = v := by
  unfold State.regAt at h
  split at h <;> simp_all

/-- A flag that has been written holds its bit. -/
theorem flags_of_flagAt {s : State} {x : FlagName} {b : Bool} (h : s.flagAt x = some b) :
    s.flags.get x = b := by
  unfold State.flagAt at h
  split at h <;> simp_all

@[simp] theorem setReg_setReg_self (s : State) (f : RegFile) (i : RegNum) (v w : Word) :
    (s.setReg f i v).setReg f i w = s.setReg f i w := by
  cases f <;> simp [State.setReg]

@[simp] theorem setReg_flagsWritten (s : State) (f i v) :
    (s.setReg f i v).flagsWritten = s.flagsWritten := by cases f <;> rfl
@[simp] theorem setReg_flagAt (s : State) (f i v x) :
    (s.setReg f i v).flagAt x = s.flagAt x := by cases f <;> rfl
@[simp] theorem setReg_ip (s : State) (f i v) : (s.setReg f i v).ip = s.ip := by cases f <;> rfl
@[simp] theorem setReg_flags (s : State) (f i v) : (s.setReg f i v).flags = s.flags := by
  cases f <;> rfl
@[simp] theorem setReg_mem (s : State) (f i v) : (s.setReg f i v).mem = s.mem := by cases f <;> rfl
@[simp] theorem setReg_cfg (s : State) (f i v) : (s.setReg f i v).cfg = s.cfg := by cases f <;> rfl
@[simp] theorem setReg_freeReads (s : State) (f i v) :
    (s.setReg f i v).freeReads = s.freeReads := by cases f <;> rfl
@[simp] theorem setReg_a_d (s : State) (i v) : (s.setReg .a i v).d = s.d := rfl
@[simp] theorem setReg_d_a (s : State) (i v) : (s.setReg .d i v).a = s.a := rfl

@[simp] theorem setIp_ip (s : State) (v) : (s.setIp v).ip = v := rfl
@[simp] theorem setIp_flags (s : State) (v) : (s.setIp v).flags = s.flags := rfl
@[simp] theorem setIp_mem (s : State) (v) : (s.setIp v).mem = s.mem := rfl
@[simp] theorem setIp_cfg (s : State) (v) : (s.setIp v).cfg = s.cfg := rfl
@[simp] theorem setIp_freeReads (s : State) (v) : (s.setIp v).freeReads = s.freeReads := rfl
@[simp] theorem setIp_d (s : State) (v) : (s.setIp v).d = s.d := rfl
@[simp] theorem setIp_a (s : State) (v) : (s.setIp v).a = s.a := rfl
@[simp] theorem setIp_getReg (s : State) (v f i) : (s.setIp v).getReg f i = s.getReg f i := by
  cases f <;> rfl
@[simp] theorem setIp_regAt (s : State) (v f i) : (s.setIp v).regAt f i = s.regAt f i := by
  cases f <;> rfl
@[simp] theorem setIp_flagAt (s : State) (v x) : (s.setIp v).flagAt x = s.flagAt x := rfl
@[simp] theorem setIp_flagsWritten (s : State) (v) : (s.setIp v).flagsWritten = s.flagsWritten := rfl
@[simp] theorem setIp_setIp (s : State) (v w) : (s.setIp v).setIp w = s.setIp w := rfl
@[simp] theorem setIp_self (s : State) : s.setIp s.ip = s := rfl

@[simp] theorem setFlags_ip (s : State) (v) : (s.setFlags v).ip = s.ip := rfl
@[simp] theorem setFlags_flags (s : State) (v) : (s.setFlags v).flags = v := rfl
@[simp] theorem setFlags_mem (s : State) (v) : (s.setFlags v).mem = s.mem := rfl
@[simp] theorem setFlags_cfg (s : State) (v) : (s.setFlags v).cfg = s.cfg := rfl
@[simp] theorem setFlags_freeReads (s : State) (v) : (s.setFlags v).freeReads = s.freeReads := rfl
@[simp] theorem setFlags_d (s : State) (v) : (s.setFlags v).d = s.d := rfl
@[simp] theorem setFlags_a (s : State) (v) : (s.setFlags v).a = s.a := rfl
@[simp] theorem setFlags_getReg (s : State) (v f i) :
    (s.setFlags v).getReg f i = s.getReg f i := by cases f <;> rfl

@[simp] theorem setFlags_regAt (s : State) (v f i) :
    (s.setFlags v).regAt f i = s.regAt f i := by cases f <;> rfl
@[simp] theorem setFlags_flagAt (s : State) (v : Flags) (x : FlagName) :
    (s.setFlags v).flagAt x = some (v.get x) := by cases x <;> rfl
@[simp] theorem setFlags_flagsWritten (s : State) (v) :
    (s.setFlags v).flagsWritten = ⟨true, true, true, true⟩ := rfl

@[simp] theorem setMem_ip (s : State) (v) : (s.setMem v).ip = s.ip := rfl
@[simp] theorem setMem_flags (s : State) (v) : (s.setMem v).flags = s.flags := rfl
@[simp] theorem setMem_mem (s : State) (v) : (s.setMem v).mem = v := rfl
@[simp] theorem setMem_cfg (s : State) (v) : (s.setMem v).cfg = s.cfg := rfl
@[simp] theorem setMem_freeReads (s : State) (v) : (s.setMem v).freeReads = s.freeReads := rfl
@[simp] theorem setMem_d (s : State) (v) : (s.setMem v).d = s.d := rfl
@[simp] theorem setMem_a (s : State) (v) : (s.setMem v).a = s.a := rfl
@[simp] theorem setMem_getReg (s : State) (v f i) : (s.setMem v).getReg f i = s.getReg f i := by
  cases f <;> rfl

@[simp] theorem setMem_regAt (s : State) (v f i) : (s.setMem v).regAt f i = s.regAt f i := by
  cases f <;> rfl
@[simp] theorem setMem_flagAt (s : State) (v x) : (s.setMem v).flagAt x = s.flagAt x := rfl
@[simp] theorem setMem_flagsWritten (s : State) (v) :
    (s.setMem v).flagsWritten = s.flagsWritten := rfl

/-! ### The bytes of memory -/

@[simp] theorem setReg_byteAt (s : State) (f i v a) :
    (s.setReg f i v).byteAt a = s.byteAt a := by cases f <;> rfl
@[simp] theorem setIp_byteAt (s : State) (v a) : (s.setIp v).byteAt a = s.byteAt a := rfl
@[simp] theorem setFlags_byteAt (s : State) (v a) : (s.setFlags v).byteAt a = s.byteAt a := rfl
theorem setMem_byteAt (s : State) (m a) : (s.setMem m).byteAt a = Memory.read m a.toNat := rfl

/-! ### Free reads drawn -/

@[simp] theorem withReads_ip (s : State) (n) : (s.withReads n).ip = s.ip := rfl
@[simp] theorem withReads_flags (s : State) (n) : (s.withReads n).flags = s.flags := rfl
@[simp] theorem withReads_mem (s : State) (n) : (s.withReads n).mem = s.mem := rfl
@[simp] theorem withReads_cfg (s : State) (n) : (s.withReads n).cfg = s.cfg := rfl
@[simp] theorem withReads_d (s : State) (n) : (s.withReads n).d = s.d := rfl
@[simp] theorem withReads_a (s : State) (n) : (s.withReads n).a = s.a := rfl
@[simp] theorem withReads_freeReads (s : State) (n) : (s.withReads n).freeReads = n := rfl
@[simp] theorem withReads_getReg (s : State) (n f i) :
    (s.withReads n).getReg f i = s.getReg f i := by cases f <;> rfl
@[simp] theorem withReads_regAt (s : State) (n f i) :
    (s.withReads n).regAt f i = s.regAt f i := by cases f <;> rfl
@[simp] theorem withReads_flagAt (s : State) (n x) : (s.withReads n).flagAt x = s.flagAt x := rfl
@[simp] theorem withReads_flagsWritten (s : State) (n) :
    (s.withReads n).flagsWritten = s.flagsWritten := rfl
@[simp] theorem withReads_byteAt (s : State) (n a) : (s.withReads n).byteAt a = s.byteAt a := rfl
@[simp] theorem withReads_withReads (s : State) (n m) :
    (s.withReads n).withReads m = s.withReads m := rfl
@[simp] theorem withReads_self (s : State) : s.withReads s.freeReads = s := rfl
@[simp] theorem withReads_sp (s : State) (n) : (s.withReads n).sp = s.sp := rfl
@[simp] theorem withReads_bp (s : State) (n) : (s.withReads n).bp = s.bp := rfl

/-! ### SP and BP -/

theorem sp_eq (s : State) : s.sp = s.getReg .a s.cfg.spIndex := rfl
theorem bp_eq (s : State) : s.bp = s.getReg .a s.cfg.bpIndex := rfl
theorem setSp_eq (s : State) (v : Word) : s.setSp v = s.setReg .a s.cfg.spIndex v := rfl
theorem setBp_eq (s : State) (v : Word) : s.setBp v = s.setReg .a s.cfg.bpIndex v := rfl

@[simp] theorem setSp_sp (s : State) (v : Word) : (s.setSp v).sp = v := by
  simp [State.sp, State.setSp]
@[simp] theorem setBp_bp (s : State) (v : Word) : (s.setBp v).bp = v := by
  simp [State.bp, State.setBp]
@[simp] theorem setSp_regAt (s : State) (v : Word) :
    (s.setSp v).regAt .a s.cfg.spIndex = some v := by simp [State.setSp]
@[simp] theorem setBp_regAt (s : State) (v : Word) :
    (s.setBp v).regAt .a s.cfg.bpIndex = some v := by simp [State.setBp]
@[simp] theorem setSp_flagAt (s : State) (v : Word) (x) : (s.setSp v).flagAt x = s.flagAt x := by
  simp [State.setSp]
@[simp] theorem setBp_flagAt (s : State) (v : Word) (x) : (s.setBp v).flagAt x = s.flagAt x := by
  simp [State.setBp]
@[simp] theorem setSp_setSp (s : State) (v w : Word) : (s.setSp v).setSp w = s.setSp w := by
  simp [State.setSp]
@[simp] theorem setIp_sp (s : State) (v : Word) : (s.setIp v).sp = s.sp := by simp [State.sp]
@[simp] theorem setIp_bp (s : State) (v : Word) : (s.setIp v).bp = s.bp := by simp [State.bp]
@[simp] theorem setMem_sp (s : State) (v) : (s.setMem v).sp = s.sp := by simp [State.sp]
@[simp] theorem setMem_bp (s : State) (v) : (s.setMem v).bp = s.bp := by simp [State.bp]
@[simp] theorem setSp_ip (s : State) (v) : (s.setSp v).ip = s.ip := by simp [State.setSp]
@[simp] theorem setBp_ip (s : State) (v) : (s.setBp v).ip = s.ip := by simp [State.setBp]
@[simp] theorem setSp_flags (s : State) (v) : (s.setSp v).flags = s.flags := by simp [State.setSp]
@[simp] theorem setBp_flags (s : State) (v) : (s.setBp v).flags = s.flags := by simp [State.setBp]
@[simp] theorem setSp_mem (s : State) (v) : (s.setSp v).mem = s.mem := by simp [State.setSp]
@[simp] theorem setBp_mem (s : State) (v) : (s.setBp v).mem = s.mem := by simp [State.setBp]
@[simp] theorem setSp_cfg (s : State) (v) : (s.setSp v).cfg = s.cfg := by simp [State.setSp]
@[simp] theorem setBp_cfg (s : State) (v) : (s.setBp v).cfg = s.cfg := by simp [State.setBp]
@[simp] theorem setSp_d (s : State) (v) : (s.setSp v).d = s.d := by simp [State.setSp]
@[simp] theorem setBp_d (s : State) (v) : (s.setBp v).d = s.d := by simp [State.setBp]
@[simp] theorem setSp_freeReads (s : State) (v) : (s.setSp v).freeReads = s.freeReads := by
  simp [State.setSp]
@[simp] theorem setBp_freeReads (s : State) (v) : (s.setBp v).freeReads = s.freeReads := by
  simp [State.setBp]
@[simp] theorem setSp_byteAt (s : State) (v a) : (s.setSp v).byteAt a = s.byteAt a := by
  simp [State.setSp]
@[simp] theorem setBp_byteAt (s : State) (v a) : (s.setBp v).byteAt a = s.byteAt a := by
  simp [State.setBp]

/-- SP and BP are two registers, so setting one leaves the other (D2). -/
theorem setSp_bp (s : State) (v : Word) (h : s.cfg.spIndex ≠ s.cfg.bpIndex) :
    (s.setSp v).bp = s.bp := by
  simp [State.bp, State.setSp, getReg_setReg, Ne.symm h]

theorem setBp_sp (s : State) (v : Word) (h : s.cfg.spIndex ≠ s.cfg.bpIndex) :
    (s.setBp v).sp = s.sp := by
  simp [State.sp, State.setBp, getReg_setReg, h]

/-! ### Launch -/

@[simp] theorem getElem_ofEach {α β : Type} (f : α → β) (v : Vector α 8) (i : Nat)
    (h : i < 8) : (ofEach f v)[i] = f v[i] := by interval_cases i <;> rfl

/-- A register supplied or not, as the launch state holds it (10_state.md R29, R30). -/
theorem some_getD_if_isSome {α : Type} (o : Option α) (x : α) :
    (if o.isSome then some (o.getD x) else none) = o := by cases o <;> rfl

/-! ### Narrow register writes -/

/-- A word result replaces the register (10_state.md R27). -/
@[simp] theorem narrowed_word (p : NarrowWrite) (old : Word) (v : BitVec (8 * 4)) :
    narrowed p 4 old v = v.setWidth 32 := by simp [narrowed]

/-! ### Two states that agree in every field are one -/

theorem state_ext {s t : State} (hd : ∀ f i, s.getReg f i = t.getReg f i)
    (hw : ∀ f i, s.regWritten f i = t.regWritten f i) (hip : s.ip = t.ip) (hf : s.flags = t.flags)
    (hfw : s.flagsWritten = t.flagsWritten) (hm : s.mem = t.mem) (hr : s.freeReads = t.freeReads)
    (hc : s.cfg = t.cfg) : s = t := by
  obtain ⟨d, a, ip, fl, dw, aw, fw, m, fr, c⟩ := s
  obtain ⟨d', a', ip', fl', dw', aw', fw', m', fr', c'⟩ := t
  have h1 : d = d' := Vector.ext fun i hi => hd .d ⟨i, hi⟩
  have h2 : a = a' := Vector.ext fun i hi => hd .a ⟨i, hi⟩
  have h3 : dw = dw' := Vector.ext fun i hi => hw .d ⟨i, hi⟩
  have h4 : aw = aw' := Vector.ext fun i hi => hw .a ⟨i, hi⟩
  simp_all

end Sys2Proof.Machine
end

