-- ==== Sys2Proof/Laws/Memory.lean ====
section
/-! SUPPORT. The memory as a canonical list: reading after writing, the canonical form kept by every
memory operation, and bytes put together and taken apart. -/

namespace Sys2Proof.Machine

/-! ### One byte -/

theorem read_write (m : Memory) (a : Nat) (b : Byte) (x : Nat) :
    Memory.read (Memory.write m a b) x = if x = a then some b else Memory.read m x := by
  induction m with
  | nil => simp [Memory.write, Memory.read]
  | cons p m ih =>
    obtain ⟨k, y⟩ := p
    by_cases h1 : a < k
    · simp [Memory.write, h1, Memory.read]
    · by_cases h2 : a = k
      · subst h2
        by_cases h3 : x = a <;> simp [Memory.write, Memory.read, h3]
      · simp only [Memory.write, if_neg h1, if_neg h2, Memory.read, ih]
        by_cases h3 : x = k
        · subst h3
          simp [Ne.symm h2]
        · simp [h3]

theorem mem_write {m : Memory} {a : Nat} {b : Byte} {p : Host.Cell}
    (h : p ∈ Memory.write m a b) : p = (a, b) ∨ p ∈ m := by
  induction m with
  | nil => simpa [Memory.write] using h
  | cons q m ih =>
    obtain ⟨k, y⟩ := q
    by_cases h1 : a < k
    · simpa [Memory.write, h1] using h
    · by_cases h2 : a = k
      · simp only [Memory.write, if_neg h1, if_pos h2, List.mem_cons] at h
        rcases h with h | h
        · exact .inl h
        · exact .inr (List.mem_cons_of_mem _ h)
      · simp only [Memory.write, if_neg h1, if_neg h2, List.mem_cons] at h
        rcases h with h | h
        · exact .inr (h ▸ List.mem_cons_self)
        · exact (ih h).imp_right (List.mem_cons_of_mem _)

theorem wf_iff (m : Memory) :
    Memory.wf m = true ↔ m.Pairwise (fun p q => p.1 < q.1) ∧ ∀ p ∈ m, p.1 < 2 ^ 32 := by
  simp [Memory.wf]

/-- Writing a byte inside the address space keeps the canonical form. -/
theorem write_wf {m : Memory} {a : Nat} (b : Byte) (h : Memory.wf m = true) (ha : a < 2 ^ 32) :
    Memory.wf (Memory.write m a b) = true := by
  rw [wf_iff] at h ⊢
  refine ⟨?_, fun p hp => ?_⟩
  · have hs := h.1
    clear h
    induction m with
    | nil => simp [Memory.write]
    | cons q m ih =>
      obtain ⟨k, y⟩ := q
      rw [List.pairwise_cons] at hs
      by_cases h1 : a < k
      · simp only [Memory.write, if_pos h1, List.pairwise_cons, List.mem_cons]
        refine ⟨?_, hs⟩
        rintro p (rfl | hp)
        · exact h1
        · exact h1.trans (hs.1 p hp)
      · by_cases h2 : a = k
        · subst h2
          simpa [Memory.write] using hs
        · simp only [Memory.write, if_neg h1, if_neg h2, List.pairwise_cons]
          refine ⟨fun p hp => ?_, ih hs.2⟩
          rcases mem_write hp with rfl | hp
          · show k < a
            omega
          · exact hs.1 p hp
  · rcases mem_write hp with rfl | hp
    · exact ha
    · exact h.2 p hp

/-! ### Several bytes -/

/-- Writing several bytes keeps the canonical form. -/
theorem writeBytes_wf {m : Memory} (a : Word) (bs : List Byte) (h : Memory.wf m = true) :
    Memory.wf (writeBytes m a bs) = true := by
  induction bs generalizing m a with
  | nil => exact h
  | cons b bs ih => exact ih _ (write_wf b h a.isLt)

/-- A byte that is not among those written reads as before. -/
theorem read_writeBytes_of_ne (m : Memory) (a x : Word) (bs : List Byte)
    (h : ∀ k, k < bs.length → x ≠ byteAddr a k) :
    Memory.read (writeBytes m a bs) x.toNat = Memory.read m x.toNat := by
  induction bs generalizing m a with
  | nil => rfl
  | cons b bs ih =>
    rw [writeBytes, ih]
    · rw [read_write, if_neg]
      have := h 0 (by simp)
      intro e
      apply this
      simpa using BitVec.eq_of_toNat_eq e
    · intro k hk e
      apply h (k + 1) (by simpa using hk)
      rw [e]
      simp only [byteAddr]
      bv_omega

/-- The `k`-th byte written reads back, as long as the bytes do not wrap onto one another. -/
theorem read_writeBytes (m : Memory) (a : Word) (bs : List Byte) (k : Nat)
    (hk : k < bs.length) (hl : bs.length ≤ 2 ^ 32) :
    Memory.read (writeBytes m a bs) (byteAddr a k).toNat = some bs[k] := by
  induction bs generalizing m a k with
  | nil => simp at hk
  | cons b bs ih =>
    cases k with
    | zero =>
      rw [writeBytes, read_writeBytes_of_ne]
      · simp [read_write, byteAddr]
      · intro j hj e
        simp only [List.length_cons] at hl
        have hj' : j + 1 < 2 ^ 32 := by omega
        simp only [byteAddr] at e
        have e2 := congrArg BitVec.toNat e
        simp only [BitVec.toNat_add, BitVec.toNat_ofNat,
          show (1 : Word).toNat = 1 from rfl] at e2
        have := a.isLt
        omega
    | succ k =>
      have h : byteAddr a (k + 1) = byteAddr (a + 1) k := by
        simp only [byteAddr]
        bv_omega
      rw [h, writeBytes]
      simpa using ih (Memory.write m a.toNat b) (a + 1) k (by simpa using hk)
        (by simp only [List.length_cons] at hl; omega)

/-! ### Bytes and values -/

@[simp] theorem length_bytesLEOfNat (nb v : Nat) : (bytesLEOfNat nb v).length = nb := by
  induction nb generalizing v with
  | zero => rfl
  | succ n ih => simp [bytesLEOfNat, ih]

theorem natOfBytesLE_bytesLEOfNat (nb v : Nat) :
    natOfBytesLE (bytesLEOfNat nb v) = v % 256 ^ nb := by
  induction nb generalizing v with
  | zero => simp [bytesLEOfNat, natOfBytesLE, Nat.mod_one]
  | succ n ih =>
    simp only [bytesLEOfNat, natOfBytesLE, ih, BitVec.toNat_ofNat]
    rw [show (2 : Nat) ^ 8 = 256 from rfl, Nat.pow_succ', Nat.mod_mul]

theorem getElem_bytesLEOfNat (nb v k : Nat) (h : k < (bytesLEOfNat nb v).length) :
    (bytesLEOfNat nb v)[k] = BitVec.ofNat 8 (v / 256 ^ k) := by
  induction nb generalizing v k with
  | zero => simp at h
  | succ n ih =>
    cases k with
    | zero => simp [bytesLEOfNat]
    | succ k =>
      simp only [bytesLEOfNat, List.getElem_cons_succ]
      rw [ih, Nat.div_div_eq_div_mul, Nat.pow_succ']

@[simp] theorem length_disassemble (o : ByteOrder) (nb : Nat) (v : BitVec (8 * nb)) :
    (disassemble o nb v).length = nb := by cases o <;> simp [disassemble]

/-- Taking a value apart and putting it together gives it back (20_memory.md R54). -/
@[simp] theorem assemble_disassemble (o : ByteOrder) (nb : Nat) (v : BitVec (8 * nb)) :
    assemble o nb (disassemble o nb v) = v := by
  have h : BitVec.ofNat (8 * nb) (v.toNat % 256 ^ nb) = v := by
    apply BitVec.eq_of_toNat_eq
    rw [BitVec.toNat_ofNat, show (256 : Nat) ^ nb = 2 ^ (8 * nb) by rw [Nat.pow_mul]]
    simp [Nat.mod_eq_of_lt v.isLt]
  cases o <;> simp [assemble, disassemble, natOfBytesLE_bytesLEOfNat, h]

/-- Byte `k` from the lowest address: counted from the top for big-endian order, from the bottom for
little-endian order (20_memory.md R53). -/
theorem getElem_disassemble (o : ByteOrder) (nb : Nat) (v : BitVec (8 * nb)) (k : Nat)
    (h : k < (disassemble o nb v).length) :
    (disassemble o nb v)[k] =
      match o with
      | .big => v.extractLsb' (8 * (nb - 1 - k)) 8
      | .little => v.extractLsb' (8 * k) 8 := by
  have e : ∀ j, BitVec.ofNat 8 (v.toNat / 256 ^ j) = v.extractLsb' (8 * j) 8 := by
    intro j
    apply BitVec.eq_of_toNat_eq
    simp [BitVec.extractLsb'_toNat, Nat.shiftRight_eq_div_pow, Nat.pow_mul]
  cases o with
  | big => simp [disassemble, getElem_bytesLEOfNat, e]
  | little => simp [disassemble, getElem_bytesLEOfNat, e]

end Sys2Proof.Machine
end

