-- ==== Sys2Proof/Laws/Reads.lean ====
section
/-! SUPPORT. What reading a register, a flag, the status register or a condition can do: when it answers,
what it answers, and that it leaves all but the free values drawn (10_state.md R30,
60_exceptions.md R265); and a narrow register write. -/

namespace Sys2Proof.Machine

/-- The free values drawn up to number `n`: none under `UNWRITTEN_READ = fault` (10_state.md R30). -/
def Draws (s : State) (n : Nat) : Prop := s.cfg.unwrittenRead = .fault → n = s.freeReads

theorem Draws.none (s : State) : Draws s s.freeReads := fun _ => rfl

theorem Draws.trans {s : State} {n m : Nat} (h : Draws s n) (k : Draws (s.withReads n) m) :
    Draws s m := fun hc => (k hc).trans (h hc)

/-- A read of what nothing has written answers under `any_value` only, and draws one free value. -/
theorem readUnwritten_ok_iff {α : Type} {what : Unwritten} {free : Nat → α} {s t : State} {v : α} :
    readUnwritten what free s = .ok (v, t) ↔
      s.cfg.unwrittenRead = .anyValue ∧ v = free s.freeReads ∧
        t = s.withReads (s.freeReads + 1) := by
  unfold readUnwritten
  cases hc : s.cfg.unwrittenRead
  · simp
  · simp only [Except.ok.injEq, Prod.mk.injEq, true_and]
    exact ⟨fun ⟨h1, h2⟩ => ⟨h1.symm, h2.symm⟩, fun ⟨h1, h2⟩ => ⟨h1.symm, h2.symm⟩⟩

theorem readUnwritten_fault {α : Type} {what : Unwritten} {free : Nat → α} {s : State}
    (hc : s.cfg.unwrittenRead = .fault) :
    readUnwritten what free s = .error (.unwrittenRead what) := by
  simp [readUnwritten, hc]

theorem readUnwritten_ok {α : Type} {what : Unwritten} {free : Nat → α} {s t : State} {v : α}
    (h : readUnwritten what free s = .ok (v, t)) : ∃ n, Draws s n ∧ t = s.withReads n := by
  obtain ⟨hc, -, rfl⟩ := readUnwritten_ok_iff.1 h
  exact ⟨_, fun hf => absurd (hc.symm.trans hf) (by simp), rfl⟩

/-! ### Registers -/

/-- A register that has been written reads as what it holds, and nothing changes. -/
theorem readReg_of_some {f : RegFile} {i : RegNum} {s : State} {v : Word}
    (h : s.regAt f i = some v) : readReg f i s = .ok (v, s) := by
  simp [readReg, h]

theorem readReg_of_none {f : RegFile} {i : RegNum} {s : State} (h : s.regAt f i = none) :
    readReg f i s = readUnwritten (.register f i) Config.freeWord s := by
  simp [readReg, h]

/-- Reading a register draws free values and changes nothing else. -/
theorem readReg_ok {f : RegFile} {i : RegNum} {s t : State} {v : Word}
    (h : readReg f i s = .ok (v, t)) : ∃ n, Draws s n ∧ t = s.withReads n := by
  unfold readReg at h
  split at h
  · cases h
    exact ⟨s.freeReads, .none s, rfl⟩
  · exact readUnwritten_ok h

/-- What reading a register answers, where it has been written. -/
theorem readReg_some {f : RegFile} {i : RegNum} {s t : State} {v w : Word}
    (h : readReg f i s = .ok (v, t)) (hw : s.regAt f i = some w) : v = w ∧ t = s := by
  rw [readReg_of_some hw] at h
  cases h
  exact ⟨rfl, rfl⟩

/-- Under `UNWRITTEN_READ = fault` a register can be read exactly when it has been written. -/
theorem readReg_ok_iff {f : RegFile} {i : RegNum} {s : State}
    (hc : s.cfg.unwrittenRead = .fault) :
    (∃ r, readReg f i s = .ok r) ↔ s.regAt f i ≠ none := by
  cases h : s.regAt f i with
  | some v => simp [readReg_of_some h]
  | none => simp [readReg_of_none h, readUnwritten_fault hc]

/-- A register that reads once reads again. -/
theorem readReg_again {f : RegFile} {i : RegNum} {s t : State} {v : Word}
    (h : readReg f i s = .ok (v, t)) : ∃ w u, readReg f i t = .ok (w, u) := by
  cases hw : s.regAt f i with
  | some w =>
    obtain ⟨-, rfl⟩ := readReg_some h hw
    exact ⟨_, _, h⟩
  | none =>
    rw [readReg_of_none hw] at h
    obtain ⟨hc, -, rfl⟩ := readUnwritten_ok_iff.1 h
    exact ⟨_, _, (readReg_of_none (by simpa using hw)).trans (readUnwritten_ok_iff.2 ⟨hc, rfl, rfl⟩)⟩

@[simp] theorem readReg_setReg_self (s : State) (f : RegFile) (i : RegNum) (v : Word) :
    readReg f i (s.setReg f i v) = .ok (v, s.setReg f i v) := readReg_of_some (by simp)

@[simp] theorem readSp_setSp (s : State) (v : Word) :
    readSp (s.setSp v) = .ok (v, s.setSp v) := readReg_of_some (by simp)

theorem readRegN_ok {f : RegFile} {i : RegNum} {nb : Nat} {s t : State} {v : BitVec (8 * nb)}
    (h : readRegN f i nb s = .ok (v, t)) :
    ∃ w, readReg f i s = .ok (w, t) ∧ v = w.setWidth (8 * nb) := by
  simp only [readRegN, run_bind_ok, run_pure, Except.ok.injEq, Prod.mk.injEq] at h
  obtain ⟨⟨w, u⟩, h1, rfl, rfl⟩ := h
  exact ⟨w, h1, rfl⟩

theorem readRegN_of {f : RegFile} {i : RegNum} {s t : State} {w : Word}
    (h : readReg f i s = .ok (w, t)) (nb : Nat) :
    readRegN f i nb s = .ok (w.setWidth (8 * nb), t) := by
  simp [readRegN, h]

/-! ### Flags -/

theorem readFlag_of_some {x : FlagName} {s : State} {b : Bool} (h : s.flagAt x = some b) :
    readFlag x s = .ok (b, s) := by
  simp [readFlag, h]

theorem readFlag_of_none {x : FlagName} {s : State} (h : s.flagAt x = none) :
    readFlag x s = readUnwritten (.flag x) Config.freeFlag s := by
  simp [readFlag, h]

/-- Reading a flag draws free values and changes nothing else. -/
theorem readFlag_ok {x : FlagName} {s t : State} {b : Bool} (h : readFlag x s = .ok (b, t)) :
    ∃ n, Draws s n ∧ t = s.withReads n := by
  unfold readFlag at h
  split at h
  · cases h
    exact ⟨s.freeReads, .none s, rfl⟩
  · exact readUnwritten_ok h

/-- Under `UNWRITTEN_READ = fault` a flag can be read exactly when it has been written. -/
theorem readFlag_ok_iff {x : FlagName} {s : State} (hc : s.cfg.unwrittenRead = .fault) :
    (∃ r, readFlag x s = .ok r) ↔ s.flagAt x ≠ none := by
  cases h : s.flagAt x with
  | some b => simp [readFlag_of_some h]
  | none => simp [readFlag_of_none h, readUnwritten_fault hc]

/-- Reading flags draws free values and changes nothing else. -/
theorem readFlags_ok {xs : List FlagName} {f g : Flags} {s t : State}
    (h : readFlags xs f s = .ok (g, t)) : ∃ n, Draws s n ∧ t = s.withReads n := by
  induction xs generalizing f s with
  | nil =>
    cases h
    exact ⟨_, .none _, rfl⟩
  | cons x xs ih =>
    obtain ⟨⟨b, s1⟩, h1, h2⟩ := run_bind_ok.1 h
    obtain ⟨n1, d1, rfl⟩ := readFlag_ok h1
    obtain ⟨n2, d2, rfl⟩ := ih h2
    exact ⟨n2, d1.trans d2, by simp⟩

theorem Flags.get_put (f : Flags) (x y : FlagName) (b : Bool) :
    (f.put x b).get y = if y = x then b else f.get y := by
  cases x <;> cases y <;> rfl

theorem Flags.ext_get {f g : Flags} (h : ∀ x, f.get x = g.get x) : f = g := by
  cases f
  cases g
  have := h .n
  have := h .z
  have := h .v
  have := h .c
  simp_all [Flags.get]

/-- Flags that have all been written read as what they hold, and nothing changes. -/
theorem readFlags_of_written {xs : List FlagName} {g : Flags} {s : State}
    (h : ∀ x ∈ xs, s.flagAt x = some (g.get x)) (f : Flags) :
    ∃ r, readFlags xs f s = .ok (r, s) ∧ ∀ y, r.get y = if y ∈ xs then g.get y else f.get y := by
  induction xs generalizing f with
  | nil => exact ⟨f, rfl, by simp⟩
  | cons x xs ih =>
    obtain ⟨r, hr, hg⟩ := ih (fun y hy => h y (List.mem_cons_of_mem _ hy)) (f.put x (g.get x))
    refine ⟨r, ?_, fun y => ?_⟩
    · simp [readFlags, readFlag_of_some (h x List.mem_cons_self), hr]
    · rw [hg, Flags.get_put]
      by_cases hx : y = x
      · simp [hx]
      · simp [hx]

/-- Under `UNWRITTEN_READ = fault` flags can be read exactly when all have been written. -/
theorem readFlags_ok_iff {xs : List FlagName} {f : Flags} {s : State}
    (hc : s.cfg.unwrittenRead = .fault) :
    (∃ r, readFlags xs f s = .ok r) ↔ ∀ x ∈ xs, s.flagAt x ≠ none := by
  induction xs generalizing f with
  | nil => simp [readFlags]
  | cons x xs ih =>
    cases h : s.flagAt x with
    | some b => simpa [readFlags, readFlag_of_some h, h] using ih
    | none => simp [readFlags, readFlag_of_none h, readUnwritten_fault hc, h]

/-- The flag condition depends on no flag it does not name (40_components.md R141). -/
theorem condHolds_congr {f g : Flags} {cccc : CondCode}
    (h : ∀ x ∈ condFlags cccc, f.get x = g.get x) : condHolds f cccc = condHolds g cccc := by
  obtain ⟨n, z, v, c⟩ := f
  obtain ⟨n', z', v', c'⟩ := g
  have hk : ∀ k : BitVec 3, k = 0#3 ∨ k = 1#3 ∨ k = 2#3 ∨ k = 3#3 ∨ k = 4#3 ∨ k = 5#3 ∨ k = 6#3 ∨
      k = 7#3 := by decide
  unfold condFlags at h
  unfold condHolds condExpr
  rcases hk (cccc.extractLsb' 0 3) with hk | hk | hk | hk | hk | hk | hk | hk <;> rw [hk] at h ⊢ <;>
    simp_all [Flags.get]

/-- Reading a condition draws free values and changes nothing else. -/
theorem readCond_ok {cccc : CondCode} {s t : State} {b : Bool}
    (h : readCond cccc s = .ok (b, t)) : ∃ n, Draws s n ∧ t = s.withReads n := by
  simp only [readCond, run_bind_ok, run_pure, Except.ok.injEq, Prod.mk.injEq] at h
  obtain ⟨⟨f, s1⟩, h1, -, rfl⟩ := h
  exact readFlags_ok h1

/-- A condition whose flags have been written reads as it stands, and nothing changes. -/
theorem readCond_of_written {cccc : CondCode} {s : State} {f : Flags}
    (h : ∀ x ∈ condFlags cccc, s.flagAt x = some (f.get x)) :
    readCond cccc s = .ok (condHolds f cccc, s) := by
  obtain ⟨r, hr, hg⟩ := readFlags_of_written h s.flags
  have : condHolds r cccc = condHolds f cccc :=
    condHolds_congr fun x hx => by rw [hg, if_pos hx]
  simp [readCond, hr, this]

/-- The unconditional codes read no flag and hold (40_components.md R141). -/
theorem readCond_always (s : State) :
    readCond 0b1111#4 s = .ok (true, s) ∧ readCond 0b0111#4 s = .ok (true, s) := ⟨rfl, rfl⟩

/-- Reading SR draws free values and changes nothing else. -/
theorem readSr_ok {s t : State} {v : Word} (h : readSr s = .ok (v, t)) :
    ∃ n, Draws s n ∧ t = s.withReads n := by
  simp only [readSr, run_bind_ok, run_pure, Except.ok.injEq, Prod.mk.injEq] at h
  obtain ⟨⟨f, s1⟩, h1, -, rfl⟩ := h
  exact readFlags_ok h1

/-- SR reads as the four flags where all have been written. -/
theorem readSr_of_written {s : State} {f : Flags} (h : ∀ x, s.flagAt x = some (f.get x)) :
    readSr s = .ok (srValue s.cfg.srLayout f, s) := by
  obtain ⟨r, hr, hg⟩ := readFlags_of_written (xs := [.n, .z, .v, .c]) (fun x _ => h x) s.flags
  have : r = f := Flags.ext_get fun x => by rw [hg, if_pos (by cases x <;> simp)]
  simp [readSr, hr, this]

/-! ### Narrow register writes -/

/-- A result that keeps no old bits does not depend on them (10_state.md R27). -/
theorem narrowed_of_not_keepsOld {p : NarrowWrite} {nb : Nat} (h : keepsOld p nb = false)
    (a b : Word) (v : BitVec (8 * nb)) : narrowed p nb a v = narrowed p nb b v := by
  unfold narrowed
  by_cases h4 : nb = 4
  · simp [h4]
  · cases p <;> simp_all [keepsOld]

/-- Reading the old value draws free values and changes nothing else. -/
theorem readOld_ok {f : RegFile} {i : RegNum} {nb : Nat} {s t : State} {w : Word}
    (h : readOld f i nb s = .ok (w, t)) : ∃ n, Draws s n ∧ t = s.withReads n := by
  unfold readOld at h
  split at h
  · exact readReg_ok h
  · cases h
    exact ⟨s.freeReads, .none s, rfl⟩

/-- A result of 32 bits reads no old value. -/
@[simp] theorem readOld_word (f : RegFile) (i : RegNum) (s : State) :
    readOld f i 4 s = .ok (0, s) := by simp [readOld, keepsOld]

/-- The old value of a register that has been written can be read, and counts as what it holds. -/
theorem readOld_of_some {f : RegFile} {i : RegNum} {s : State} {w : Word}
    (h : s.regAt f i = some w) (nb : Nat) :
    ∃ old, readOld f i nb s = .ok (old, s) ∧ ∀ v : BitVec (8 * nb),
      narrowed s.cfg.narrowWrite nb old v = narrowed s.cfg.narrowWrite nb w v := by
  by_cases hk : keepsOld s.cfg.narrowWrite nb = true
  · exact ⟨w, by simp [readOld, hk, readReg_of_some h], fun _ => rfl⟩
  · rw [Bool.not_eq_true] at hk
    exact ⟨0, by simp [readOld, hk], narrowed_of_not_keepsOld hk 0 w⟩

/-- A narrow write: the old value read, then all 32 bits written (10_state.md R27). -/
theorem regWriteN_ok_iff {f : RegFile} {i : RegNum} {nb : Nat} {v : BitVec (8 * nb)} {s t : State} :
    regWriteN f i nb v s = .ok t ↔ ∃ old u, readOld f i nb s = .ok (old, u) ∧
      t = u.setReg f i (narrowed s.cfg.narrowWrite nb old v) := by
  simp only [regWriteN, run_bind_ok, run_pure, Except.ok.injEq, Prod.exists]
  constructor
  · rintro ⟨old, u, h, rfl⟩
    obtain ⟨n, -, rfl⟩ := readOld_ok h
    exact ⟨old, _, h, rfl⟩
  · rintro ⟨old, u, h, rfl⟩
    obtain ⟨n, -, rfl⟩ := readOld_ok h
    exact ⟨old, _, h, rfl⟩

end Sys2Proof.Machine
end

