-- ==== Sys2Proof/Laws/Access.lean ====
section
/-! SUPPORT. What a memory access can do: when it answers, what it answers, and what it leaves
unchanged (20_memory.md R52, R53). -/

namespace Sys2Proof.Machine

@[simp] theorem byteAddr_zero (a : Word) : byteAddr a 0 = a := by simp [byteAddr]

theorem byteAddr_succ (a : Word) (k : Nat) : byteAddr a (k + 1) = byteAddr (a + 1) k := by
  simp only [byteAddr]
  bv_omega

/-! ### The tests before an access -/

theorem checkAlign_ok_iff (s : State) (kind : Access) (align nb : Nat) (a : Word) :
    checkAlign s kind align nb a = .ok () ↔ s.cfg.align = .allow ∨ a.toNat % align = 0 := by
  unfold checkAlign
  cases h : s.cfg.align <;> by_cases h2 : a.toNat % align = 0 <;> simp [h2]

theorem checkAlign_error (s : State) (kind : Access) (align nb : Nat) (a : Word)
    (h : s.cfg.align = .fault) (h2 : a.toNat % align ≠ 0) :
    checkAlign s kind align nb a = .error (.misaligned a nb kind) := by
  simp [checkAlign, h, h2]

theorem checkMap_ok_iff (s : State) (kind : Access) (nb : Nat) (a : Word) :
    checkMap s kind nb a = .ok () ↔ ∀ k, k < nb → mapped s.cfg (byteAddr a k) = true := by
  induction nb generalizing a with
  | zero => simp [checkMap]
  | succ n ih =>
    by_cases h : mapped s.cfg a = true
    · simp only [checkMap, h, if_true, ih]
      constructor
      · intro H k hk
        cases k with
        | zero => simpa using h
        | succ k =>
          rw [byteAddr_succ]
          exact H k (by omega)
      · intro H k hk
        rw [← byteAddr_succ]
        exact H (k + 1) (by omega)
    · simp only [checkMap, h, raise_eq]
      constructor
      · intro H
        simp at H
      · intro H
        exact absurd (by simpa using H 0 (by omega)) h

/-- A failed map test names the first byte outside `MEM_MAP`. -/
theorem checkMap_error {s : State} {kind : Access} {nb : Nat} {a : Word} {f : Fault}
    (h : checkMap s kind nb a = .error f) :
    ∃ k, k < nb ∧ f = .accessFault (byteAddr a k) kind ∧ mapped s.cfg (byteAddr a k) = false := by
  induction nb generalizing a with
  | zero => simp [checkMap] at h
  | succ n ih =>
    by_cases hm : mapped s.cfg a = true
    · simp only [checkMap, hm, if_true] at h
      obtain ⟨k, hk, hf, hu⟩ := ih h
      exact ⟨k + 1, by omega, by rw [byteAddr_succ]; exact hf, by rw [byteAddr_succ]; exact hu⟩
    · simp only [checkMap, hm, raise_eq] at h
      exact ⟨0, by omega, by simpa using h.symm, by simpa using hm⟩

/-! ### Reading -/

theorem readByte_ok {s t : State} {a : Word} {b : Byte} (h : readByte s a = .ok (b, t)) :
    ∃ n, Draws s n ∧ t = s.withReads n := by
  unfold readByte at h
  split at h
  · cases h
    exact ⟨s.freeReads, .none s, rfl⟩
  · exact readUnwritten_ok h

theorem readByte_of_written {s : State} {a : Word} {b : Byte} (h : s.byteAt a = some b) :
    readByte s a = .ok (b, s) := by
  simp [readByte, h]

theorem readBytes_ok {nb : Nat} {a : Word} {s t : State} {bs : List Byte}
    (h : readBytes nb a s = .ok (bs, t)) : ∃ n, Draws s n ∧ t = s.withReads n := by
  induction nb generalizing a s t bs with
  | zero =>
    cases h
    exact ⟨s.freeReads, .none s, rfl⟩
  | succ n ih =>
    simp only [readBytes] at h
    split at h
    · simp at h
    · rename_i b s1 h1
      split at h
      · simp at h
      · rename_i bs' s2 h2
        cases h
        obtain ⟨n1, d1, rfl⟩ := readByte_ok h1
        obtain ⟨n2, d2, rfl⟩ := ih h2
        exact ⟨n2, d1.trans d2, by simp⟩

/-- Bytes that have all been written are read as they stand, and nothing changes. -/
theorem readBytes_of_written {a : Word} {s : State} {bs : List Byte}
    (h : ∀ k (hk : k < bs.length), s.byteAt (byteAddr a k) = some bs[k]) :
    readBytes bs.length a s = .ok (bs, s) := by
  induction bs generalizing a with
  | nil => rfl
  | cons b bs ih =>
    have h0 : s.byteAt a = some b := by
      have := h 0 (by simp)
      rw [byteAddr_zero] at this
      exact this
    have ht : readBytes bs.length (a + 1) s = .ok (bs, s) := by
      apply ih
      intro k hk
      rw [← byteAddr_succ]
      exact h (k + 1) (by simpa using hk)
    simp only [List.length_cons, readBytes, readByte_of_written h0]
    rw [ht]

/-- Under `UNWRITTEN_READ = fault` a read answers exactly when every byte has been written, and then
nothing changes. -/
theorem readBytes_ok_iff_written {nb : Nat} {a : Word} {s : State}
    (hc : s.cfg.unwrittenRead = .fault) :
    (∃ r, readBytes nb a s = .ok r) ↔ Written s nb a := by
  induction nb generalizing a with
  | zero => simp [readBytes, Written]
  | succ n ih =>
    simp only [readBytes]
    cases hb : s.byteAt a with
    | none =>
      simp only [readByte, hb, readUnwritten_fault hc, reduceCtorEq, exists_false, false_iff]
      intro H
      have := H 0 (by omega)
      simp [hb] at this
    | some b =>
      simp only [readByte_of_written hb]
      have hiff : Written s (n + 1) a ↔ Written s n (a + 1) := by
        constructor
        · intro H k hk
          rw [← byteAddr_succ]
          exact H (k + 1) (by omega)
        · intro H k hk
          cases k with
          | zero => simp [hb]
          | succ k =>
            rw [byteAddr_succ]
            exact H k (by omega)
      rw [hiff, ← ih]
      cases h2 : readBytes n (a + 1) s with
      | error f => simp
      | ok r => exact ⟨fun _ => ⟨_, rfl⟩, fun _ => ⟨_, rfl⟩⟩

theorem readBytes_length {nb : Nat} {a : Word} {s t : State} {bs : List Byte}
    (h : readBytes nb a s = .ok (bs, t)) : bs.length = nb := by
  induction nb generalizing a s t bs with
  | zero =>
    cases h
    rfl
  | succ n ih =>
    simp only [readBytes] at h
    split at h
    · simp at h
    · split at h
      · simp at h
      · rename_i h2
        cases h
        simp [ih h2]

/-- What a read can do: it answers only where the access is possible, and changes nothing but the
count of free values drawn. -/
theorem memReadAligned_ok {kind : Access} {align nb : Nat} {a : Word} {s t : State}
    {v : BitVec (8 * nb)} (h : memReadAligned kind align nb a s = .ok (v, t)) :
    Accessible s align nb a ∧ ∃ n, Draws s n ∧ t = s.withReads n := by
  simp only [memReadAligned, run_bind_ok] at h
  obtain ⟨_, h1, _, h2, ⟨bs, s'⟩, h3, h4⟩ := h
  cases h4
  exact ⟨⟨(checkAlign_ok_iff _ _ _ _ _).1 h1, (checkMap_ok_iff _ _ _ _).1 h2⟩, readBytes_ok h3⟩

/-- What a read answers where every byte has been written. -/
theorem memReadAligned_of_written {kind : Access} {align : Nat} {a : Word} {s : State}
    {bs : List Byte} (hacc : Accessible s align bs.length a)
    (h : ∀ k (hk : k < bs.length), s.byteAt (byteAddr a k) = some bs[k]) :
    memReadAligned kind align bs.length a s
      = .ok (assemble s.cfg.byteOrder bs.length bs, s) := by
  have h1 := (checkAlign_ok_iff s kind align bs.length a).2 hacc.1
  have h2 := (checkMap_ok_iff s kind bs.length a).2 hacc.2
  simp [memReadAligned, h1, h2, readBytes_of_written h]

theorem memReadAligned_ok_iff {kind : Access} {align nb : Nat} {a : Word} {s : State}
    (hc : s.cfg.unwrittenRead = .fault) :
    (∃ r, memReadAligned kind align nb a s = .ok r) ↔ Accessible s align nb a ∧ Written s nb a := by
  rw [← readBytes_ok_iff_written hc]
  simp only [memReadAligned, run_bind_ok]
  constructor
  · rintro ⟨r, _, h1, _, h2, ⟨bs, s'⟩, h3, -⟩
    exact ⟨⟨(checkAlign_ok_iff _ _ _ _ _).1 h1, (checkMap_ok_iff _ _ _ _).1 h2⟩, _, h3⟩
  · rintro ⟨⟨h1, h2⟩, ⟨bs, s'⟩, h3⟩
    exact ⟨_, (), (checkAlign_ok_iff _ _ _ _ _).2 h1, (), (checkMap_ok_iff _ _ _ _).2 h2,
      (bs, s'), h3, rfl⟩

/-! ### What a read depends on -/

/-- A read depends on memory, on the configuration and on the count of free values drawn, and on
nothing else of the state. -/
theorem readBytes_congr {nb : Nat} {a : Word} {s t s' : State} {bs : List Byte}
    (hc : s'.cfg = s.cfg) (hm : s'.mem = s.mem) (hr : s'.freeReads = s.freeReads)
    (h : readBytes nb a s = .ok (bs, t)) :
    readBytes nb a s' = .ok (bs, s'.withReads t.freeReads) := by
  induction nb generalizing a s s' t bs with
  | zero =>
    cases h
    rw [← hr]
    rfl
  | succ n ih =>
    have hb : s'.byteAt a = s.byteAt a := by simp [State.byteAt, hm]
    simp only [readBytes] at h ⊢
    cases h1 : readByte s a with
    | error f => simp [h1] at h
    | ok p =>
      obtain ⟨b, s1⟩ := p
      simp only [h1] at h
      cases h2 : readBytes n (a + 1) s1 with
      | error f =>
        rw [h2] at h
        cases h
      | ok q =>
        obtain ⟨bs2, s2⟩ := q
        simp only [h2] at h
        cases h
        unfold readByte at h1 ⊢
        rw [hb]
        cases hx : s.byteAt a with
        | some x =>
          simp only [hx] at h1 ⊢
          cases h1
          rw [ih hc hm hr h2]
        | none =>
          simp only [hx] at h1 ⊢
          obtain ⟨hu, rfl, rfl⟩ := readUnwritten_ok_iff.1 h1
          rw [readUnwritten_ok_iff.2 ⟨by rw [hc]; exact hu, rfl, rfl⟩, hr]
          simp only [ih (s := s.withReads (s.freeReads + 1))
            (s' := s'.withReads (s.freeReads + 1)) hc hm rfl h2]
          rfl

theorem memReadAligned_congr {kind : Access} {align nb : Nat} {a : Word} {s t s' : State}
    {v : BitVec (8 * nb)} (hc : s'.cfg = s.cfg) (hm : s'.mem = s.mem)
    (hr : s'.freeReads = s.freeReads) (h : memReadAligned kind align nb a s = .ok (v, t)) :
    memReadAligned kind align nb a s' = .ok (v, s'.withReads t.freeReads) := by
  simp only [memReadAligned, run_bind_ok] at h
  obtain ⟨_, h1, _, h2, ⟨bs, s1⟩, h3, h4⟩ := h
  cases h4
  have ha : checkAlign s' kind align nb a = .ok () := by
    rw [checkAlign_ok_iff, hc]
    exact (checkAlign_ok_iff _ _ _ _ _).1 h1
  have hp : checkMap s' kind nb a = .ok () := by
    rw [checkMap_ok_iff, hc]
    exact (checkMap_ok_iff _ _ _ _).1 h2
  simp [memReadAligned, ha, hp, readBytes_congr hc hm hr h3, hc]

/-! ### Writing -/

/-- What a write can do: it answers exactly where the access is possible, and changes only memory. -/
theorem memWrite_ok_iff {nb : Nat} {a : Word} {v : BitVec (8 * nb)} {s t : State} :
    memWrite nb a v s = .ok t ↔
      Accessible s nb nb a ∧
        t = s.setMem (writeBytes s.mem a (disassemble s.cfg.byteOrder nb v)) := by
  simp only [memWrite, run_bind_ok, run_pure, Except.ok.injEq]
  constructor
  · rintro ⟨_, h1, _, h2, rfl⟩
    exact ⟨⟨(checkAlign_ok_iff _ _ _ _ _).1 h1, (checkMap_ok_iff _ _ _ _).1 h2⟩, rfl⟩
  · rintro ⟨⟨h1, h2⟩, rfl⟩
    exact ⟨(), (checkAlign_ok_iff _ _ _ _ _).2 h1, (), (checkMap_ok_iff _ _ _ _).2 h2, rfl⟩

/-- The bytes a write leaves: those of the value at its addresses. -/
theorem memWrite_byteAt {nb : Nat} {a : Word} {v : BitVec (8 * nb)} {s t : State}
    (h : memWrite nb a v s = .ok t) (hn : nb ≤ 2 ^ 32) (k : Nat) (hk : k < nb) :
    t.byteAt (byteAddr a k) =
      some ((disassemble s.cfg.byteOrder nb v)[k]'(by simpa using hk)) := by
  obtain ⟨-, rfl⟩ := memWrite_ok_iff.1 h
  rw [setMem_byteAt]
  exact read_writeBytes _ _ _ _ (by simpa using hk) (by simpa using hn)

/-- A write leaves every byte outside its addresses. -/
theorem memWrite_byteAt_of_ne {nb : Nat} {a : Word} {v : BitVec (8 * nb)} {s t : State}
    (h : memWrite nb a v s = .ok t) (x : Word) (hx : ∀ k, k < nb → x ≠ byteAddr a k) :
    t.byteAt x = s.byteAt x := by
  obtain ⟨-, rfl⟩ := memWrite_ok_iff.1 h
  rw [setMem_byteAt, read_writeBytes_of_ne _ _ _ _ (by simpa using hx)]
  rfl

/-- A value written is read back by any read of the same bytes, of any kind, that is aligned enough. -/
theorem memReadAligned_after_write {kind : Access} {align nb : Nat} {a : Word}
    {v : BitVec (8 * nb)} {s t : State} (h : memWrite nb a v s = .ok t) (hn : nb ≤ 2 ^ 32)
    (ha : s.cfg.align = .allow ∨ a.toNat % align = 0) :
    memReadAligned kind align nb a t = .ok (v, t) := by
  have hb := memWrite_byteAt h hn
  have hlen : (disassemble s.cfg.byteOrder nb v).length = nb := by simp
  obtain ⟨hacc, rfl⟩ := memWrite_ok_iff.1 h
  have := memReadAligned_of_written (kind := kind) (align := align) (a := a)
    (s := s.setMem (writeBytes s.mem a (disassemble s.cfg.byteOrder nb v)))
    (bs := disassemble s.cfg.byteOrder nb v)
    ⟨by simpa using ha, by rw [hlen]; exact hacc.2⟩
    (fun k hk => hb k (by simpa using hk))
  have e : ∀ (n : Nat) (bs : List Byte) (hn : bs.length = n) (q : State),
      memReadAligned kind align bs.length a q
        = .ok (assemble q.cfg.byteOrder bs.length bs, q) →
      memReadAligned kind align n a q = .ok (assemble q.cfg.byteOrder n bs, q) := by
    intro n bs hn q hq
    subst hn
    exact hq
  have h2 := e nb _ hlen _ this
  simpa using h2

/-- Writing keeps the canonical form of memory. -/
theorem memWrite_wf {nb : Nat} {a : Word} {v : BitVec (8 * nb)} {s t : State}
    (h : memWrite nb a v s = .ok t) (hm : Memory.wf s.mem = true) : Memory.wf t.mem = true := by
  obtain ⟨-, rfl⟩ := memWrite_ok_iff.1 h
  exact writeBytes_wf _ _ hm

/-! ### Loading -/

/-- Loading the host's cells keeps the canonical form (10_state.md R29). -/
theorem loadCells_wf {m : Memory} (cells : List Host.Cell) (h : Memory.wf m = true) :
    Memory.wf (loadCells m cells) = true := by
  induction cells generalizing m with
  | nil => exact h
  | cons c cells ih =>
    obtain ⟨k, b⟩ := c
    exact ih (write_wf b h (Nat.mod_lt _ (by norm_num)))

/-- What loading leaves at an address: the last cell supplied for it, or what stood there
(10_state.md R29). -/
theorem loadCells_read (cells : List Host.Cell) (m : Memory) (a : Word) :
    Memory.read (loadCells m cells) a.toNat = (suppliedByte cells a).or (Memory.read m a.toNat) := by
  induction cells generalizing m with
  | nil => simp [loadCells, suppliedByte]
  | cons c cells ih =>
    obtain ⟨k, b⟩ := c
    rw [loadCells, ih]
    simp only [suppliedByte, List.reverse_cons, List.find?_append]
    cases cells.reverse.find? fun p : Host.Cell => decide (p.1 % 2 ^ 32 = a.toNat) with
    | some v => simp
    | none =>
      by_cases he : k % 4294967296 = a.toNat
      · simp [he, read_write]
      · simp [he, Ne.symm he, read_write]

end Sys2Proof.Machine
end

