-- ==== Sys2Proof/Laws/Stream.lean ====
section
/-! SUPPORT. What the operations over the instruction stream and the stack can do: the extension words,
the immediates, the end-of-run test, the instruction word, a push and a pop (30_encoding.md R84 to R86,
20_memory.md R63). -/

namespace Sys2Proof.Machine

/-- A fetch answers only at an accessible IP; IP moves past what it read, and otherwise only free reads
are drawn. -/
theorem fetch_ok {align nb : Nat} {s t : State} {v : BitVec (8 * nb)}
    (h : fetch align nb s = .ok (v, t)) :
    Accessible s align nb s.ip ∧ ∃ n, Draws s n ∧ t = (s.withReads n).setIp (s.ip + BitVec.ofNat 32 nb) := by
  simp only [fetch, run_bind_ok, run_pure, Except.ok.injEq, Prod.mk.injEq] at h
  obtain ⟨⟨v', s'⟩, h1, rfl, rfl⟩ := h
  obtain ⟨hacc, n, d, rfl⟩ := memReadAligned_ok h1
  exact ⟨hacc, n, d, rfl⟩

/-- An immediate takes its own length of the stream (30_encoding.md R86), and otherwise only free reads
are drawn. -/
theorem fetchImm_ok {nb : Nat} {s t : State} {v : BitVec (8 * nb)}
    (h : fetchImm nb s = .ok (v, t)) :
    ∃ n, Draws s n ∧ t = (s.withReads n).setIp (s.ip + BitVec.ofNat 32 (immLength s.cfg nb)) := by
  unfold fetchImm at h
  by_cases h1 : nb = 1
  · subst h1
    rw [if_pos rfl] at h
    cases hc : s.cfg.byteImm <;> simp only [hc, run_bind_ok] at h <;>
      (obtain ⟨⟨w, s'⟩, h3, h4⟩ := h
       cases h4
       simpa [immLength, hc] using (fetch_ok h3).2)
  · rw [if_neg h1] at h
    by_cases h2 : nb = 2
    · rw [if_pos h2] at h
      obtain ⟨⟨w, s'⟩, h3, h4⟩ := run_bind_ok.1 h
      cases h4
      simpa [immLength, h1, h2] using (fetch_ok h3).2
    · rw [if_neg h2] at h
      obtain ⟨⟨w, s'⟩, h3, h4⟩ := run_bind_ok.1 h
      cases h4
      simpa [immLength, h1, h2] using (fetch_ok h3).2

/-- The end-of-run test only draws free reads (70_reset_and_hazards.md R290). -/
theorem haltTest_ok {s t : State} {b : Bool} (h : haltTest s = .ok (b, t)) :
    ∃ n, Draws s n ∧ t = s.withReads n := by
  unfold haltTest at h
  split at h
  · cases h
    exact ⟨s.freeReads, .none s, rfl⟩
  · simp only [run_bind_ok] at h
    obtain ⟨⟨w, s'⟩, h1, h2⟩ := h
    cases h2
    exact (memReadAligned_ok h1).2

/-- An instruction comes from a word that decodes to it, and IP stands past that word. -/
theorem fetchInstr_ok {s t : State} {i : Instr} (h : fetchInstr s = .ok (i, t)) :
    (∃ w, decode w = .ok i) ∧ ∃ n, Draws s n ∧ t = (s.withReads n).setIp (s.ip + 2) := by
  simp only [fetchInstr, run_bind_ok] at h
  obtain ⟨⟨halt, s0⟩, h0, h⟩ := h
  obtain ⟨n0, d0, rfl⟩ := haltTest_ok h0
  cases halt with
  | true => simp at h
  | false =>
    simp only [Bool.false_eq_true, if_false, run_bind_ok] at h
    obtain ⟨⟨w, s1⟩, h1, h⟩ := h
    obtain ⟨-, n1, d1, rfl⟩ := fetch_ok h1
    cases hd : decode w with
    | error e => simp [hd] at h
    | ok j =>
      simp only [hd] at h
      cases h
      exact ⟨⟨w, hd⟩, n1, d0.trans d1, rfl⟩

/-- The immediate of LNK and RFS takes its own length of the stream. -/
theorem fetchFrameImm_ok {ss : Scale} {s t : State} {v : Word}
    (h : fetchFrameImm ss s = .ok (v, t)) :
    ∃ n, Draws s n ∧ t = (s.withReads n).setIp (s.ip + BitVec.ofNat 32 (immLength s.cfg (bytes ss))) := by
  simp only [fetchFrameImm, run_bind_ok] at h
  obtain ⟨⟨w, s1⟩, h1, h⟩ := h
  split at h <;> (cases h; exact fetchImm_ok h1)

/-- Reading SP draws free values and changes nothing else. -/
theorem readSp_ok {s t : State} {v : Word} (h : readSp s = .ok (v, t)) :
    ∃ n, Draws s n ∧ t = s.withReads n := readReg_ok h

/-- Reading BP draws free values and changes nothing else. -/
theorem readBp_ok {s t : State} {v : Word} (h : readBp s = .ok (v, t)) :
    ∃ n, Draws s n ∧ t = s.withReads n := readReg_ok h

/-- A push: SP read, down by 4, and one word stored at the new SP (20_memory.md R63). -/
theorem push32_ok_iff {v : Word} {s t : State} :
    push32 v s = .ok t ↔ ∃ sp s1, readSp s = .ok (sp, s1) ∧ Accessible s1 4 4 (sp - 4) ∧
      t = (s1.setSp (sp - 4)).setMem
        (writeBytes s1.mem (sp - 4) (disassemble s1.cfg.byteOrder 4 v)) := by
  simp only [push32, run_bind_ok, memWrite_ok_iff, setSp_mem, setSp_cfg, Accessible, Prod.exists]

/-- A pop: SP read, the word at it, SP read again and up by 4 (20_memory.md R63). -/
theorem pop32_ok_iff {v : Word} {s t : State} :
    pop32 s = .ok (v, t) ↔ ∃ sp s1 s2 sp' s3, readSp s = .ok (sp, s1) ∧
      memRead 4 sp s1 = .ok (v, s2) ∧ readSp s2 = .ok (sp', s3) ∧ t = s3.setSp (sp' + 4) := by
  simp only [pop32, run_bind_ok, run_pure, Except.ok.injEq, Prod.mk.injEq, Prod.exists]
  constructor
  · rintro ⟨sp, s1, h1, w, s2, h2, sp', s3, h3, rfl, rfl⟩
    exact ⟨sp, s1, s2, sp', s3, h1, h2, h3, rfl⟩
  · rintro ⟨sp, s1, s2, sp', s3, h1, h2, h3, rfl⟩
    exact ⟨sp, s1, h1, v, s2, h2, sp', s3, h3, rfl, rfl⟩

/-- A pop leaves memory and all registers but SP, and draws free values. -/
theorem pop32_ok {v : Word} {s t : State} (h : pop32 s = .ok (v, t)) :
    ∃ n sp, Draws s n ∧ t = (s.withReads n).setSp sp := by
  obtain ⟨sp, s1, s2, sp', s3, h1, h2, h3, rfl⟩ := pop32_ok_iff.1 h
  obtain ⟨n1, d1, rfl⟩ := readSp_ok h1
  obtain ⟨-, n2, d2, rfl⟩ := memReadAligned_ok h2
  obtain ⟨n3, d3, rfl⟩ := readSp_ok h3
  exact ⟨n3, sp' + 4, (d1.trans d2).trans d3, rfl⟩

/-- A pop where SP has been written. -/
theorem pop32_of_some {v sp : Word} {s s1 : State} (h : s.regAt .a s.cfg.spIndex = some sp)
    (hm : memRead 4 sp s = .ok (v, s1)) : pop32 s = .ok (v, s1.setSp (sp + 4)) := by
  obtain ⟨-, n, -, rfl⟩ := memReadAligned_ok hm
  exact pop32_ok_iff.2 ⟨sp, s, _, sp, _, readReg_of_some h, hm, readReg_of_some (by simpa using h), rfl⟩

/-- A transfer of control sets IP and, for code 0111, pushes the old one (40_components.md R143). -/
theorem transfer_ok_iff {cccc : CondCode} {target : Word} {s t : State} :
    transfer cccc target s = .ok t ↔
      if isCall cccc then ∃ s1, push32 s.ip s = .ok s1 ∧ t = s1.setIp target
      else t = s.setIp target := by
  unfold transfer
  by_cases h : isCall cccc = true
  · simp only [h, if_true, run_bind_ok, run_pure, Except.ok.injEq]
    constructor <;> (rintro ⟨s1, h1, h2⟩; exact ⟨s1, h1, h2.symm⟩)
  · simp [h, eq_comm]

end Sys2Proof.Machine
end

