-- ==== Sys2Proof/Laws/Operands.lean ====
section
/-! SUPPORT. What the operations over operands can do: evaluating an effective address, reading and
writing a location, and the shapes of instruction made of them (40_components.md R125 to R139, R149). -/

namespace Sys2Proof.Machine

/-- All that reading an operand may change: IP moves past `ext` bytes of extension words, the registers
in `stepped` step, free reads are drawn. -/
structure OperandFrame (ext : Nat) (stepped : List RegNum) (s t : State) : Prop where
  data : ∀ x, t.regAt .d x = s.regAt .d x
  address : ∀ x, x ∉ stepped → t.regAt .a x = s.regAt .a x
  ip : t.ip = s.ip + BitVec.ofNat 32 ext
  flags : ∀ x, t.flagAt x = s.flagAt x
  mem : t.mem = s.mem
  cfg : t.cfg = s.cfg
  reads : Draws s t.freeReads

theorem OperandFrame.byteAt {ext : Nat} {l : List RegNum} {s t : State}
    (h : OperandFrame ext l s t) (b : Word) : t.byteAt b = s.byteAt b := by
  simp [State.byteAt, h.mem]

theorem OperandFrame.trans {e1 e2 : Nat} {l1 l2 : List RegNum} {s t u : State}
    (h : OperandFrame e1 l1 s t) (k : OperandFrame e2 l2 t u) :
    OperandFrame (e1 + e2) (l1 ++ l2) s u where
  data x := by rw [k.data, h.data]
  address x hx := by
    rw [List.mem_append, not_or] at hx
    rw [k.address x hx.2, h.address x hx.1]
  ip := by
    rw [k.ip, h.ip, BitVec.ofNat_add, BitVec.add_assoc]
  flags x := by rw [k.flags, h.flags]
  mem := by rw [k.mem, h.mem]
  cfg := by rw [k.cfg, h.cfg]
  reads hc := (k.reads (by rw [h.cfg]; exact hc)).trans (h.reads hc)

theorem OperandFrame.of_reads {s : State} {n : Nat} (h : Draws s n) :
    OperandFrame 0 [] s (s.withReads n) where
  data _ := by simp
  address _ _ := by simp
  ip := by simp
  flags _ := rfl
  mem := rfl
  cfg := rfl
  reads := h

theorem OperandFrame.of_stream {s : State} {n : Nat} (h : Draws s n) (k : Nat) :
    OperandFrame k [] s ((s.withReads n).setIp (s.ip + BitVec.ofNat 32 k)) where
  data _ := by simp
  address _ _ := by simp
  ip := rfl
  flags _ := rfl
  mem := rfl
  cfg := rfl
  reads := h

/-- The location an effective-address form gives: a register, SR and a constant for their own forms,
memory for every other. -/
def EA.gives (ea : EA) (loc : Loc) : Prop :=
  match ea with
  | .dreg x => loc = .dreg x
  | .areg x => loc = .areg x
  | .sr => loc = .sr
  | .imm => ∃ v, loc = .imm v
  | _ => ∃ a, loc = .mem a

/-- Evaluating an effective address: its kind of location, and nothing changed but IP, its stepped
register and the free values drawn. -/
theorem evalEA_ok {ea : EA} {nb : Nat} {s t : State} {loc : Loc}
    (h : evalEA ea nb s = .ok (loc, t)) :
    EA.gives ea loc ∧ OperandFrame (extLen s.cfg nb ea) ea.stepped s t := by
  have hstep : ∀ (x : RegNum) (v : Word) (n : Nat), Draws s n →
      OperandFrame 0 [x] s ((s.withReads n).setReg .a x v) := by
    intro x v n d
    refine ⟨fun y => ?_, fun y hy => ?_, by simp, by simp, by simp, by simp, by simpa using d⟩
    · rw [regAt_setReg_ne _ _ (by simp), withReads_regAt]
    · rw [regAt_setReg_ne _ _ (by simpa using hy), withReads_regAt]
  have hself : OperandFrame 0 [] s s := by simpa using OperandFrame.of_reads (.none s)
  cases ea with
  | dreg x => cases h; exact ⟨rfl, hself⟩
  | areg x => cases h; exact ⟨rfl, hself⟩
  | postInc x =>
    obtain ⟨⟨a, s1⟩, h1, h2⟩ := run_bind_ok.1 h
    obtain ⟨⟨b, s2⟩, h3, h4⟩ := run_bind_ok.1 h2
    cases h4
    obtain ⟨n1, d1, rfl⟩ := readReg_ok h1
    obtain ⟨n2, d2, rfl⟩ := readReg_ok h3
    exact ⟨⟨_, rfl⟩, hstep x _ n2 (d1.trans d2)⟩
  | preDec x =>
    obtain ⟨⟨a, s1⟩, h1, h2⟩ := run_bind_ok.1 h
    cases h2
    obtain ⟨n1, d1, rfl⟩ := readReg_ok h1
    exact ⟨⟨_, rfl⟩, hstep x _ n1 d1⟩
  | deferred x =>
    obtain ⟨⟨a, s1⟩, h1, h2⟩ := run_bind_ok.1 h
    cases h2
    obtain ⟨n1, d1, rfl⟩ := readReg_ok h1
    exact ⟨⟨_, rfl⟩, OperandFrame.of_reads d1⟩
  | sr => cases h; exact ⟨rfl, hself⟩
  | base16 x =>
    obtain ⟨⟨a, s1⟩, h1, h2⟩ := run_bind_ok.1 h
    obtain ⟨⟨d, s2⟩, h3, h4⟩ := run_bind_ok.1 h2
    cases h4
    obtain ⟨n1, d1, rfl⟩ := readReg_ok h1
    obtain ⟨-, n, d2, rfl⟩ := fetch_ok h3
    exact ⟨⟨_, rfl⟩, OperandFrame.of_stream (d1.trans d2) 2⟩
  | base32 x =>
    obtain ⟨⟨a, s1⟩, h1, h2⟩ := run_bind_ok.1 h
    obtain ⟨⟨d, s2⟩, h3, h4⟩ := run_bind_ok.1 h2
    cases h4
    obtain ⟨n1, d1, rfl⟩ := readReg_ok h1
    obtain ⟨-, n, d2, rfl⟩ := fetch_ok h3
    exact ⟨⟨_, rfl⟩, OperandFrame.of_stream (d1.trans d2) 4⟩
  | imm =>
    obtain ⟨⟨d, s1⟩, h1, h2⟩ := run_bind_ok.1 h
    cases h2
    obtain ⟨n, d1, rfl⟩ := fetchImm_ok h1
    exact ⟨⟨_, rfl⟩, OperandFrame.of_stream d1 _⟩
  | ip16 =>
    obtain ⟨⟨d, s1⟩, h1, h2⟩ := run_bind_ok.1 h
    cases h2
    obtain ⟨-, n, d1, rfl⟩ := fetch_ok h1
    exact ⟨⟨_, rfl⟩, OperandFrame.of_stream d1 2⟩
  | ip32 =>
    obtain ⟨⟨d, s1⟩, h1, h2⟩ := run_bind_ok.1 h
    cases h2
    obtain ⟨-, n, d1, rfl⟩ := fetch_ok h1
    exact ⟨⟨_, rfl⟩, OperandFrame.of_stream d1 4⟩

/-- Reading a location draws free values and changes nothing else (40_components.md R137). -/
theorem readLoc_ok {loc : Loc} {nb : Nat} {s t : State} {v : BitVec (8 * nb)}
    (h : readLoc loc nb s = .ok (v, t)) : ∃ n, Draws s n ∧ t = s.withReads n := by
  cases loc with
  | mem a => exact (memReadAligned_ok h).2
  | dreg i =>
    obtain ⟨w, h1, -⟩ := readRegN_ok h
    exact readReg_ok h1
  | areg i =>
    obtain ⟨w, h1, -⟩ := readRegN_ok h
    exact readReg_ok h1
  | imm i => cases h; exact ⟨_, .none _, rfl⟩
  | sr =>
    obtain ⟨⟨w, s1⟩, h1, h2⟩ := run_bind_ok.1 h
    cases h2
    exact readSr_ok h1

/-- An operand: its kind of location, and the frame of its evaluation. -/
theorem operand_ok {ea : EA} {nb : Nat} {s t : State} {loc : Loc} {v : BitVec (8 * nb)}
    (h : operand ea nb s = .ok (loc, v, t)) :
    EA.gives ea loc ∧ OperandFrame (extLen s.cfg nb ea) ea.stepped s t ∧
      ∃ s1, evalEA ea nb s = .ok (loc, s1) := by
  simp only [operand, run_bind_ok, run_pure, Except.ok.injEq, Prod.mk.injEq] at h
  obtain ⟨⟨loc', s1⟩, h1, ⟨v', s2⟩, h2, rfl, rfl, rfl⟩ := h
  obtain ⟨n, d2, rfl⟩ := readLoc_ok h2
  obtain ⟨hg, hf⟩ := evalEA_ok h1
  exact ⟨hg, by simpa using hf.trans (OperandFrame.of_reads d2), _, h1⟩

/-- An effective address and an immediate, in either order: the frames of both. -/
theorem evalEAImm_ok {ea : EA} {nb : Nat} {s t : State} {loc : Loc} {v : BitVec (8 * nb)}
    (h : evalEAImm ea nb s = .ok (loc, v, t)) :
    EA.gives ea loc ∧ OperandFrame (extLen s.cfg nb ea + immLength s.cfg nb) ea.stepped s t := by
  unfold evalEAImm at h
  split at h
  · simp only [run_bind_ok, run_pure, Except.ok.injEq, Prod.mk.injEq] at h
    obtain ⟨⟨loc', s1⟩, h1, ⟨v', s2⟩, h2, rfl, rfl, rfl⟩ := h
    obtain ⟨hg, hf⟩ := evalEA_ok h1
    obtain ⟨n, d1, rfl⟩ := fetchImm_ok h2
    have := hf.trans (OperandFrame.of_stream d1 (immLength s1.cfg nb))
    rw [hf.cfg] at this
    exact ⟨hg, by simpa [hf.cfg] using this⟩
  · simp only [run_bind_ok, run_pure, Except.ok.injEq, Prod.mk.injEq] at h
    obtain ⟨⟨v', s1⟩, h1, ⟨loc', s2⟩, h2, rfl, rfl, rfl⟩ := h
    obtain ⟨n, d1, rfl⟩ := fetchImm_ok h1
    obtain ⟨hg, hf⟩ := evalEA_ok h2
    have := (OperandFrame.of_stream d1 (immLength s.cfg nb)).trans hf
    rw [Nat.add_comm] at this
    exact ⟨hg, by simpa using this⟩

/-- An operand with the instruction's own immediate: the frames of both. -/
theorem operandImm_ok {ea : EA} {nb : Nat} {s t : State} {loc : Loc} {v imm : BitVec (8 * nb)}
    (h : operandImm ea nb s = .ok (loc, v, imm, t)) :
    EA.gives ea loc ∧ OperandFrame (extLen s.cfg nb ea + immLength s.cfg nb) ea.stepped s t ∧
      ∃ s1, evalEAImm ea nb s = .ok (loc, imm, s1) := by
  simp only [operandImm, run_bind_ok, run_pure, Except.ok.injEq, Prod.mk.injEq] at h
  obtain ⟨⟨loc', imm', s1⟩, h1, ⟨v', s2⟩, h2, rfl, rfl, rfl, rfl⟩ := h
  obtain ⟨n, d2, rfl⟩ := readLoc_ok h2
  obtain ⟨hg, hf⟩ := evalEAImm_ok h1
  exact ⟨hg, by simpa using hf.trans (OperandFrame.of_reads d2), _, h1⟩

/-! ### Writing -/

/-- Reading the old value of a location draws free values and changes nothing else. -/
theorem Loc.readOld_ok {loc : Loc} {nb : Nat} {s t : State} {w : Word}
    (h : loc.readOld nb s = .ok (w, t)) : ∃ n, Draws s n ∧ t = s.withReads n := by
  cases loc with
  | dreg i => exact Machine.readOld_ok h
  | areg i => exact Machine.readOld_ok h
  | mem a => cases h; exact ⟨_, .none _, rfl⟩
  | imm c => cases h; exact ⟨_, .none _, rfl⟩
  | sr => cases h; exact ⟨_, .none _, rfl⟩

/-- A write of a register: its new content, and nothing else changed. -/
theorem setReg_unchangedOutside (s : State) (i : RegNum) (v : Word) (nb : Nat) :
    UnchangedOutside (.dreg i) nb s (s.setReg .d i v) ∧
      UnchangedOutside (.areg i) nb s (s.setReg .a i v) := by
  refine ⟨⟨fun j hj => ?_, fun j _ => ?_, by simp, by simp, by simp, by simp⟩,
    ⟨fun j _ => ?_, fun j hj => ?_, by simp, by simp, by simp, by simp⟩⟩ <;>
    rw [regAt_setReg, if_neg] <;> simp_all [eq_comm]

/-- Writing a location: it could be written, it holds the value afterwards, nothing else is changed but
the free values drawn, the flags only for SR, and memory stays canonical (40_components.md R138). -/
theorem writeLoc_ok {loc : Loc} {nb : Nat} {v : BitVec (8 * nb)} {s t : State}
    (h : writeLoc loc nb v s = .ok t) (hn : nb ≤ 2 ^ 32) (hi : ∀ c, loc ≠ .imm c) :
    ∃ old u, loc.Writable nb s old u ∧ loc.Holds nb v old t ∧ UnchangedOutside loc nb u t ∧
      (loc ≠ .sr → FlagsAfter none u t) ∧ (Memory.wf s.mem = true → Memory.wf t.mem = true) := by
  cases loc with
  | dreg i =>
    obtain ⟨old, u, h1, rfl⟩ := regWriteN_ok_iff.1 h
    obtain ⟨n, -, rfl⟩ := Machine.readOld_ok h1
    exact ⟨old, _, ⟨h1, trivial⟩, by simp [Loc.Holds], (setReg_unchangedOutside _ i _ nb).1,
      fun _ _ => by simp, by simp⟩
  | areg i =>
    obtain ⟨old, u, h1, rfl⟩ := regWriteN_ok_iff.1 h
    obtain ⟨n, -, rfl⟩ := Machine.readOld_ok h1
    exact ⟨old, _, ⟨h1, trivial⟩, by simp [Loc.Holds], (setReg_unchangedOutside _ i _ nb).2,
      fun _ _ => by simp, by simp⟩
  | mem a =>
    have h' : memWrite nb a v s = .ok t := h
    obtain ⟨hacc, ht⟩ := memWrite_ok_iff.1 h'
    refine ⟨0, s, ⟨rfl, hacc⟩, memReadAligned_after_write h' hn hacc.1,
      ⟨?_, ?_, fun b hb => ?_, ?_, ?_, ?_⟩, fun _ x => ?_, memWrite_wf h'⟩
    · simp [ht]
    · simp [ht]
    · exact memWrite_byteAt_of_ne h' b fun k hk e => hb ⟨a, k, rfl, hk, e⟩
    all_goals simp [ht]
  | imm c => exact absurd rfl (hi c)
  | sr =>
    cases h
    exact ⟨0, s, ⟨rfl, trivial⟩, by simp [Loc.Holds], ⟨by simp, by simp, by simp, rfl, rfl, rfl⟩,
      by simp, by simp⟩

/-- A location that can be written is written, once its old value is read. -/
theorem writeLoc_of_writable {loc : Loc} {nb : Nat} (v : BitVec (8 * nb)) {s u : State} {old : Word}
    (h : loc.Writable nb s old u) : ∃ t, writeLoc loc nb v s = .ok t := by
  cases loc with
  | mem a => exact ⟨_, memWrite_ok_iff.2 ⟨h.2, rfl⟩⟩
  | dreg i => exact ⟨_, regWriteN_ok_iff.2 ⟨old, u, h.1, rfl⟩⟩
  | areg i => exact ⟨_, regWriteN_ok_iff.2 ⟨old, u, h.1, rfl⟩⟩
  | imm c => exact absurd h.2 id
  | sr => exact ⟨_, rfl⟩

/-- There is one way to read the old value of a location. -/
theorem Loc.Writable.unique {loc : Loc} {nb : Nat} {s u u' : State} {old old' : Word}
    (h : loc.Writable nb s old u) (h' : loc.Writable nb s old' u') : old' = old ∧ u' = u := by
  have := h.1.symm.trans h'.1
  simp only [Except.ok.injEq, Prod.mk.injEq] at this
  exact ⟨this.1.symm, this.2.symm⟩

theorem setFlagsUnlessSR_eq (loc : Loc) (f : Flags) (s : State) :
    setFlagsUnlessSR loc f s = if loc = .sr then s else s.setFlags f := by
  cases loc <;> simp [setFlagsUnlessSR]

theorem guardDest_ok_iff (c : Config) (ea : EA) (w : Half) :
    guardDest c ea w = .ok () ↔ ea ≠ .imm := by
  by_cases h : ea = .imm <;> simp [guardDest, h]

theorem guardDest_ok {ea : EA} (c : Config) (w : Half) (h : ea ≠ .imm) :
    guardDest c ea w = .ok () :=
  (guardDest_ok_iff c ea w).2 h

/-- A form that is no constant gives no constant. -/
theorem EA.gives_ne_imm {ea : EA} {loc : Loc} (h : EA.gives ea loc) (hi : ea ≠ .imm) (c : Word) :
    loc ≠ .imm c := by
  rintro rfl
  cases ea <;> simp_all [EA.gives]

theorem EA.gives_dreg {ea : EA} {x : RegNum} (h : EA.gives ea (.dreg x)) : ea = .dreg x := by
  cases ea <;> simp_all [EA.gives]

theorem EA.gives_areg {ea : EA} {x : RegNum} (h : EA.gives ea (.areg x)) : ea = .areg x := by
  cases ea <;> simp_all [EA.gives]

theorem EA.gives_sr {ea : EA} (h : EA.gives ea .sr) : ea = .sr := by
  cases ea <;> simp_all [EA.gives]

/-- A read of bytes depends on memory, the parameters and the count of free values only. -/
theorem memRead_setFlags {nb : Nat} {a : Word} {v : BitVec (8 * nb)} {s : State} {f : Flags}
    (h : memRead nb a s = .ok (v, s)) : memRead nb a (s.setFlags f) = .ok (v, s.setFlags f) := by
  have := memReadAligned_congr (s := s) (s' := s.setFlags f) rfl rfl rfl h
  exact this

/-- Writing a result back: the location written, then its flags unless it is SR. -/
theorem writeBack_ok {loc : Loc} {nb : Nat} {r : Computed (8 * nb)} {s t : State}
    (h : writeBack loc nb r s = .ok t) (hn : nb ≤ 2 ^ 32) (hi : ∀ c, loc ≠ .imm c) :
    ∃ old u, loc.Writable nb s old u ∧ WritesResult loc nb r.1 (some r.2) old u t ∧
      (Memory.wf s.mem = true → Memory.wf t.mem = true) := by
  simp only [writeBack, run_bind_ok, run_pure, Except.ok.injEq] at h
  obtain ⟨s1, h1, rfl⟩ := h
  obtain ⟨old, u, hw, hh, hu, -, hm⟩ := writeLoc_ok h1 hn hi
  rw [setFlagsUnlessSR_eq]
  by_cases hs : loc = .sr
  · rw [if_pos hs]
    exact ⟨old, u, hw, ⟨hh, hu, fun h => absurd hs h⟩, hm⟩
  · rw [if_neg hs]
    refine ⟨old, u, hw, ⟨?_, ?_, fun _ _ => by simp⟩, by simpa using hm⟩
    · cases loc with
      | mem a => exact memRead_setFlags hh
      | dreg i => simpa [Loc.Holds] using hh
      | areg i => simpa [Loc.Holds] using hh
      | imm c => exact absurd rfl (hi c)
      | sr => exact absurd rfl hs
    · obtain ⟨u1, u2, u3, u4, u5, u6⟩ := hu
      exact ⟨by simpa using u1, by simpa using u2, by simpa using u3, u4, u5, u6⟩

/-- A result is written back wherever the location can be written. -/
theorem writeBack_of_writable {loc : Loc} {nb : Nat} (r : Computed (8 * nb)) {s u : State}
    {old : Word} (h : loc.Writable nb s old u) (hn : nb ≤ 2 ^ 32) :
    ∃ t, writeBack loc nb r s = .ok t ∧ WritesResult loc nb r.1 (some r.2) old u t := by
  obtain ⟨t, ht⟩ := writeLoc_of_writable r.1 h
  have hb : writeBack loc nb r s = .ok (setFlagsUnlessSR loc r.2 t) := by simp [writeBack, ht]
  obtain ⟨old', u', hw, hr, -⟩ := writeBack_ok hb hn (by rintro c rfl; exact h.2)
  obtain ⟨rfl, rfl⟩ := h.unique hw
  exact ⟨_, hb, hr⟩

/-! ### The shapes of instruction -/

/-- Read, compute, write back: what it did when it answers. -/
theorem modifyEA_ok {w : Half} {ea : EA} {nb : Nat} {f : BitVec (8 * nb) → Computed (8 * nb)}
    {s t : State} (h : modifyEA w ea nb f s = .ok t) :
    ea ≠ .imm ∧ ∃ loc v s1, operand ea nb s = .ok (loc, v, s1) ∧
      writeBack loc nb (f v) s1 = .ok t := by
  simp only [modifyEA, run_bind_ok] at h
  obtain ⟨_, h1, ⟨loc, v, s1⟩, h2, h3⟩ := h
  exact ⟨(guardDest_ok_iff _ _ _).1 h1, loc, v, s1, h2, h3⟩

theorem modifyEA_of_operand {w : Half} {ea : EA} {nb : Nat}
    {f : BitVec (8 * nb) → Computed (8 * nb)} {s s1 : State} {loc : Loc} {v : BitVec (8 * nb)}
    (hi : ea ≠ .imm) (h : operand ea nb s = .ok (loc, v, s1)) :
    modifyEA w ea nb f s = writeBack loc nb (f v) s1 := by
  simp [modifyEA, guardDest_ok s.cfg w hi, h]

/-- Read, with C, compute, write back: what it did when it answers. -/
theorem modifyEACarry_ok {w : Half} {ea : EA} {nb : Nat}
    {f : BitVec (8 * nb) → Bool → Computed (8 * nb)} {s t : State}
    (h : modifyEACarry w ea nb f s = .ok t) :
    ea ≠ .imm ∧ ∃ loc v s1 c s2, operand ea nb s = .ok (loc, v, s1) ∧
      readFlag .c s1 = .ok (c, s2) ∧ writeBack loc nb (f v c) s2 = .ok t := by
  simp only [modifyEACarry, run_bind_ok] at h
  obtain ⟨_, h1, ⟨loc, v, s1⟩, h2, ⟨c, s2⟩, h3, h4⟩ := h
  exact ⟨(guardDest_ok_iff _ _ _).1 h1, loc, v, s1, c, s2, h2, h3, h4⟩

theorem modifyEACarry_of_operand {w : Half} {ea : EA} {nb : Nat}
    {f : BitVec (8 * nb) → Bool → Computed (8 * nb)} {s s1 s2 : State} {loc : Loc}
    {v : BitVec (8 * nb)} {c : Bool} (hi : ea ≠ .imm) (h : operand ea nb s = .ok (loc, v, s1))
    (hc : readFlag .c s1 = .ok (c, s2)) :
    modifyEACarry w ea nb f s = writeBack loc nb (f v c) s2 := by
  simp [modifyEACarry, guardDest_ok s.cfg w hi, h, hc]

/-- `QSHIFT_WIDTH` has one value: a quick shift is the same shape on a 32-bit operand. -/
theorem modifyQuickEA_eq (w : Half) (ea : EA) (f : Word → Computed 32) (s : State) :
    modifyQuickEA w ea f s = modifyEA w ea 4 f s := rfl

theorem modifyQuickEACarry_eq (w : Half) (ea : EA) (f : Word → Bool → Computed 32) (s : State) :
    modifyQuickEACarry w ea f s = modifyEACarry w ea 4 f s := rfl

/-- The same with an immediate. -/
theorem modifyEAImm_ok {w : Half} {ea : EA} {nb : Nat}
    {f : BitVec (8 * nb) → BitVec (8 * nb) → Computed (8 * nb)} {s t : State}
    (h : modifyEAImm w ea nb f s = .ok t) :
    ea ≠ .imm ∧ ∃ loc v imm s1, operandImm ea nb s = .ok (loc, v, imm, s1) ∧
      writeBack loc nb (f v imm) s1 = .ok t := by
  simp only [modifyEAImm, run_bind_ok] at h
  obtain ⟨_, h1, ⟨loc, v, imm, s1⟩, h2, h3⟩ := h
  exact ⟨(guardDest_ok_iff _ _ _).1 h1, loc, v, imm, s1, h2, h3⟩

theorem modifyEAImm_of_operand {w : Half} {ea : EA} {nb : Nat}
    {f : BitVec (8 * nb) → BitVec (8 * nb) → Computed (8 * nb)} {s s1 : State} {loc : Loc}
    {v imm : BitVec (8 * nb)} (hi : ea ≠ .imm)
    (h : operandImm ea nb s = .ok (loc, v, imm, s1)) :
    modifyEAImm w ea nb f s = writeBack loc nb (f v imm) s1 := by
  simp [modifyEAImm, guardDest_ok s.cfg w hi, h]

theorem testEA_ok_iff {ea : EA} {nb : Nat} {f : BitVec (8 * nb) → Computed (8 * nb)}
    {s t : State} :
    testEA ea nb f s = .ok t ↔
      ∃ loc v s1, operand ea nb s = .ok (loc, v, s1) ∧ t = s1.setFlags (f v).2 := by
  simp only [testEA, run_bind_ok, run_pure, Except.ok.injEq, Prod.exists]
  constructor <;> (rintro ⟨l, v, s1, h1, h2⟩; exact ⟨l, v, s1, h1, h2.symm⟩)

theorem computeRy_ok_iff {y : RegNum} {ss : Scale} {ea : EA}
    {f : BitVec (8 * bytes ss) → BitVec (8 * bytes ss) → Computed (8 * bytes ss)} {s t : State} :
    computeRy y ss ea f s = .ok t ↔
      ∃ loc b s1 w s2 old u, operand ea (bytes ss) s = .ok (loc, b, s1) ∧
        readReg (regSel ss) y s1 = .ok (w, s2) ∧ readOld (regSel ss) y (bytes ss) s2 = .ok (old, u) ∧
        t = (u.setReg (regSel ss) y (narrowed s2.cfg.narrowWrite (bytes ss) old
          (f (w.setWidth _) b).1)).setFlags (f (w.setWidth _) b).2 := by
  simp only [computeRy, run_bind_ok, run_pure, Except.ok.injEq, Prod.exists]
  constructor
  · rintro ⟨l, b, s1, h1, a, s2, h2, s3, h3, rfl⟩
    obtain ⟨w, hw, rfl⟩ := readRegN_ok h2
    obtain ⟨old, u, ho, rfl⟩ := regWriteN_ok_iff.1 h3
    exact ⟨l, b, s1, w, s2, old, u, h1, hw, ho, rfl⟩
  · rintro ⟨l, b, s1, w, s2, old, u, h1, h2, h3, rfl⟩
    exact ⟨l, b, s1, h1, _, s2, readRegN_of h2 _, _, regWriteN_ok_iff.2 ⟨old, u, h3, rfl⟩, rfl⟩

theorem shiftDy_ok_iff {kind : ShiftKind} {y : RegNum} {ea : EA} {s t : State} :
    shiftDy kind y ea s = .ok t ↔
      ∃ loc b s1 d u, operand ea 1 s = .ok (loc, b, s1) ∧ readReg .d y s1 = .ok (d, u) ∧
        t = writeDy y (shift kind d (b.setWidth 5)) u := by
  simp only [shiftDy, run_bind_ok, run_pure, Except.ok.injEq, Prod.exists]
  constructor
  · rintro ⟨l, b, s1, h1, d, u, h2, rfl⟩
    exact ⟨l, b, s1, d, u, h1, h2, rfl⟩
  · rintro ⟨l, b, s1, d, u, h1, h2, rfl⟩
    exact ⟨l, b, s1, h1, d, u, h2, rfl⟩

theorem operandsDy_ok_iff {y x : RegNum} {s u : State} {a b : Word} :
    operandsDy y x s = .ok (a, b, u) ↔
      ∃ s1, readReg .d y s = .ok (a, s1) ∧ readReg .d x s1 = .ok (b, u) := by
  simp only [operandsDy, run_bind_ok, run_pure, Except.ok.injEq, Prod.mk.injEq, Prod.exists]
  constructor
  · rintro ⟨a', s1, h1, b', u', h2, rfl, rfl, rfl⟩
    exact ⟨s1, h1, h2⟩
  · rintro ⟨s1, h1, h2⟩
    exact ⟨a, s1, h1, b, u, h2, rfl, rfl, rfl⟩

theorem computeDy_ok_iff {y x : RegNum} {f : Word → Word → Computed 32} {s t : State} :
    computeDy y x f s = .ok t ↔
      ∃ a b u, operandsDy y x s = .ok (a, b, u) ∧ t = writeDy y (f a b) u := by
  simp only [computeDy, run_bind_ok, run_pure, Except.ok.injEq, Prod.exists]
  constructor <;> (rintro ⟨a, b, u, h1, h2⟩; exact ⟨a, b, u, h1, h2.symm⟩)

theorem divideDy_ok_iff {y x : RegNum} {f : Word → Word → Computed 32} {s t : State} :
    divideDy y x f s = .ok t ↔
      ∃ a b u, operandsDy y x s = .ok (a, b, u) ∧ b ≠ 0 ∧ t = writeDy y (f a b) u := by
  simp only [divideDy, run_bind_ok, Prod.exists]
  constructor
  · rintro ⟨a, b, u, h1, h2⟩
    by_cases hb : b = 0
    · simp [hb] at h2
    · rw [if_neg hb] at h2
      cases h2
      exact ⟨a, b, u, h1, hb, rfl⟩
  · rintro ⟨a, b, u, h1, hb, rfl⟩
    exact ⟨a, b, u, h1, by rw [if_neg hb]; rfl⟩

end Sys2Proof.Machine
end

