-- ==== Sys2Proof/Laws/PerInstr.lean ====
section
/-! SUPPORT. What holds of every instruction as syntax: its word stands in its row of the opcode map
(30_encoding.md R83, R94). -/

namespace Sys2Proof.Laws

/-- The instruction word agrees with the match of its row under the mask of its row. -/
def TableRow.Statement (i : Instr) : Prop := encode i &&& i.row.mask = i.row.value

/-! ### The words of each format under their masks -/

/-- Masking word part by word part. -/
theorem and_parts {a b : Nat} {x m z : BitVec a} {y n v : BitVec b} (h : x &&& m = z)
    (k : y &&& n = v) : (x ++ y) &&& (m ++ n) = z ++ v := by
  rw [BitVec.and_append, h, k]

theorem kept {a : Nat} (x : BitVec a) : x &&& BitVec.allOnes a = x := BitVec.and_allOnes

theorem masked {a : Nat} (x : BitVec a) : x &&& 0#a = 0#a := BitVec.and_zero

theorem frame_mask (ss : Scale) (low : BitVec 6) :
    ((0x00#8 ++ (encodeScale ss ++ low) : Half) &&& 0xFF3F#16) = 0x00#8 ++ (0#2 ++ low) :=
  and_parts (kept (0x00#8)) (and_parts (masked (encodeScale ss)) (kept low))

theorem opeaWord_mask (op : BitVec 8) (ss : Scale) (ea : EA) :
    opeaWord op ss ea &&& 0xFF00#16 = op ++ 0#8 :=
  and_parts (kept op) (masked (encodeScale ss ++ encodeEA ea))

theorem cplxWord_mask (p : BitVec 3) (y x : RegNum) :
    cplxWord p y x &&& 0xF8F8#16 = 0b00010#5 ++ (0#3 ++ (0#2 ++ (p ++ 0#3))) :=
  and_parts (kept (0b00010#5)) (and_parts (masked (encodeReg y))
    (and_parts (kept (0b00#2)) (and_parts (kept p) (masked (encodeReg x)))))

theorem shftWord_mask (k : BitVec 2) (y : RegNum) (ea : EA) :
    shftWord k y ea &&& 0xF8C0#16 = 0b00011#5 ++ (0#3 ++ (k ++ 0#6)) :=
  and_parts (kept (0b00011#5)) (and_parts (masked (encodeReg y))
    (and_parts (kept k) (masked (encodeEA ea))))

theorem q8Word_mask (op : BitVec 5) (y : RegNum) (q : BitVec 8) :
    q8Word op y q &&& 0xF800#16 = op ++ (0#3 ++ 0#8) :=
  and_parts (kept op) (and_parts (masked (encodeReg y)) (masked q))

theorem q3Word_mask (op : BitVec 5) (q : BitVec 3) (ss : Scale) (ea : EA) :
    q3Word op q ss ea &&& 0xF800#16 = op ++ (0#3 ++ 0#8) :=
  and_parts (kept op) (and_parts (masked q) (masked (encodeScale ss ++ encodeEA ea)))

theorem qshWord_mask (k : BitVec 2) (q : BitVec 5) (ea : EA) :
    qshWord k q ea &&& 0xF800#16 = 0b011#3 ++ (k ++ (0#5 ++ 0#6)) :=
  and_parts (kept (0b011#3)) (and_parts (kept k) (and_parts (masked q) (masked (encodeEA ea))))

theorem qshWord_mask_count (k : BitVec 2) (q : BitVec 5) (ea : EA) :
    qshWord k q ea &&& 0xFFC0#16 = 0b011#3 ++ (k ++ (q ++ 0#6)) :=
  and_parts (kept (0b011#3)) (and_parts (kept k) (and_parts (kept q) (masked (encodeEA ea))))

theorem reaWord_mask (p : BitVec 3) (y : RegNum) (ss : Scale) (ea : EA) :
    reaWord p y ss ea &&& 0xF800#16 = 0b10#2 ++ (p ++ (0#3 ++ 0#8)) :=
  and_parts (kept (0b10#2)) (and_parts (kept p) (and_parts (masked (encodeReg y))
    (masked (encodeScale ss ++ encodeEA ea))))

theorem condWord_mask (op c : BitVec 4) (low : BitVec 8) :
    ((op ++ (c ++ low) : Half) &&& 0xF000#16) = op ++ (0#4 ++ 0#8) :=
  and_parts (kept op) (and_parts (masked c) (masked low))

/-! ### One lemma per instruction -/

theorem TableRow.nop : TableRow.Statement .nop := rfl

theorem TableRow.rfi : TableRow.Statement .rfi := rfl

theorem TableRow.unlnk : TableRow.Statement .unlnk := rfl

theorem TableRow.rfs (ss : Scale) : TableRow.Statement (.rfs ss) :=
  frame_mask _ _

theorem TableRow.lnk (ss : Scale) : TableRow.Statement (.lnk ss) :=
  frame_mask _ _

theorem TableRow.cmpi (ss : Scale) (ea : EA) : TableRow.Statement (.cmpi ss ea) :=
  opeaWord_mask _ _ _

theorem TableRow.addi (ss : Scale) (ea : EA) : TableRow.Statement (.addi ss ea) :=
  opeaWord_mask _ _ _

theorem TableRow.subi (ss : Scale) (ea : EA) : TableRow.Statement (.subi ss ea) :=
  opeaWord_mask _ _ _

theorem TableRow.xori (ss : Scale) (ea : EA) : TableRow.Statement (.xori ss ea) :=
  opeaWord_mask _ _ _

theorem TableRow.ori (ss : Scale) (ea : EA) : TableRow.Statement (.ori ss ea) :=
  opeaWord_mask _ _ _

theorem TableRow.andi (ss : Scale) (ea : EA) : TableRow.Statement (.andi ss ea) :=
  opeaWord_mask _ _ _

theorem TableRow.sti (ss : Scale) (ea : EA) : TableRow.Statement (.sti ss ea) :=
  opeaWord_mask _ _ _

theorem TableRow.not (ss : Scale) (ea : EA) : TableRow.Statement (.not ss ea) :=
  opeaWord_mask _ _ _

theorem TableRow.neg (ss : Scale) (ea : EA) : TableRow.Statement (.neg ss ea) :=
  opeaWord_mask _ _ _

theorem TableRow.adc (ss : Scale) (ea : EA) : TableRow.Statement (.adc ss ea) :=
  opeaWord_mask _ _ _

theorem TableRow.sbc (ss : Scale) (ea : EA) : TableRow.Statement (.sbc ss ea) :=
  opeaWord_mask _ _ _

theorem TableRow.clr (ss : Scale) (ea : EA) : TableRow.Statement (.clr ss ea) :=
  opeaWord_mask _ _ _

theorem TableRow.rev (ss : Scale) (ea : EA) : TableRow.Statement (.rev ss ea) :=
  opeaWord_mask _ _ _

theorem TableRow.ext (ss : Scale) (ea : EA) : TableRow.Statement (.ext ss ea) :=
  opeaWord_mask _ _ _

theorem TableRow.tst (ss : Scale) (ea : EA) : TableRow.Statement (.tst ss ea) :=
  opeaWord_mask _ _ _

theorem TableRow.mul (y x : RegNum) : TableRow.Statement (.mul y x) :=
  cplxWord_mask _ _ _

theorem TableRow.hmulu (y x : RegNum) : TableRow.Statement (.hmulu y x) :=
  cplxWord_mask _ _ _

theorem TableRow.hmuls (y x : RegNum) : TableRow.Statement (.hmuls y x) :=
  cplxWord_mask _ _ _

theorem TableRow.divu (y x : RegNum) : TableRow.Statement (.divu y x) :=
  cplxWord_mask _ _ _

theorem TableRow.divs (y x : RegNum) : TableRow.Statement (.divs y x) :=
  cplxWord_mask _ _ _

theorem TableRow.modu (y x : RegNum) : TableRow.Statement (.modu y x) :=
  cplxWord_mask _ _ _

theorem TableRow.mods (y x : RegNum) : TableRow.Statement (.mods y x) :=
  cplxWord_mask _ _ _

theorem TableRow.lsl (y : RegNum) (ea : EA) : TableRow.Statement (.lsl y ea) :=
  shftWord_mask _ _ _

theorem TableRow.lsr (y : RegNum) (ea : EA) : TableRow.Statement (.lsr y ea) :=
  shftWord_mask _ _ _

theorem TableRow.asr (y : RegNum) (ea : EA) : TableRow.Statement (.asr y ea) :=
  shftWord_mask _ _ _

theorem TableRow.ror (y : RegNum) (ea : EA) : TableRow.Statement (.ror y ea) :=
  shftWord_mask _ _ _

theorem TableRow.ldq (y : RegNum) (q : BitVec 8) : TableRow.Statement (.ldq y q) :=
  q8Word_mask _ _ _

theorem TableRow.cmpq (y : RegNum) (q : BitVec 8) : TableRow.Statement (.cmpq y q) :=
  q8Word_mask _ _ _

theorem TableRow.addq (q : BitVec 3) (ss : Scale) (ea : EA) : TableRow.Statement (.addq q ss ea) :=
  q3Word_mask _ _ _ _

theorem TableRow.subq (q : BitVec 3) (ss : Scale) (ea : EA) : TableRow.Statement (.subq q ss ea) :=
  q3Word_mask _ _ _ _

theorem TableRow.lslq (q : BitVec 5) (ea : EA) : TableRow.Statement (.lslq q ea) :=
  qshWord_mask _ _ _

theorem TableRow.lsrq (q : BitVec 5) (ea : EA) : TableRow.Statement (.lsrq q ea) :=
  qshWord_mask _ _ _

theorem TableRow.asrq (q : BitVec 5) (ea : EA) : TableRow.Statement (.asrq q ea) :=
  qshWord_mask _ _ _

theorem TableRow.rorq (q : BitVec 5) (ea : EA) : TableRow.Statement (.rorq q ea) :=
  qshWord_mask _ _ _

theorem TableRow.rrc (ea : EA) : TableRow.Statement (.rrc ea) :=
  qshWord_mask_count _ _ _

theorem TableRow.ld (y : RegNum) (ss : Scale) (ea : EA) : TableRow.Statement (.ld y ss ea) :=
  reaWord_mask _ _ _ _

theorem TableRow.cmp (y : RegNum) (ss : Scale) (ea : EA) : TableRow.Statement (.cmp y ss ea) :=
  reaWord_mask _ _ _ _

theorem TableRow.add (y : RegNum) (ss : Scale) (ea : EA) : TableRow.Statement (.add y ss ea) :=
  reaWord_mask _ _ _ _

theorem TableRow.sub (y : RegNum) (ss : Scale) (ea : EA) : TableRow.Statement (.sub y ss ea) :=
  reaWord_mask _ _ _ _

theorem TableRow.xor (y : RegNum) (ss : Scale) (ea : EA) : TableRow.Statement (.xor y ss ea) :=
  reaWord_mask _ _ _ _

theorem TableRow.or (y : RegNum) (ss : Scale) (ea : EA) : TableRow.Statement (.or y ss ea) :=
  reaWord_mask _ _ _ _

theorem TableRow.and (y : RegNum) (ss : Scale) (ea : EA) : TableRow.Statement (.and y ss ea) :=
  reaWord_mask _ _ _ _

theorem TableRow.st (y : RegNum) (ss : Scale) (ea : EA) : TableRow.Statement (.st y ss ea) :=
  reaWord_mask _ _ _ _

theorem TableRow.bcc (cccc : CondCode) (q : BitVec 8) : TableRow.Statement (.bcc cccc q) :=
  condWord_mask _ _ _

theorem TableRow.jcc (cccc : CondCode) (ss : Scale) (ea : EA) : TableRow.Statement (.jcc cccc ss ea) :=
  condWord_mask _ _ _

end Sys2Proof.Laws
end

