-- ==== Sys2Proof/Tests/Slice0.lean ====
section
/-! SUPPORT. Tests: the two checks of WellFormed refuse an ill-formed term, one instruction word of every
constructor written out bit by bit decodes to it, one step of each instruction against the vectors of
spec/95_test_vectors.md (every expected value is the spec's), and for every statement with hypotheses a
state and operands that meet them. -/

open Sys2Proof Sys2Proof.Machine

namespace Sys2Proof.Tests

/-! ### Helpers -/

/-- The bytes of a piece of code in big-endian order. -/
def codeBytes : List Half → List Byte
  | [] => []
  | w :: ws => halfBytes .big w ++ codeBytes ws

/-- The reset state with code at 0x100 and IP there. -/
def start (code : List Half) : State :=
  { State.reset with ip := 0x100, mem := writeBytes [] 0x100 (codeBytes code) }

/-- Some bytes written at an address. -/
def withBytes (a : Word) (bs : List Byte) (s : State) : State := s.setMem (writeBytes s.mem a bs)

/-- The flags as the spec writes them: `nzvc 0b1010` is N=1, Z=0, V=1, C=0. -/
def nzvc (b : BitVec 4) : Flags := ⟨b.getLsbD 3, b.getLsbD 2, b.getLsbD 1, b.getLsbD 0⟩

/-- What is seen of the state after one step, where it completes. -/
def after {α : Type} (s : State) (f : State → α) : Option α :=
  match step s with
  | .next t => some (f t)
  | _ => none

/-- The fault of one step, where it faults. -/
def faultOf (s : State) : Option Fault :=
  match step s with
  | .fault f => some f
  | _ => none

/-- The bytes at an address. -/
def peek (t : State) (a : Word) (n : Nat) : List (Option Byte) :=
  (List.range n).map fun k => t.byteAt (a + BitVec.ofNat 32 k)

/-! ### WellFormed -/

theorem test_wf_refuses_immediate_destination :
    (Instr.addi .w .imm).wf = false ∧ (Instr.st 0 .a .imm).wf = false ∧
      (Instr.rrc .imm).wf = false := by decide

theorem test_wf_refuses_rotate_by_zero : (Instr.rorq 0 (.dreg 3)).wf = false := by decide

theorem test_wf_accepts_immediate_source :
    (Instr.cmpi .h .imm).wf = true ∧ (Instr.jcc 15 .a .imm).wf = true ∧
      (Instr.lslq 0 (.dreg 0)).wf = true := by decide

theorem test_config_wf_refuses_one_register_for_sp_and_bp :
    { Config.default with bpIndex := 7 }.wf = false := by decide

theorem test_config_wf_refuses_two_flags_in_one_place :
    { Config.default with srLayout := ⟨3, 2, 1, 1⟩ }.wf = false := by decide

theorem test_config_wf_refuses_one_byte_immediates_with_aligned_fetches :
    { Config.default with byteImm := .oneByte }.wf = false := by decide

/-! ### Decoding: words written out from 30_encoding.md R81 and R83 -/

theorem test_decode_misc :
    decode 0b0000000000000000#16 = .ok (.nop) ∧
    decode 0b0000000000010000#16 = .ok (.rfi) ∧
    decode 0b0000000000011000#16 = .ok (.unlnk) ∧
    decode 0b0000000010110000#16 = .ok (.rfs .w) ∧
    decode 0b0000000001111000#16 = .ok (.lnk .h) := by decide

theorem test_decode_immediate :
    decode 0b0000000100101110#16 = .ok (.cmpi .b (.base16 6)) ∧
    decode 0b0000001011001101#16 = .ok (.addi .a (.areg 5)) ∧
    decode 0b0000001101100011#16 = .ok (.subi .h (.deferred 3)) ∧
    decode 0b0000010010010100#16 = .ok (.xori .w (.postInc 4)) ∧
    decode 0b0000010100111000#16 = .ok (.ori .b .sr) ∧
    decode 0b0000011010111101#16 = .ok (.andi .w .ip16) ∧
    decode 0b0000011100011111#16 = .ok (.sti .b (.preDec 7)) := by decide

theorem test_decode_single_operand :
    decode 0b0000100000000001#16 = .ok (.not .b (.dreg 1)) ∧
    decode 0b0000100101110010#16 = .ok (.neg .h (.base32 2)) ∧
    decode 0b0000101010111110#16 = .ok (.adc .w .ip32) ∧
    decode 0b0000101111001110#16 = .ok (.sbc .a (.areg 6)) ∧
    decode 0b0000110001101001#16 = .ok (.clr .h (.base16 1)) ∧
    decode 0b0000110110000111#16 = .ok (.rev .w (.dreg 7)) ∧
    decode 0b0000111000111000#16 = .ok (.ext .b .sr) ∧
    decode 0b0000111101111010#16 = .ok (.tst .h .imm) := by decide

theorem test_decode_complex :
    decode 0b0001010100001011#16 = .ok (.mul 5 3) ∧
    decode 0b0001000100010110#16 = .ok (.hmulu 1 6) ∧
    decode 0b0001011000011001#16 = .ok (.hmuls 6 1) ∧
    decode 0b0001001100100100#16 = .ok (.divu 3 4) ∧
    decode 0b0001010000101011#16 = .ok (.divs 4 3) ∧
    decode 0b0001011100110000#16 = .ok (.modu 7 0) ∧
    decode 0b0001000000111111#16 = .ok (.mods 0 7) := by decide

theorem test_decode_shifts :
    decode 0b0001110100000011#16 = .ok (.lsl 5 (.dreg 3)) ∧
    decode 0b0001101101010110#16 = .ok (.lsr 3 (.postInc 6)) ∧
    decode 0b0001111010011001#16 = .ok (.asr 6 (.preDec 1)) ∧
    decode 0b0001100111111010#16 = .ok (.ror 1 .imm) := by decide

theorem test_decode_quick_arithmetic :
    decode 0b0100010110000001#16 = .ok (.ldq 5 0x81) ∧
    decode 0b0100101001111110#16 = .ok (.cmpq 2 0x7E) ∧
    decode 0b0101001111001100#16 = .ok (.addq 3 .a (.areg 4)) ∧
    decode 0b0101110101100010#16 = .ok (.subq 5 .h (.deferred 2)) := by decide

theorem test_decode_quick_shifts :
    decode 0b0110010011000101#16 = .ok (.lslq 19 (.dreg 5)) ∧
    decode 0b0110111111010010#16 = .ok (.lsrq 31 (.postInc 2)) ∧
    decode 0b0111000001001110#16 = .ok (.asrq 1 (.areg 6)) ∧
    decode 0b0111110000101011#16 = .ok (.rorq 16 (.base16 3)) ∧
    decode 0b0111100000110100#16 = .ok (.rrc (.base32 4)) := by decide

theorem test_decode_arithmetic :
    decode 0b1000001111000001#16 = .ok (.ld 3 .a (.dreg 1)) ∧
    decode 0b1000110001010101#16 = .ok (.cmp 4 .h (.postInc 5)) ∧
    decode 0b1001000110011110#16 = .ok (.add 1 .w (.preDec 6)) ∧
    decode 0b1001111000111010#16 = .ok (.sub 6 .b .imm) ∧
    decode 0b1010001010111000#16 = .ok (.xor 2 .w .sr) ∧
    decode 0b1010110101111101#16 = .ok (.or 5 .h .ip16) ∧
    decode 0b1011001100111110#16 = .ok (.and 3 .b .ip32) ∧
    decode 0b1011111011011111#16 = .ok (.st 6 .a (.preDec 7)) := by decide

theorem test_decode_flow_control :
    decode 0b1110011100000010#16 = .ok (.bcc 7 0x02) ∧
    decode 0b1111100101101010#16 = .ok (.jcc 9 .h (.base16 2)) := by decide

theorem test_decode_refuses :
    decode 0x0040#16 = .error (.unlisted 0x0040#16) ∧
      decode 0x1102#16 = .error (.unlisted 0x1102#16) ∧
      decode 0xC000#16 = .error (.unlisted 0xC000#16) ∧
      decode 0x80BB#16 = .error (.reservedEA 0x80BB#16) ∧
      decode 0x02BA#16 = .error (.immediateDestination 0x02BA#16) ∧
      decodeBytes .big [0x00#8] = .error .truncated := by decide

/-! ### The host's word -/

theorem test_table_word_is_decoded_in_both_byte_orders :
    decodeTableWord 16 0x9081 = some (.add 0 .w (.dreg 1)) ∧
      decodeTableWord 16 0x2000 = none := by decide

theorem test_placed_word_runs :
    after (State.reset.withFetchWord 16 0x40FF) (fun t => (t.ip, t.getReg .d 0)) =
      some (2, 0xFFFFFFFF) := by decide

/-! ### One step of each instruction (spec/95_test_vectors.md, V1 to V11) -/

/-- `NOP`. -/
theorem test_nop :
    after ((start [0x0000]).setFlags (nzvc 0b1010))
      (fun t => (t.ip, t.flags)) =
      some (0x102, nzvc 0b1010) := by decide

/-- `UNLNK`. -/
theorem test_unlnk :
    after (((withBytes 0x7FF4 [0x11, 0x11, 0x11, 0x10] (start [0x0018])).setReg .a 6 0x00007FF4).setReg .a 7 0x00007FE4)
      (fun t => (t.ip, t.getReg .a 6, t.getReg .a 7)) =
      some (0x102, 0x11111110, 0x00007FF8) := by decide

/-- `RFS B#4`. -/
theorem test_rfs_byte :
    after ((withBytes 0x7FF4 [0x00, 0x00, 0x10, 0x08] (start [0x0030, 0x0004])).setReg .a 7 0x00007FF4)
      (fun t => (t.ip, t.getReg .a 7)) =
      some (0x1008, 0x00007FFC) := by decide

/-- `RFS H#0xFFFC`. -/
theorem test_rfs_is_zero_extended :
    after ((withBytes 0x7FF4 [0x00, 0x00, 0x10, 0x08] (start [0x0070, 0xFFFC])).setReg .a 7 0x00007FF4)
      (fun t => (t.ip, t.getReg .a 7)) =
      some (0x1008, 0x00017FF4) := by decide

/-- `LNK B#0`. -/
theorem test_lnk :
    after ((((withBytes 0x7FF4 [0x00, 0x00, 0x00, 0x00] (start [0x0038, 0x0000])).setReg .a 6 0x11111110).setReg .a 7 0x00007FF8).setFlags (nzvc 0b0101))
      (fun t => (t.ip, t.getReg .a 6, t.getReg .a 7, peek t 0x7FF4 4)) =
      some (0x104, 0x00007FF4, 0x00007FF4, [some 0x11, some 0x11, some 0x11, some 0x10]) := by decide

/-- `LNK B#255`. -/
theorem test_lnk_is_zero_extended :
    after (((withBytes 0x7FF4 [0x00, 0x00, 0x00, 0x00] (start [0x0038, 0x00FF])).setReg .a 6 0x11111110).setReg .a 7 0x00007FF8)
      (fun t => (t.ip, t.getReg .a 6, t.getReg .a 7, peek t 0x7FF4 4)) =
      some (0x104, 0x00007FF4, 0x00007EF5, [some 0x11, some 0x11, some 0x11, some 0x10]) := by decide

/-- `CMPI B D0, #0x80`. -/
theorem test_cmpi_byte_overflow :
    after (((start [0x0100, 0x0080]).setReg .d 0 0x0000007F).setFlags (nzvc 0b0000))
      (fun t => (t.ip, t.getReg .d 0, t.flags)) =
      some (0x104, 0x0000007F, nzvc 0b1011) := by decide

/-- `CMPI H#5, #5`. -/
theorem test_cmpi_immediate_operand :
    after ((start [0x013A, 0x0005, 0x0005]).setFlags (nzvc 0b0000))
      (fun t => (t.ip, t.flags)) =
      some (0x106, nzvc 0b0100) := by decide

/-- `ADDI B D0, #1`. -/
theorem test_addi_byte_sign_extends :
    after (((start [0x0200, 0x0001]).setReg .d 0 0x1234567F).setFlags (nzvc 0b0000))
      (fun t => (t.ip, t.getReg .d 0, t.flags)) =
      some (0x104, 0xFFFFFF80, nzvc 0b1010) := by decide

/-- `ADDI A A0, #0x10`. -/
theorem test_addi_address_scale :
    after (((start [0x02C8, 0x0000, 0x0010]).setReg .a 0 0xFFFFFFF8).setFlags (nzvc 0b0000))
      (fun t => (t.ip, t.getReg .a 0, t.flags)) =
      some (0x106, 0x00000008, nzvc 0b0001) := by decide

/-- `SUBI H(A0), #1`. -/
theorem test_subi_memory_borrow :
    after (((withBytes 0x2000 [0x00, 0x00] (start [0x0360, 0x0001])).setReg .a 0 0x00002000).setFlags (nzvc 0b0000))
      (fun t => (t.ip, peek t 0x2000 2, t.flags)) =
      some (0x104, [some 0xFF, some 0xFF], nzvc 0b1001) := by decide

/-- `SUBI W D0, #1`. -/
theorem test_subi_overflow :
    after (((start [0x0380, 0x0000, 0x0001]).setReg .d 0 0x80000000).setFlags (nzvc 0b0000))
      (fun t => (t.ip, t.getReg .d 0, t.flags)) =
      some (0x106, 0x7FFFFFFF, nzvc 0b0010) := by decide

/-- `XORI W D0, #0xFFFFFFFF`. -/
theorem test_xori :
    after (((start [0x0480, 0xFFFF, 0xFFFF]).setReg .d 0 0x0F0F0F0F).setFlags (nzvc 0b0011))
      (fun t => (t.ip, t.getReg .d 0, t.flags)) =
      some (0x106, 0xF0F0F0F0, nzvc 0b1000) := by decide

/-- `ORI H D0, #0x8000`. -/
theorem test_ori :
    after (((start [0x0540, 0x8000]).setReg .d 0 0x00010001).setFlags (nzvc 0b0000))
      (fun t => (t.ip, t.getReg .d 0, t.flags)) =
      some (0x104, 0xFFFF8001, nzvc 0b1000) := by decide

/-- `ORI B SR, #1`. -/
theorem test_ori_to_sr :
    after ((start [0x0538, 0x0001]).setFlags (nzvc 0b0000))
      (fun t => (t.ip, t.flags)) =
      some (0x104, nzvc 0b0001) := by decide

/-- `ANDI W(A0), #0xFFFF0000`. -/
theorem test_andi_memory :
    after (((withBytes 0x2000 [0x12, 0x34, 0x56, 0x78] (start [0x06A0, 0xFFFF, 0x0000])).setReg .a 0 0x00002000).setFlags (nzvc 0b1111))
      (fun t => (t.ip, peek t 0x2000 4, t.flags)) =
      some (0x106, [some 0x12, some 0x34, some 0x00, some 0x00], nzvc 0b0000) := by decide

/-- `ANDI B SR, #0x0E`. -/
theorem test_andi_to_sr :
    after ((start [0x0638, 0x000E]).setFlags (nzvc 0b1011))
      (fun t => (t.ip, t.flags)) =
      some (0x104, nzvc 0b1010) := by decide

/-- `STI B(--A7), #6`. -/
theorem test_sti_push :
    after (((withBytes 0x7FFC [0xAA, 0xAA, 0xAA, 0xAA] (start [0x071F, 0x0006])).setReg .a 7 0x00008000).setFlags (nzvc 0b1010))
      (fun t => (t.ip, t.getReg .a 7, peek t 0x7FFC 4, t.flags)) =
      some (0x104, 0x00007FFC, [some 0x06, some 0xAA, some 0xAA, some 0xAA], nzvc 0b1010) := by decide

/-- `STI W(IP+4), #1`. -/
theorem test_sti_ip_relative :
    after (start [0x07BD, 0x0004, 0x0000, 0x0001, 0xAAAA, 0xAAAA])
      (fun t => (t.ip, peek t 0x108 4)) =
      some (0x108, [some 0x00, some 0x00, some 0x00, some 0x01]) := by decide

/-- `NOT B D0`. -/
theorem test_not_byte :
    after (((start [0x0800]).setReg .d 0 0x123456F0).setFlags (nzvc 0b0011))
      (fun t => (t.ip, t.getReg .d 0, t.flags)) =
      some (0x102, 0x0000000F, nzvc 0b0000) := by decide

/-- `NOT W(A0)`. -/
theorem test_not_memory :
    after (((withBytes 0x2000 [0x00, 0x00, 0x00, 0x00] (start [0x08A0])).setReg .a 0 0x00002000).setFlags (nzvc 0b0000))
      (fun t => (t.ip, peek t 0x2000 4, t.flags)) =
      some (0x102, [some 0xFF, some 0xFF, some 0xFF, some 0xFF], nzvc 0b1000) := by decide

/-- `NEG W D0`. -/
theorem test_neg_most_negative :
    after (((start [0x0980]).setReg .d 0 0x80000000).setFlags (nzvc 0b0000))
      (fun t => (t.ip, t.getReg .d 0, t.flags)) =
      some (0x102, 0x80000000, nzvc 0b1011) := by decide

/-- `NEG B D0`. -/
theorem test_neg_byte :
    after (((start [0x0900]).setReg .d 0 0x00000001).setFlags (nzvc 0b0000))
      (fun t => (t.ip, t.getReg .d 0, t.flags)) =
      some (0x102, 0xFFFFFFFF, nzvc 0b1001) := by decide

/-- `ADC W D0`. -/
theorem test_adc_carry_in_and_out :
    after (((start [0x0A80]).setReg .d 0 0xFFFFFFFF).setFlags (nzvc 0b0001))
      (fun t => (t.ip, t.getReg .d 0, t.flags)) =
      some (0x102, 0x00000000, nzvc 0b0101) := by decide

/-- `ADC H D0`. -/
theorem test_adc_halfword_overflow :
    after (((start [0x0A40]).setReg .d 0 0x00007FFF).setFlags (nzvc 0b0001))
      (fun t => (t.ip, t.getReg .d 0, t.flags)) =
      some (0x102, 0xFFFF8000, nzvc 0b1010) := by decide

/-- `SBC W D0`. -/
theorem test_sbc_borrow_in :
    after (((start [0x0B80]).setReg .d 0 0x00000000).setFlags (nzvc 0b0001))
      (fun t => (t.ip, t.getReg .d 0, t.flags)) =
      some (0x102, 0xFFFFFFFF, nzvc 0b1001) := by decide

/-- `SBC W D0`. -/
theorem test_sbc_not_borrow :
    after ({ ((start [0x0B80]).setReg .d 0 0x00000000).setFlags (nzvc 0b0001) with cfg := { Config.default with subCarry := .notBorrow } })
      (fun t => (t.ip, t.getReg .d 0, t.flags)) =
      some (0x102, 0x00000000, nzvc 0b0101) := by decide

/-- `CLR H(A0)`. -/
theorem test_clr_memory :
    after (((withBytes 0x2000 [0xFF, 0xFF, 0xFF, 0xFF] (start [0x0C60])).setReg .a 0 0x00002000).setFlags (nzvc 0b1011))
      (fun t => (t.ip, peek t 0x2000 4, t.flags)) =
      some (0x102, [some 0x00, some 0x00, some 0xFF, some 0xFF], nzvc 0b1011) := by decide

/-- `CLR B D0`. -/
theorem test_clr_byte :
    after (((start [0x0C00]).setReg .d 0 0x12345678).setFlags (nzvc 0b1011))
      (fun t => (t.ip, t.getReg .d 0, t.flags)) =
      some (0x102, 0x00000000, nzvc 0b1011) := by decide

/-- `REV H D0`. -/
theorem test_rev_halfword :
    after (((start [0x0D40]).setReg .d 0 0x00001234).setFlags (nzvc 0b0011))
      (fun t => (t.ip, t.getReg .d 0, t.flags)) =
      some (0x102, 0x00002C48, nzvc 0b0000) := by decide

/-- `REV B D0`. -/
theorem test_rev_byte :
    after (((start [0x0D00]).setReg .d 0 0x00000001).setFlags (nzvc 0b0011))
      (fun t => (t.ip, t.getReg .d 0, t.flags)) =
      some (0x102, 0xFFFFFF80, nzvc 0b1000) := by decide

/-- `EXT H D0`. -/
theorem test_ext_halfword :
    after (((start [0x0E40]).setReg .d 0 0x12348000).setFlags (nzvc 0b0000))
      (fun t => (t.ip, t.getReg .d 0, t.flags)) =
      some (0x102, 0xFFFF8000, nzvc 0b1000) := by decide

/-- `EXT B D0`. -/
theorem test_ext_under_preserve :
    after ({ ((start [0x0E00]).setReg .d 0 0x12345680).setFlags (nzvc 0b0000) with cfg := { Config.default with narrowWrite := .preserve } })
      (fun t => (t.ip, t.getReg .d 0, t.flags)) =
      some (0x102, 0xFFFFFF80, nzvc 0b1000) := by decide

/-- `TST B(A0)`. -/
theorem test_tst_memory :
    after (((withBytes 0x2000 [0x80] (start [0x0F20])).setReg .a 0 0x00002000).setFlags (nzvc 0b0011))
      (fun t => (t.ip, t.getReg .a 0, t.flags)) =
      some (0x102, 0x00002000, nzvc 0b1000) := by decide

/-- `TST H#0x7FFF`. -/
theorem test_tst_immediate :
    after ((start [0x0F7A, 0x7FFF]).setFlags (nzvc 0b1111))
      (fun t => (t.ip, t.flags)) =
      some (0x104, nzvc 0b0000) := by decide

/-- `MUL D1, D2`. -/
theorem test_mul_zero_product :
    after ((((start [0x110A]).setReg .d 1 0x00010000).setReg .d 2 0x00010000).setFlags (nzvc 0b1011))
      (fun t => (t.ip, t.getReg .d 1, t.flags)) =
      some (0x102, 0x00000000, nzvc 0b0100) := by decide

/-- `MUL D1, D2`. -/
theorem test_mul :
    after ((((start [0x110A]).setReg .d 1 0x00000078).setReg .d 2 0x00000006).setFlags (nzvc 0b1111))
      (fun t => (t.ip, t.getReg .d 1, t.flags)) =
      some (0x102, 0x000002D0, nzvc 0b0000) := by decide

/-- `HMULU D1, D2`. -/
theorem test_hmulu :
    after ((((start [0x1112]).setReg .d 1 0xFFFFFFFF).setReg .d 2 0xFFFFFFFF).setFlags (nzvc 0b0000))
      (fun t => (t.ip, t.getReg .d 1, t.flags)) =
      some (0x102, 0xFFFFFFFE, nzvc 0b1000) := by decide

/-- `HMULU D1, D2`. -/
theorem test_hmulu_small :
    after ((((start [0x1112]).setReg .d 1 0x80000000).setReg .d 2 0x00000002).setFlags (nzvc 0b0000))
      (fun t => (t.ip, t.getReg .d 1, t.flags)) =
      some (0x102, 0x00000001, nzvc 0b0000) := by decide

/-- `HMULS D1, D2`. -/
theorem test_hmuls_minus_one_squared :
    after ((((start [0x111A]).setReg .d 1 0xFFFFFFFF).setReg .d 2 0xFFFFFFFF).setFlags (nzvc 0b0000))
      (fun t => (t.ip, t.getReg .d 1, t.flags)) =
      some (0x102, 0x00000000, nzvc 0b0100) := by decide

/-- `HMULS D1, D2`. -/
theorem test_hmuls_negative :
    after ((((start [0x111A]).setReg .d 1 0x80000000).setReg .d 2 0x00000002).setFlags (nzvc 0b0000))
      (fun t => (t.ip, t.getReg .d 1, t.flags)) =
      some (0x102, 0xFFFFFFFF, nzvc 0b1000) := by decide

/-- `DIVU D1, D2`. -/
theorem test_divu :
    after ((((start [0x1122]).setReg .d 1 0xFFFFFFF9).setReg .d 2 0x00000002).setFlags (nzvc 0b0000))
      (fun t => (t.ip, t.getReg .d 1, t.flags)) =
      some (0x102, 0x7FFFFFFC, nzvc 0b0000) := by decide

/-- `DIVS D1, D2`. -/
theorem test_divs_toward_zero :
    after ((((start [0x112A]).setReg .d 1 0xFFFFFFF9).setReg .d 2 0x00000002).setFlags (nzvc 0b0000))
      (fun t => (t.ip, t.getReg .d 1, t.flags)) =
      some (0x102, 0xFFFFFFFD, nzvc 0b1000) := by decide

/-- `DIVS D1, D2`. -/
theorem test_divs_overflow :
    after ((((start [0x112A]).setReg .d 1 0x80000000).setReg .d 2 0xFFFFFFFF).setFlags (nzvc 0b0000))
      (fun t => (t.ip, t.getReg .d 1, t.flags)) =
      some (0x102, 0x80000000, nzvc 0b1010) := by decide

/-- `MODU D1, D2`. -/
theorem test_modu :
    after ((((start [0x1132]).setReg .d 1 0xFFFFFFF9).setReg .d 2 0x00000002).setFlags (nzvc 0b0000))
      (fun t => (t.ip, t.getReg .d 1, t.flags)) =
      some (0x102, 0x00000001, nzvc 0b0000) := by decide

/-- `MODS D1, D2`. -/
theorem test_mods_sign_of_dividend :
    after ((((start [0x113A]).setReg .d 1 0xFFFFFFF9).setReg .d 2 0x00000002).setFlags (nzvc 0b0000))
      (fun t => (t.ip, t.getReg .d 1, t.flags)) =
      some (0x102, 0xFFFFFFFF, nzvc 0b1000) := by decide

/-- `MODS D1, D2`. -/
theorem test_mods_negative_divisor :
    after ((((start [0x113A]).setReg .d 1 0x00000007).setReg .d 2 0xFFFFFFFE).setFlags (nzvc 0b0000))
      (fun t => (t.ip, t.getReg .d 1, t.flags)) =
      some (0x102, 0x00000001, nzvc 0b0000) := by decide

/-- `LSL D0, D1`. -/
theorem test_lsl_count_modulo_32 :
    after ((((start [0x1801]).setReg .d 0 0x80000001).setReg .d 1 0x00000021).setFlags (nzvc 0b0000))
      (fun t => (t.ip, t.getReg .d 0, t.flags)) =
      some (0x102, 0x00000002, nzvc 0b0001) := by decide

/-- `LSL D0, #31`. -/
theorem test_lsl_immediate :
    after (((start [0x183A, 0x001F]).setReg .d 0 0x00000003).setFlags (nzvc 0b0000))
      (fun t => (t.ip, t.getReg .d 0, t.flags)) =
      some (0x104, 0x80000000, nzvc 0b1001) := by decide

/-- `LSR D0, (A1++)`. -/
theorem test_lsr_byte_count_in_memory :
    after ((((withBytes 0x2000 [0x04] (start [0x1851])).setReg .d 0 0x000000F0).setReg .a 1 0x00002000).setFlags (nzvc 0b0000))
      (fun t => (t.ip, t.getReg .d 0, t.getReg .a 1, t.flags)) =
      some (0x102, 0x0000000F, 0x00002001, nzvc 0b0000) := by decide

/-- `LSR D0, (--A7)`. -/
theorem test_lsr_count_from_stack :
    after ((((withBytes 0x2000 [0x05] (start [0x185F])).setReg .d 0 0x000000F0).setReg .a 7 0x00002004).setFlags (nzvc 0b0000))
      (fun t => (t.ip, t.getReg .d 0, t.getReg .a 7, t.flags)) =
      some (0x102, 0x00000007, 0x00002000, nzvc 0b0001) := by decide

/-- `ASR D0, D1`. -/
theorem test_asr :
    after ((((start [0x1881]).setReg .d 0 0x80000001).setReg .d 1 0x00000001).setFlags (nzvc 0b0000))
      (fun t => (t.ip, t.getReg .d 0, t.flags)) =
      some (0x102, 0xC0000000, nzvc 0b1001) := by decide

/-- `ASR D0, D1`. -/
theorem test_asr_positive :
    after ((((start [0x1881]).setReg .d 0 0x7FFFFFFF).setReg .d 1 0x00000004).setFlags (nzvc 0b0000))
      (fun t => (t.ip, t.getReg .d 0, t.flags)) =
      some (0x102, 0x07FFFFFF, nzvc 0b0001) := by decide

/-- `ROR D0, D1`. -/
theorem test_ror :
    after ((((start [0x18C1]).setReg .d 0 0x12345678).setReg .d 1 0x00000008).setFlags (nzvc 0b0011))
      (fun t => (t.ip, t.getReg .d 0, t.flags)) =
      some (0x102, 0x78123456, nzvc 0b0000) := by decide

/-- `ROR D0, D1`. -/
theorem test_ror_by_zero :
    after ((((start [0x18C1]).setReg .d 0 0x80000000).setReg .d 1 0x00000000).setFlags (nzvc 0b0011))
      (fun t => (t.ip, t.getReg .d 0, t.flags)) =
      some (0x102, 0x80000000, nzvc 0b1000) := by decide

/-- `LDQ D0, #-1`. -/
theorem test_ldq_negative :
    after ((start [0x40FF]).setFlags (nzvc 0b1010))
      (fun t => (t.ip, t.getReg .d 0, t.flags)) =
      some (0x102, 0xFFFFFFFF, nzvc 0b1010) := by decide

/-- `LDQ D7, #-128`. -/
theorem test_ldq_most_negative :
    after (start [0x4780])
      (fun t => (t.ip, t.getReg .d 7)) =
      some (0x102, 0xFFFFFF80) := by decide

/-- `CMPQ D0, #-128`. -/
theorem test_cmpq_overflow :
    after (((start [0x4880]).setReg .d 0 0x7FFFFFFF).setFlags (nzvc 0b0000))
      (fun t => (t.ip, t.getReg .d 0, t.flags)) =
      some (0x102, 0x7FFFFFFF, nzvc 0b1011) := by decide

/-- `CMPQ D0, #-1`. -/
theorem test_cmpq_minus_one :
    after (((start [0x48FF]).setReg .d 0 0xFFFFFFFF).setFlags (nzvc 0b0000))
      (fun t => (t.ip, t.getReg .d 0, t.flags)) =
      some (0x102, 0xFFFFFFFF, nzvc 0b0100) := by decide

/-- `ADDQ A A0, #8`. -/
theorem test_addq_eight :
    after (((start [0x57C8]).setReg .a 0 0xFFFFFFFC).setFlags (nzvc 0b0000))
      (fun t => (t.ip, t.getReg .a 0, t.flags)) =
      some (0x102, 0x00000004, nzvc 0b0001) := by decide

/-- `ADDQ B D0, #1`. -/
theorem test_addq_byte_carry :
    after (((start [0x5000]).setReg .d 0 0x000000FF).setFlags (nzvc 0b0000))
      (fun t => (t.ip, t.getReg .d 0, t.flags)) =
      some (0x102, 0x00000000, nzvc 0b0101) := by decide

/-- `SUBQ B(A0), #1`. -/
theorem test_subq_memory_borrow :
    after (((withBytes 0x2000 [0x00] (start [0x5820])).setReg .a 0 0x00002000).setFlags (nzvc 0b0000))
      (fun t => (t.ip, peek t 0x2000 1, t.flags)) =
      some (0x102, [some 0xFF], nzvc 0b1001) := by decide

/-- `SUBQ H(A0++), #8`. -/
theorem test_subq_steps_once :
    after (((withBytes 0x2000 [0x00, 0x08] (start [0x5F50])).setReg .a 0 0x00002000).setFlags (nzvc 0b0000))
      (fun t => (t.ip, t.getReg .a 0, peek t 0x2000 2, t.flags)) =
      some (0x102, 0x00002002, [some 0x00, some 0x00], nzvc 0b0100) := by decide

/-- `LSLQ D0, #31`. -/
theorem test_lslq_31 :
    after (((start [0x67C0]).setReg .d 0 0x00000003).setFlags (nzvc 0b0000))
      (fun t => (t.ip, t.getReg .d 0, t.flags)) =
      some (0x102, 0x80000000, nzvc 0b1001) := by decide

/-- `LSLQ D0, #0`. -/
theorem test_lslq_zero :
    after (((start [0x6000]).setReg .d 0 0x80000000).setFlags (nzvc 0b0011))
      (fun t => (t.ip, t.getReg .d 0, t.flags)) =
      some (0x102, 0x80000000, nzvc 0b1000) := by decide

/-- `LSRQ (A0), #4`. -/
theorem test_lsrq_memory :
    after (((withBytes 0x2000 [0x12, 0x34, 0x56, 0x78] (start [0x6920])).setReg .a 0 0x00002000).setFlags (nzvc 0b0000))
      (fun t => (t.ip, peek t 0x2000 4, t.flags)) =
      some (0x102, [some 0x01, some 0x23, some 0x45, some 0x67], nzvc 0b0001) := by decide

/-- `LSRQ (A0++), #1`. -/
theorem test_lsrq_steps_by_four :
    after (((withBytes 0x2000 [0x00, 0x00, 0x00, 0x01] (start [0x6850])).setReg .a 0 0x00002000).setFlags (nzvc 0b0000))
      (fun t => (t.ip, t.getReg .a 0, peek t 0x2000 4, t.flags)) =
      some (0x102, 0x00002004, [some 0x00, some 0x00, some 0x00, some 0x00], nzvc 0b0101) := by decide

/-- `ASRQ D0, #1`. -/
theorem test_asrq :
    after (((start [0x7040]).setReg .d 0 0x80000001).setFlags (nzvc 0b0000))
      (fun t => (t.ip, t.getReg .d 0, t.flags)) =
      some (0x102, 0xC0000000, nzvc 0b1001) := by decide

/-- `ASRQ A1, #4`. -/
theorem test_asrq_address_register :
    after (((start [0x7109]).setReg .a 1 0xFFFFFF00).setFlags (nzvc 0b0000))
      (fun t => (t.ip, t.getReg .a 1, t.flags)) =
      some (0x102, 0xFFFFFFF0, nzvc 0b1000) := by decide

/-- `RORQ D0, #8`. -/
theorem test_rorq_8 :
    after (((start [0x7A00]).setReg .d 0 0x12345678).setFlags (nzvc 0b0011))
      (fun t => (t.ip, t.getReg .d 0, t.flags)) =
      some (0x102, 0x78123456, nzvc 0b0000) := by decide

/-- `RORQ D0, #1`. -/
theorem test_rorq_1 :
    after (((start [0x7840]).setReg .d 0 0x00000001).setFlags (nzvc 0b0000))
      (fun t => (t.ip, t.getReg .d 0, t.flags)) =
      some (0x102, 0x80000000, nzvc 0b1001) := by decide

/-- `RRC D0`. -/
theorem test_rrc_takes_carry :
    after (((start [0x7800]).setReg .d 0 0x00000002).setFlags (nzvc 0b0001))
      (fun t => (t.ip, t.getReg .d 0, t.flags)) =
      some (0x102, 0x80000001, nzvc 0b1000) := by decide

/-- `RRC (A0)`. -/
theorem test_rrc_memory :
    after (((withBytes 0x2000 [0x00, 0x00, 0x00, 0x03] (start [0x7820])).setReg .a 0 0x00002000).setFlags (nzvc 0b0000))
      (fun t => (t.ip, peek t 0x2000 4, t.flags)) =
      some (0x102, [some 0x00, some 0x00, some 0x00, some 0x01], nzvc 0b0001) := by decide

/-- `LD D2, B(A6+8)`. -/
theorem test_ld_byte_sign_extends :
    after (((withBytes 0x7FF8 [0xFA] (start [0x822E, 0x0008])).setReg .a 6 0x00007FF0).setFlags (nzvc 0b0000))
      (fun t => (t.ip, t.getReg .d 2, t.flags)) =
      some (0x104, 0xFFFFFFFA, nzvc 0b0000) := by decide

/-- `LD A0, A(A0++)`. -/
theorem test_ld_wins_over_increment :
    after ((withBytes 0x2000 [0x12, 0x34, 0x56, 0x78] (start [0x80D0])).setReg .a 0 0x00002000)
      (fun t => (t.ip, t.getReg .a 0)) =
      some (0x102, 0x12345678) := by decide

/-- `CMP D0, W D1`. -/
theorem test_cmp_overflow :
    after ((((start [0x8881]).setReg .d 0 0x80000000).setReg .d 1 0x00000001).setFlags (nzvc 0b0000))
      (fun t => (t.ip, t.getReg .d 0, t.flags)) =
      some (0x102, 0x80000000, nzvc 0b0010) := by decide

/-- `CMP A0, A A1`. -/
theorem test_cmp_address_scale :
    after ((((start [0x88C9]).setReg .a 0 0x00001000).setReg .a 1 0x00002000).setFlags (nzvc 0b0000))
      (fun t => (t.ip, t.getReg .a 0, t.flags)) =
      some (0x102, 0x00001000, nzvc 0b1001) := by decide

/-- `ADD D0, W D1`. -/
theorem test_add_overflow :
    after ((((start [0x9081]).setReg .d 0 0x7FFFFFFF).setReg .d 1 0x00000001).setFlags (nzvc 0b0000))
      (fun t => (t.ip, t.getReg .d 0, t.flags)) =
      some (0x102, 0x80000000, nzvc 0b1010) := by decide

/-- `ADD D0, H(A0++)`. -/
theorem test_add_halfword_post_increment :
    after ((((withBytes 0x2000 [0x00, 0x01] (start [0x9050])).setReg .d 0 0x0001FFFF).setReg .a 0 0x00002000).setFlags (nzvc 0b0000))
      (fun t => (t.ip, t.getReg .d 0, t.getReg .a 0, t.flags)) =
      some (0x102, 0x00000000, 0x00002002, nzvc 0b0101) := by decide

/-- `SUB D0, W#1`. -/
theorem test_sub_borrow :
    after (((start [0x98BA, 0x0000, 0x0001]).setReg .d 0 0x00000000).setFlags (nzvc 0b0000))
      (fun t => (t.ip, t.getReg .d 0, t.flags)) =
      some (0x106, 0xFFFFFFFF, nzvc 0b1001) := by decide

/-- `SUB D0, W D1`. -/
theorem test_sub_zero :
    after ((((start [0x9881]).setReg .d 0 0x00000005).setReg .d 1 0x00000005).setFlags (nzvc 0b0000))
      (fun t => (t.ip, t.getReg .d 0, t.flags)) =
      some (0x102, 0x00000000, nzvc 0b0100) := by decide

/-- `XOR D0, W D0`. -/
theorem test_xor :
    after (((start [0xA080]).setReg .d 0 0x12345678).setFlags (nzvc 0b1011))
      (fun t => (t.ip, t.getReg .d 0, t.flags)) =
      some (0x102, 0x00000000, nzvc 0b0100) := by decide

/-- `OR D0, B#0x80`. -/
theorem test_or_byte_sign_extends :
    after (((start [0xA83A, 0x0080]).setReg .d 0 0x00000001).setFlags (nzvc 0b0011))
      (fun t => (t.ip, t.getReg .d 0, t.flags)) =
      some (0x104, 0xFFFFFF81, nzvc 0b1000) := by decide

/-- `AND D0, H#0x0F0F`. -/
theorem test_and_halfword :
    after (((start [0xB07A, 0x0F0F]).setReg .d 0 0xFFFF1234).setFlags (nzvc 0b1111))
      (fun t => (t.ip, t.getReg .d 0, t.flags)) =
      some (0x104, 0x00000204, nzvc 0b0000) := by decide

/-- `ST B(A0), D1`. -/
theorem test_st_byte :
    after (((withBytes 0x2000 [0x00, 0x00, 0x00, 0x00] (start [0xB920])).setReg .d 1 0x12345678).setReg .a 0 0x00002001)
      (fun t => (t.ip, peek t 0x2000 4)) =
      some (0x102, [some 0x00, some 0x78, some 0x00, some 0x00]) := by decide

/-- `ST A(--A7), A7`. -/
theorem test_st_decremented_register :
    after ((withBytes 0x7FFC [0x00, 0x00, 0x00, 0x00] (start [0xBFDF])).setReg .a 7 0x00008000)
      (fun t => (t.ip, t.getReg .a 7, peek t 0x7FFC 4)) =
      some (0x102, 0x00007FFC, [some 0x00, some 0x00, some 0x7F, some 0xFC]) := by decide

/-- `BSR #+2`. -/
theorem test_bcc_call :
    after ((withBytes 0x7FFC [0x00, 0x00, 0x00, 0x00] (start [0xE702])).setReg .a 7 0x00008000)
      (fun t => (t.ip, t.getReg .a 7, peek t 0x7FFC 4)) =
      some (0x104, 0x00007FFC, [some 0x00, some 0x00, some 0x01, some 0x02]) := by decide

/-- `BPL #-128`. -/
theorem test_bcc_most_negative_offset :
    after ((withBytes 0x200 (codeBytes [0xE080]) ((start []).setIp 0x200)).setFlags (nzvc 0b0000))
      (fun t => (t.ip, t.flags)) =
      some (0x182, nzvc 0b0000) := by decide

/-- `JSR A(A7++)`. -/
theorem test_jcc_call_through_stack :
    after ((withBytes 0x8FFC [0x00, 0x00, 0x70, 0x00] (start [0xF7D7])).setReg .a 7 0x00008FFC)
      (fun t => (t.ip, peek t 0x8FFC 4)) =
      some (0x7000, [some 0x00, some 0x00, some 0x01, some 0x02]) := by decide

/-- `JEQ A(A1++)`. -/
theorem test_jcc_not_taken_does_not_step :
    after (((withBytes 0x2000 [0x00, 0x00, 0x50, 0x00] (start [0xF9D1])).setReg .a 1 0x00002000).setFlags (nzvc 0b0000))
      (fun t => (t.ip, t.getReg .a 1, t.flags)) =
      some (0x102, 0x00002000, nzvc 0b0000) := by decide

/-- RFI (41_miscellaneous.md R161): refused by its name. -/
theorem test_rfi_is_refused :
    (match step (start [0x0010]) with
      | .refused r => some r
      | _ => none) = some (.refused "RFI") := by decide

/-- `DIVU D1, D2` with D2 = 0 (V4). -/
theorem test_divu_by_zero :
    faultOf ((start [0x1122]).setReg .d 1 7) = some .divideByZero := by decide

/-! ### The hypotheses of the statements can be met

`witness_<Name>` shows a state and operands that meet the hypotheses of `Obligations.<Name>`; where a
statement has several clauses, one conjunct or one theorem for each, at a boundary of its range. -/

/-- Two bytes of memory at 0x2000 and 0x2002 under A0, and a stack at 0x8000. -/
def scene (code : List Half) : State :=
  ((withBytes 0x2000 [0x12, 0x34, 0x56, 0x78] (start code)).setReg .a 0 0x2000).setSp 0x8000

/-- The same under the other value of every parameter that changes an access. -/
def sceneAny : State :=
  { scene [] with cfg :=
      { Config.default with byteOrder := .little, align := .allow, unwrittenRead := .anyValue,
                            byteImm := .oneByte, haltWord := none } }

/-- Code at 0x100 and IP there; no register, flag or other byte has been written. -/
def bare (code : List Half) : State :=
  { State.launch Config.default Launch.nothing with
      ip := 0x100, mem := writeBytes [] 0x100 (codeBytes code) }

/-- The same, where a read of what is unwritten gives a free value. -/
def bareAny : State :=
  { bare [] with cfg := { Config.default with unwrittenRead := .anyValue } }

/-- Only these bytes are populated. -/
def onlyMapped (l : List Region) (s : State) : State := { s with cfg := { s.cfg with memMap := l } }

theorem witness_EncodeThenDecode :
    (Instr.jcc 15 .a .ip32).wf = true ∧ (Instr.rorq 31 (.base32 7)).wf = true ∧
      (Instr.bcc 0 0).wf = true := by decide

theorem witness_DecodeThenEncode :
    decode 0xFFFE#16 = .ok (.jcc 15 .a .ip32) ∧ decode 0x0000#16 = .ok .nop := by decide

theorem witness_StepRunsDecodedInstruction :
    Accessible (start [0x9081]) 2 2 0x100 ∧ (start [0x9081]).byteAt 0x100 = some 0x90 ∧
      (start [0x9081]).byteAt 0x101 = some 0x81 ∧
      decodeBytes .big [0x90#8, 0x81#8] = .ok (.add 0 .w (.dreg 1), []) ∧
      (start [0x9081]).cfg.haltWord ≠ some (bytesHalf .big 0x90#8 0x81#8) := by decide

theorem witness_StepStopsAtHaltAndIllegalWords :
    (Accessible (start [0xE7FE]) 2 2 0x100 ∧
      (start [0xE7FE]).cfg.haltWord = some (bytesHalf .big 0xE7#8 0xFE#8)) ∧
      (start [0x0001]).cfg.haltWord ≠ some 0x0001#16 ∧
      decode 0x0001#16 = .error (.unlisted 0x0001#16) := by decide

theorem witness_InstructionFetchFaults :
    let odd := (start []).setIp 0x101
    let unmapped := onlyMapped [] (start [])
    let half := onlyMapped [⟨0x100, 1⟩] (start [])
    let unwritten := start []
    let partly := withBytes 0x100 [0x90] (start [])
    (odd.cfg.align = .fault ∧ odd.ip.toNat % 2 = 1) ∧
      (unmapped.ip.toNat % 2 = 0 ∧ mapped unmapped.cfg unmapped.ip = false) ∧
      (mapped half.cfg half.ip = true ∧ mapped half.cfg (half.ip + 1) = false) ∧
      (Accessible unwritten 2 2 unwritten.ip ∧ unwritten.byteAt unwritten.ip = none) ∧
      (Accessible partly 2 2 partly.ip ∧ partly.byteAt partly.ip ≠ none ∧
        partly.byteAt (partly.ip + 1) = none) := by decide

theorem witness_StoreSeenByNextFetch :
    (∃ t, memWrite 2 0xFFFFFFFE (encode .unlnk) State.reset = .ok t) ∧
      State.reset.cfg.haltWord ≠ some (encode .unlnk) := ⟨⟨_, rfl⟩, by decide⟩

/-- A write read back at alignment 2; extension words at IP in both byte orders, one at an address that
is even and no multiple of 4 (30_encoding.md R85). -/
theorem witness_ReadAfterWriteReturnsValue :
    let s := (scene [0x8028, 0x8000, 0x0001]).setIp 0x102
    let u := { sceneAny with mem := s.mem, ip := 0x103 }
    ((∃ t, memWrite 4 0xFFFFFFFC 0x12345678#32 State.reset = .ok t) ∧
      (∃ t, memWrite 1 0x00000003 0x9A#8 State.reset = .ok t) ∧ (0xFFFFFFFC#32).toNat % 2 = 0) ∧
      (Accessible s 2 2 s.ip ∧ HoldsValue s 2 s.ip (0x8000#16)) ∧
      (Accessible s 2 4 s.ip ∧ HoldsValue s 4 s.ip (0x80000001#32)) ∧
      (Accessible u 2 2 u.ip ∧ HoldsValue u 2 u.ip (0x0000#16) ∧
        HoldsValue u 2 0x102 (0x0080#16)) :=
  ⟨⟨⟨_, rfl⟩, ⟨_, rfl⟩, by decide⟩, by decide, by decide, by decide⟩

/-- Under both byte orders; the second wraps past the top of the address space. -/
theorem witness_WriteLaysOutBytes :
    (∃ t, memWrite 4 0xFFFFFFFC 0x12345678#32 (scene []) = .ok t) ∧
      (∃ t, memWrite 4 0xFFFFFFFE 0x12345678#32 sceneAny = .ok t) ∧
      (scene []).cfg.byteOrder = .big ∧ sceneAny.cfg.byteOrder = .little :=
  ⟨⟨_, rfl⟩, ⟨_, rfl⟩, rfl, rfl⟩

theorem witness_AccessAnswersExactlyWhen :
    (scene []).cfg.unwrittenRead = .fault ∧ Accessible (scene []) 4 4 0x2000 ∧
      Written (scene []) 4 0x2000 ∧ ¬ Accessible (scene []) 4 4 0x2002 ∧
      ¬ Written (scene []) 4 0x2004 := by decide

theorem witness_ImpossibleAccessFaults :
    ((scene []).cfg.align = .fault ∧ (0x2003#32).toNat % 4 ≠ 0) ∧
      mapped (onlyMapped [⟨0x2000, 3⟩] (scene [])).cfg (byteAddr 0x2000 3) = false ∧
      (∀ k, k < 3 → mapped (onlyMapped [⟨0x2000, 3⟩] (scene [])).cfg (byteAddr 0x2000 k) = true) ∧
      mapped (onlyMapped [] sceneAny).cfg (byteAddr 0xFFFFFFFF 0) = false := by decide

/-- For each clause a state that meets it: bytes, a register, a flag, and each family of reads. -/
theorem witness_UnwrittenReads :
    let s := withBytes 0x3000 [1, 2, 3] (scene [])
    (Accessible s 4 4 0x3000 ∧ s.byteAt (byteAddr 0x3000 3) = none ∧
      ∀ k, k < 3 → s.byteAt (byteAddr 0x3000 k) ≠ none) ∧
      (Accessible sceneAny 4 4 0x1FFE ∧ sceneAny.cfg.unwrittenRead = .anyValue) ∧
      (s.regAt .a 0 = some 0x2000 ∧ s.flagAt .c = some false) ∧
      ((bare []).regAt .a 7 = none ∧ (bare []).flagAt .v = none ∧
        (bare []).cfg.unwrittenRead = .fault) ∧
      (bareAny.regAt .d 0 = none ∧ bareAny.flagAt .n = none ∧
        bareAny.cfg.unwrittenRead = .anyValue) := by decide

theorem witness_UnwrittenReads_by_instruction :
    let s := (bare [0x0038, 0x0010]).setIp 0x102
    let u := s.setReg .d 1 1
    let v := (bare []).setReg .d 0 1
    let w := { bare [] with flagsWritten := ⟨true, true, false, false⟩ }
    let p := { s with cfg := { Config.default with narrowWrite := .preserve } }
    let b := s.setReg .a 6 1
    (u.regAt .d 1 ≠ none ∧ u.regAt .d 2 = none) ∧
      operand .imm (bytes .h) s = .ok (.imm 0x10, 0x10#16, s.setIp 0x104) ∧
      (s.regAt (regSel .h) 0 = none ∧ (0 : RegNum) ∉ (EA.imm).stepped) ∧
      (operand (.dreg 0) (bytes .w) v = .ok (.dreg 0, 1#32, v) ∧ v.flagAt .c = none ∧
        EA.dreg 0 ≠ .imm) ∧
      operand .imm 1 s = .ok (.imm 0x10, 0x10#8, s.setIp 0x104) ∧
      (evalEA (.dreg 0) (bytes .w) s = .ok (.dreg 0, s) ∧ (0 : RegNum) ∉ (EA.dreg 0).stepped) ∧
      (w.flagAt .v = none ∧ (∀ y ∈ [FlagName.n, .z], w.flagAt y ≠ none) ∧
        [FlagName.n, .z, .v, .c] = [.n, .z] ++ .v :: [.c] ∧
        condFlags 0b1110#4 = [.n] ++ .v :: [.z] ∧ condFlags 0b0100#4 = [] ++ .c :: [.z]) ∧
      (operand (.dreg 0) (bytes .w) v = .ok (.dreg 0, 1#32, v) ∧
        v.regAt .a v.cfg.spIndex = none) ∧
      (operand .imm (bytes .b) p = .ok (.imm 0x10, 0x10#8, p.setIp 0x104) ∧
        p.cfg.narrowWrite = .preserve ∧ bytes .b ≠ 4 ∧ p.regAt (regSel .b) 0 = none) ∧
      fetchFrameImm .b s = .ok (0x10#32, s.setIp 0x104) ∧
      (fetchFrameImm .b b = .ok (0x10#32, b.setIp 0x104) ∧ b.regAt .a b.cfg.spIndex = none ∧
        b.regAt .a b.cfg.bpIndex ≠ none) :=
  ⟨by decide, rfl, by decide, ⟨rfl, rfl, by decide⟩, rfl, ⟨rfl, by decide⟩, by decide, ⟨rfl, rfl⟩,
    ⟨rfl, by decide⟩, rfl, rfl, by decide⟩

/-- INIT_SP given and INIT_BP not; a register and a flag left out; one address supplied twice, once past the top of the space. -/
theorem witness_LaunchStateHoldsWhatIsSupplied :
    let p : Launch :=
      { Launch.zeros with
          sp := some 0x8000, d := Launch.zeros.d.set 1 none, v := none,
          mem := [(5, 1), (0x100000005, 2)] }
    Config.default.wf = true ∧ p.sp = some 0x8000 ∧ p.bp = none ∧
      (p.d[(0 : RegNum)] = some 0 ∧ p.d[(1 : RegNum)] = none ∧ p.flag .n = some false ∧
        p.flag .v = none) ∧
      suppliedByte p.mem 5 = some 2 ∧ suppliedByte p.mem 6 = none ∧
      (5 : RegNum) ≠ Config.default.spIndex ∧ (5 : RegNum) ≠ Config.default.bpIndex := by decide

theorem witness_StepKeepsInvariant :
    (scene [0x06A0, 0xFFFF, 0x0000]).wf = true ∧
      ∃ t, step (scene [0x06A0, 0xFFFF, 0x0000]) = .next t := ⟨by decide, _, rfl⟩

theorem witness_StepKeepsParameters :
    (∃ t, step (scene [0x80A0]) = .next t) ∧ (scene [0x80A0]).cfg.unwrittenRead = .fault :=
  ⟨⟨_, rfl⟩, rfl⟩

theorem witness_NarrowWriteBits :
    OperandSize 1 ∧ 31 < 32 ∧ ¬ 8 < 8 * 1 ∧ 7 < 8 * 1 ∧ OperandSize 4 ∧ 31 < 8 * 4 := by decide

theorem witness_StatusRegisterReadsBack :
    (SrLayout.mk 7 0 3 6).distinct = true ∧ OperandSize 1 ∧
      (srValue (SrLayout.mk 7 0 3 6) (nzvc 0b1000)).getLsbD 7 = true ∧
      ((scene []).cfg.srLayout.distinct = true ∧
        ∀ x ∈ [FlagName.n, .z, .v, .c],
          ((scene []).setFlags (nzvc 0b1010)).flagAt x = some ((nzvc 0b1010).get x)) := by decide

theorem witness_DisplacementForms :
    let s := (scene [0x8028, 0x8000, 0x0001]).setIp 0x102
    memReadAligned .fetch 2 2 s.ip s = .ok (0x8000#16, s) ∧
      memReadAligned .fetch 2 4 s.ip s = .ok (0x80000001#32, s) ∧
      readReg .a 0 s = .ok (0x2000, s) := ⟨rfl, rfl, rfl⟩

theorem witness_DataRegisterForm :
    readReg .d 0 (scene []) = .ok (0, scene []) ∧ readOld .d 0 1 (scene []) = .ok (0, scene []) ∧
      (scene []).regAt .d 0 = some 0 := ⟨rfl, rfl, rfl⟩

theorem witness_AddressRegisterForm :
    readReg .a 0 (scene []) = .ok (0x2000, scene []) ∧
      readOld .a 0 4 (scene []) = .ok (0, scene []) ∧ (scene []).regAt .a 0 = some 0x2000 :=
  ⟨rfl, rfl, rfl⟩

/-- A written register, and an unwritten one that reads as a free value. -/
theorem witness_DeferredForm :
    readReg .a 0 (scene []) = .ok (0x2000, scene []) ∧ ∃ a s, readReg .a 0 bareAny = .ok (a, s) :=
  ⟨rfl, _, _, rfl⟩

/-- For SP, whose step is its own. -/
theorem witness_SteppingForms :
    (scene []).regAt .a 7 = some 0x8000 ∧ (7 : RegNum) = (scene []).cfg.spIndex ∧
      readReg .a 7 (scene []) = .ok (0x8000, scene []) ∧
      ∃ a s, readReg .a 7 bareAny = .ok (a, s) := ⟨rfl, rfl, rfl, _, _, rfl⟩

theorem witness_ImmediateForm :
    let s := (scene [0x803A, 0xFF80, 0x1234]).setIp 0x102
    let u := { sceneAny with mem := s.mem, ip := 0x103 }
    (s.cfg.byteImm = .halfword ∧ memReadAligned .fetch 2 2 s.ip s = .ok (0xFF80#16, s)) ∧
      (u.cfg.byteImm = .oneByte ∧ memReadAligned .fetch 1 1 u.ip u = .ok (0x80#8, u)) ∧
      memReadAligned .fetch 2 4 s.ip s = .ok (0xFF801234#32, s) ∧
      fetchImm 1 s = .ok (0x80#8, s.setIp 0x104) := ⟨⟨rfl, rfl⟩, ⟨rfl, rfl⟩, rfl, rfl⟩

/-- A form with extension words that can be fetched, one that cannot; a cell that can be read, one that
cannot; a register and the flags written, and not. -/
theorem witness_OperandReadableExactlyWhen :
    let s := (scene [0x80BA, 0x1234, 0x5678]).setIp 0x102
    s.cfg.unwrittenRead = .fault ∧ OperandSize 4 ∧
      (Accessible s (min 2 (extLen s.cfg 4 .imm)) (extLen s.cfg 4 .imm) s.ip ∧
        Written s (extLen s.cfg 4 .imm) s.ip) ∧
      ¬ Written (s.setIp 0x104) (extLen s.cfg 4 .ip32) 0x104 ∧
      (Accessible s 4 4 0x2000 ∧ Written s 4 0x2000) ∧ ¬ Accessible s 4 4 0x2001 ∧
      (s.regAt .d 0 ≠ none ∧ s.flagAt .z ≠ none) ∧
      (bare []).regAt .a 0 = none ∧ (bare []).flagAt .z = none := by decide

theorem witness_OperandReadFrame :
    operand (.postInc 0) 2 (scene []) =
      .ok (.mem 0x2000, 0x1234#16, (scene []).setReg .a 0 0x2002) := rfl

theorem witness_FlagFunctionsAreExact : 0 < 1 ∧ 0 < 32 := by decide

theorem witness_ConditionsAfterCompare :
    0 < 1 ∧ (SubCarry.borrow = .borrow) ∧ (SubCarry.notBorrow = .notBorrow) := by decide

/-- A memory location, a register and SR, each with the immediate after it. -/
theorem witness_ImmediateArithmeticResults :
    let s := (scene [0x0260, 0x0001]).setIp 0x102
    let t := s.setIp 0x104
    (operandImm (.deferred 0) 2 s = .ok (.mem 0x2000, 0x1234#16, 0x0001#16, t) ∧
      (Loc.mem 0x2000).Writable 2 t 0 t) ∧
      (operandImm (.areg 0) 2 s = .ok (.areg 0, 0x2000#16, 0x0001#16, t) ∧
        (Loc.areg 0).Writable 2 t 0 t) ∧
      (operandImm .sr 2 s = .ok (.sr, 0x0000#16, 0x0001#16, t) ∧ Loc.sr.Writable 2 t 0 t) :=
  ⟨⟨rfl, rfl, by decide⟩, ⟨rfl, rfl, trivial⟩, rfl, rfl, trivial⟩

theorem witness_ComparesSetFlagsOnly :
    let s := (scene [0x013A, 0x0005, 0x0006]).setIp 0x102
    operandImm .imm 2 s = .ok (.imm 5, 5#16, 6#16, s.setIp 0x106) ∧
      operand .imm 2 s = .ok (.imm 5, 5#16, s.setIp 0x104) ∧
      readReg (regSel .h) 7 (s.setIp 0x104) = .ok (0, s.setIp 0x104) ∧
      readReg .d 7 s = .ok (0, s) := ⟨rfl, rfl, rfl, rfl⟩

/-- The destination of a store need not have been written. -/
theorem witness_StoreResults :
    let s := (scene [0x071F, 0x0006]).setIp 0x102
    let t := (s.setReg .a 7 0x7FFC).setIp 0x104
    (evalEAImm (.preDec 7) 1 s = .ok (.mem 0x7FFC, 6#8, t) ∧ (Loc.mem 0x7FFC).Writable 1 t 0 t ∧
      t.byteAt 0x7FFC = none) ∧
      evalEA (.preDec 7) 1 s = .ok (.mem 0x7FFC, s.setReg .a 7 0x7FFC) ∧
      readReg (regSel .b) 0 (s.setReg .a 7 0x7FFC) = .ok (0, s.setReg .a 7 0x7FFC) ∧
      (Loc.mem 0x7FFC).Writable 1 (s.setReg .a 7 0x7FFC) 0 (s.setReg .a 7 0x7FFC) :=
  ⟨⟨rfl, ⟨rfl, by decide⟩, by decide⟩, rfl, rfl, rfl, by decide⟩

/-- A memory cell at each operand size, a register and SR. -/
theorem witness_SingleOperandResults :
    let s := scene []
    (operand (.deferred 0) 1 s = .ok (.mem 0x2000, 0x12#8, s) ∧ (Loc.mem 0x2000).Writable 1 s 0 s) ∧
      (operand (.deferred 0) 2 s = .ok (.mem 0x2000, 0x1234#16, s) ∧
        (Loc.mem 0x2000).Writable 2 s 0 s) ∧
      (operand (.deferred 0) 4 s = .ok (.mem 0x2000, 0x12345678#32, s) ∧
        (Loc.mem 0x2000).Writable 4 s 0 s) ∧
      (operand (.dreg 0) 4 s = .ok (.dreg 0, 0#32, s) ∧ operand .sr 1 s = .ok (.sr, 0#8, s)) ∧
      readFlag .c s = .ok (false, s) :=
  ⟨⟨rfl, rfl, by decide⟩, ⟨rfl, rfl, by decide⟩, ⟨rfl, rfl, by decide⟩, ⟨rfl, rfl⟩, rfl⟩

theorem witness_ReverseResult :
    operand (.deferred 0) 4 (scene []) = .ok (.mem 0x2000, 0x12345678#32, scene []) ∧
      (Loc.mem 0x2000).Writable 4 (scene []) 0 (scene []) ∧ (scene []).cfg.revFn = .bitReverse ∧
      ({ Config.default with revFn := .byteReverse }).revFn = .byteReverse :=
  ⟨rfl, ⟨rfl, by decide⟩, rfl, rfl⟩

theorem witness_ExtendResult :
    operand (.areg 0) 1 (scene []) = .ok (.areg 0, 0#8, scene []) ∧
      EA.areg 0 ≠ .imm ∧
      operand (.deferred 0) 2 (scene []) = .ok (.mem 0x2000, 0x1234#16, scene []) ∧
      Accessible (scene []) 2 2 0x2000 := ⟨rfl, by decide, rfl, by decide⟩

/-- The two registers may be one. -/
theorem witness_ProductResults :
    readReg .d 1 (scene []) = .ok (0, scene []) ∧ readReg .d 2 (scene []) = .ok (0, scene []) :=
  ⟨rfl, rfl⟩

theorem witness_DivisionResults :
    let s := (scene []).setReg .d 2 0xFFFFFFFF
    readReg .d 1 s = .ok (0, s) ∧ readReg .d 2 s = .ok (0xFFFFFFFF, s) ∧ 0xFFFFFFFF#32 ≠ 0 :=
  ⟨rfl, rfl, by decide⟩

theorem witness_RegisterShiftResults :
    operand (.postInc 0) 1 (scene []) =
      .ok (.mem 0x2000, 0x12#8, (scene []).setReg .a 0 0x2001) ∧
      readReg .d 3 ((scene []).setReg .a 0 0x2001) = .ok (0, (scene []).setReg .a 0 0x2001) :=
  ⟨rfl, rfl⟩

theorem witness_QuickShiftResults :
    let t := (scene []).setReg .a 0 0x2004
    operand (.postInc 0) 4 (scene []) = .ok (.mem 0x2000, 0x12345678#32, t) ∧
      (Loc.mem 0x2000).Writable 4 t 0 t ∧ 31#5 ≠ 0#5 ∧ readFlag .c t = .ok (false, t) :=
  ⟨rfl, ⟨rfl, by decide⟩, by decide, rfl⟩

theorem witness_QuickAddSubtractResults :
    operand (.areg 7) 4 (scene []) = .ok (.areg 7, 0x8000#32, scene []) ∧
      (Loc.areg 7).Writable 4 (scene []) 0 (scene []) := ⟨rfl, rfl, trivial⟩

theorem witness_RegisterArithmeticResults :
    let t := (scene []).setReg .a 0 0x2004
    operand (.postInc 0) (bytes .a) (scene []) = .ok (.mem 0x2000, 0x12345678#32, t) ∧
      readReg .a 0 t = .ok (0x2004, t) ∧ readOld .a 0 (bytes .a) t = .ok (0, t) := ⟨rfl, rfl, rfl⟩

theorem witness_BranchResults :
    let s := (bare []).setSp 0x8000
    (∀ x ∈ condFlags 0b1110#4, (scene []).flagAt x = some ((nzvc 0).get x)) ∧
      readCond 0b1000#4 (scene []) = .ok (false, scene []) ∧
      readCond 0b0000#4 (scene []) = .ok (true, scene []) ∧ 0b0000#4 ≠ 0b0111#4 ∧
      readSp s = .ok (0x8000, s) ∧ Accessible s 4 4 0x7FFC :=
  ⟨by decide, rfl, rfl, by decide, rfl, by decide⟩

theorem witness_JumpResults :
    let s := (scene [0xF7FA, 0x0000, 0x5040]).setIp 0x102
    readCond 0b1001#4 s = .ok (false, s) ∧
      operand .imm (bytes .a) s = .ok (.imm 0x5040, 0x5040#32, s.setIp 0x106) ∧
      s.cfg.jccKindBy = .scale ∧ readCond 0b0111#4 s = .ok (true, s) ∧
      readSp (s.setIp 0x106) = .ok (0x8000, s.setIp 0x106) ∧
      Accessible (s.setIp 0x106) 4 4 0x7FFC :=
  ⟨rfl, rfl, rfl, rfl, rfl, by decide⟩

theorem witness_SpecialConditionCodes :
    let s := (scene [0xF7BA, 0x0000, 0x0010]).setIp 0x102
    (readSp s = .ok (0x8000, s) ∧ Accessible s 4 4 (0x8000 - 4)) ∧
      operand .imm (bytes .w) s = .ok (.imm 0x10, 0x10#32, s.setIp 0x106) ∧
      readSp (s.setIp 0x106) = .ok (0x8000, s.setIp 0x106) ∧
      Accessible (s.setIp 0x106) 4 4 (0x8000 - 4) := ⟨⟨rfl, by decide⟩, rfl, rfl, by decide⟩

theorem witness_LinkResult :
    let s := (scene [0x0038, 0x00FF]).setIp 0x102
    let t := s.setIp 0x104
    fetchImm (bytes .b) s = .ok (0xFF#8, t) ∧ readBp t = .ok (0, t) ∧ readSp t = .ok (0x8000, t) ∧
      Accessible s 4 4 (0x8000 - 4) ∧ s.cfg.spIndex ≠ s.cfg.bpIndex :=
  ⟨rfl, rfl, rfl, by decide, by decide⟩

theorem witness_UnlinkAndReturnResults :
    let s := ((scene [0x0030, 0x0004]).setIp 0x102).setBp 0x2000
    let u := s.setSp 0x2000
    readBp s = .ok (0x2000, s) ∧ memRead 4 0x2000 s = .ok (0x12345678#32, s) ∧
      fetchImm (bytes .b) u = .ok (0x04#8, u.setIp 0x104) ∧
      (u.setIp 0x104).regAt .a u.cfg.spIndex = some 0x2000 ∧
      memRead 4 0x2000 (u.setIp 0x104) = .ok (0x12345678#32, u.setIp 0x104) :=
  ⟨rfl, rfl, rfl, rfl, rfl⟩

/-- The state LNK leaves meets the conditions on `u` itself. -/
theorem witness_LinkThenUnlinkRestores :
    let s := (scene [0x0038, 0x00FF]).setIp 0x102
    s.cfg.spIndex ≠ s.cfg.bpIndex ∧ s.regAt .a s.cfg.spIndex = some 0x8000 ∧
      s.regAt .a s.cfg.bpIndex = some 0 ∧ ∃ t, exec (.lnk .b) s = .next t :=
  ⟨by decide, rfl, rfl, _, rfl⟩

/-- The state the call left, with an RFS word and its immediate at IP and IP past the word. -/
theorem witness_CallThenReturnComesBack :
    let s := (scene [0xE702, 0x0000, 0x0030, 0x0004]).setIp 0x102
    let j := (scene [0xF7FA, 0x0000, 0x0200]).setIp 0x102
    (readSp s = .ok (0x8000, s) ∧ ∃ t imm u, exec (.bcc 0b0111#4 0x02#8) s = .next t ∧
      fetchFrameImm .b (t.setIp 0x106) = .ok (imm, u) ∧
      (t.setIp 0x106).regAt .a t.cfg.spIndex = t.regAt .a t.cfg.spIndex ∧
      (t.setIp 0x106).cfg = t.cfg) ∧
      operand .imm (bytes .a) j = .ok (.imm 0x200, 0x200#32, j.setIp 0x106) ∧
      readSp (j.setIp 0x106) = .ok (0x8000, j.setIp 0x106) ∧
      ∃ t, exec (.jcc 0b0111#4 .a .imm) j = .next t :=
  ⟨⟨rfl, _, _, _, rfl, rfl, rfl, rfl⟩, rfl, rfl, _, rfl⟩

theorem witness_RegisterFrame :
    ∃ t, exec (.ld 0 .a (.postInc 1)) ((scene []).setReg .a 1 0x2000) = .next t := ⟨_, rfl⟩

theorem witness_FlagFrame :
    (∃ t, exec (.st 0 .w (.deferred 0)) (scene []) = .next t) ∧
      (Instr.st 0 .w (.deferred 0)).writesFlags = false := ⟨⟨_, rfl⟩, rfl⟩

/-- A store of a halfword, with the byte just past it. -/
theorem witness_MemoryFrame :
    (∃ t, exec (.st 0 .h (.deferred 0)) (scene []) = .next t) ∧
      ¬ StoresTo (.st 0 .h (.deferred 0)) (scene []) 0x2002 := by
  refine ⟨⟨_, rfl⟩, ?_⟩
  rintro ⟨a, n, k, h, hk, he⟩
  have e1 : eaStore (.st 0 .h (.deferred 0)) (scene []) = some (0x2000, 2) := rfl
  have e2 : pushStore (.st 0 .h (.deferred 0)) (scene []) = none := rfl
  simp only [e1, e2, Option.some.injEq, Prod.mk.injEq, reduceCtorEq, or_false] at h
  obtain ⟨rfl, rfl⟩ := h
  interval_cases k <;> revert he <;> decide

theorem witness_InstructionPointerFrame :
    (∃ t, exec (.addi .w (.base16 0)) (scene [0x0004, 0x0000, 0x0001] |>.setIp 0x100
        |> withBytes 0x2004 [0, 0, 0, 0]) = .next t) ∧
      (Instr.addi .w (.base16 0)).transfersControl = false := ⟨⟨_, rfl⟩, rfl⟩

theorem witness_OnlyRfiHasNoMeaning :
    (Instr.rfi).wf = true ∧ (Instr.jcc 7 .a .ip32).wf = true := by decide

/-! ### Reads of registers and flags that the launch left unwritten -/

/-- `LD D0, W(A1)`, `ADC W D0`, `MUL D1, D2`, `RRC D0`, `BEQ #+16` and `LNK B#0` (V1, V3, V4, V7, V9, V11). -/
theorem test_unwritten_reads :
    faultOf (bare [0x80A1]) = some (.unwrittenRead (.register .a 1)) ∧
      faultOf ((bare [0x0A80]).setReg .d 0 1) = some (.unwrittenRead (.flag .c)) ∧
      faultOf ((bare [0x110A]).setReg .d 1 1) = some (.unwrittenRead (.register .d 2)) ∧
      faultOf ((bare [0x7800]).setReg .d 0 1) = some (.unwrittenRead (.flag .c)) ∧
      faultOf (bare [0xE910]) = some (.unwrittenRead (.flag .z)) ∧
      faultOf ((withBytes 0x7FF4 [0, 0, 0, 0] (bare [0x0038, 0x0000])).setReg .a 7 0x7FF8) =
        some (.unwrittenRead (.register .a 6)) := by decide

/-- `JEQ H(A1+4)` with Z = 0: "not taken: A1 (unwritten) is not read". -/
theorem test_jcc_not_taken_reads_no_operand :
    after ((bare [0xF969, 0x0004]).setFlags (nzvc 0)) (fun t => t.ip) = some 0x104 := by decide

/-- The state after reset is the launch state that the log's values give (log 2 to 6). -/
theorem test_reset_is_a_launch_state :
    State.reset = State.launch Config.default Launch.zeros := by decide

end Sys2Proof.Tests
end

section
/-! PROOF. No operation, no instruction and no step changes a parameter or, under
`UNWRITTEN_READ = fault`, draws a free value (00_scope.md R12, 10_state.md R30). There is one transitive
relation between states; every operation of the model stays inside it, and so does every instruction
made of operations. -/

namespace Sys2Proof.Machine

/-! ### The relation -/

/-- From `s` to `t` no parameter has changed, and free values have been drawn under
`UNWRITTEN_READ = any_value` only. -/
structure KeepsParameters (s t : State) : Prop where
  cfg : t.cfg = s.cfg
  reads : Draws s t.freeReads

namespace KeepsParameters

theorem refl (s : State) : KeepsParameters s s := ⟨rfl, .none s⟩

theorem trans {s t u : State} (h : KeepsParameters s t) (k : KeepsParameters t u) :
    KeepsParameters s u where
  cfg := k.cfg.trans h.cfg
  reads hc := (k.reads (h.cfg ▸ hc)).trans (h.reads hc)

/-- What every lemma about a read says is enough. -/
theorem of_withReads {s t : State} (h : ∃ n, Draws s n ∧ t = s.withReads n) :
    KeepsParameters s t := by
  obtain ⟨n, d, rfl⟩ := h
  exact ⟨rfl, d⟩

/-- What every lemma about the instruction stream says is enough. -/
theorem of_stream {s t : State} {a : Word} (h : ∃ n, Draws s n ∧ t = (s.withReads n).setIp a) :
    KeepsParameters s t := by
  obtain ⟨n, d, rfl⟩ := h
  exact ⟨rfl, d⟩

theorem of_operandFrame {ext : Nat} {stepped : List RegNum} {s t : State}
    (h : OperandFrame ext stepped s t) : KeepsParameters s t := ⟨h.cfg, h.reads⟩

/-- An update that leaves both fields is inside the relation. -/
theorem of_eq {s t u : State} (h : KeepsParameters s t) (hc : u.cfg = t.cfg)
    (hr : u.freeReads = t.freeReads) : KeepsParameters s u :=
  ⟨hc.trans h.cfg, fun hf => hr.trans (h.reads hf)⟩

section
variable {s t : State} (h : KeepsParameters s t)
include h

theorem setReg (f : RegFile) (i : RegNum) (v : Word) : KeepsParameters s (t.setReg f i v) :=
  h.of_eq (setReg_cfg ..) (setReg_freeReads ..)

theorem setSp (v : Word) : KeepsParameters s (t.setSp v) :=
  h.of_eq (setSp_cfg ..) (setSp_freeReads ..)

theorem setBp (v : Word) : KeepsParameters s (t.setBp v) :=
  h.of_eq (setBp_cfg ..) (setBp_freeReads ..)

theorem setIp (v : Word) : KeepsParameters s (t.setIp v) :=
  h.of_eq (setIp_cfg ..) (setIp_freeReads ..)

theorem setFlags (f : Flags) : KeepsParameters s (t.setFlags f) :=
  h.of_eq (setFlags_cfg ..) (setFlags_freeReads ..)

theorem setMem (m : Memory) : KeepsParameters s (t.setMem m) :=
  h.of_eq (setMem_cfg ..) (setMem_freeReads ..)

theorem setFlagsUnlessSR (loc : Loc) (f : Flags) :
    KeepsParameters s (setFlagsUnlessSR loc f t) := by
  rw [setFlagsUnlessSR_eq]
  split
  · exact h
  · exact h.setFlags f

theorem writeDy (y : RegNum) (r : Computed 32) : KeepsParameters s (writeDy y r t) :=
  (h.setReg .d y r.1).setFlags r.2

end

end KeepsParameters

/-! ### Reading -/

theorem readReg_keepsParameters {f : RegFile} {i : RegNum} {s t : State} {v : Word}
    (h : readReg f i s = .ok (v, t)) : KeepsParameters s t := .of_withReads (readReg_ok h)

theorem readRegN_keepsParameters {f : RegFile} {i : RegNum} {nb : Nat} {s t : State}
    {v : BitVec (8 * nb)} (h : readRegN f i nb s = .ok (v, t)) : KeepsParameters s t := by
  obtain ⟨w, hw, -⟩ := readRegN_ok h
  exact readReg_keepsParameters hw

theorem readFlag_keepsParameters {x : FlagName} {s t : State} {b : Bool}
    (h : readFlag x s = .ok (b, t)) : KeepsParameters s t := .of_withReads (readFlag_ok h)

theorem readCond_keepsParameters {cccc : CondCode} {s t : State} {b : Bool}
    (h : readCond cccc s = .ok (b, t)) : KeepsParameters s t := .of_withReads (readCond_ok h)

theorem fetchInstr_keepsParameters {s t : State} {i : Instr} (h : fetchInstr s = .ok (i, t)) :
    KeepsParameters s t := .of_stream (fetchInstr_ok h).2

theorem fetchFrameImm_keepsParameters {ss : Scale} {s t : State} {v : Word}
    (h : fetchFrameImm ss s = .ok (v, t)) : KeepsParameters s t := .of_stream (fetchFrameImm_ok h)

theorem evalEA_keepsParameters {ea : EA} {nb : Nat} {s t : State} {loc : Loc}
    (h : evalEA ea nb s = .ok (loc, t)) : KeepsParameters s t := .of_operandFrame (evalEA_ok h).2

theorem operand_keepsParameters {ea : EA} {nb : Nat} {s t : State} {loc : Loc}
    {v : BitVec (8 * nb)} (h : operand ea nb s = .ok (loc, v, t)) : KeepsParameters s t :=
  .of_operandFrame (operand_ok h).2.1

theorem evalEAImm_keepsParameters {ea : EA} {nb : Nat} {s t : State} {loc : Loc}
    {v : BitVec (8 * nb)} (h : evalEAImm ea nb s = .ok (loc, v, t)) : KeepsParameters s t :=
  .of_operandFrame (evalEAImm_ok h).2

theorem operandImm_keepsParameters {ea : EA} {nb : Nat} {s t : State} {loc : Loc}
    {v imm : BitVec (8 * nb)} (h : operandImm ea nb s = .ok (loc, v, imm, t)) :
    KeepsParameters s t := .of_operandFrame (operandImm_ok h).2.1

theorem operandsDy_keepsParameters {y x : RegNum} {s u : State} {a b : Word}
    (h : operandsDy y x s = .ok (a, b, u)) : KeepsParameters s u := by
  obtain ⟨s1, ha, hb⟩ := operandsDy_ok_iff.1 h
  exact (readReg_keepsParameters ha).trans (readReg_keepsParameters hb)

/-! ### Writing, the stack and transfers of control -/

theorem regWriteN_keepsParameters {f : RegFile} {i : RegNum} {nb : Nat} {v : BitVec (8 * nb)}
    {s t : State} (h : regWriteN f i nb v s = .ok t) : KeepsParameters s t := by
  obtain ⟨old, u, ho, rfl⟩ := regWriteN_ok_iff.1 h
  exact (KeepsParameters.of_withReads (readOld_ok ho)).setReg ..

theorem memWrite_keepsParameters {nb : Nat} {a : Word} {v : BitVec (8 * nb)} {s t : State}
    (h : memWrite nb a v s = .ok t) : KeepsParameters s t := by
  obtain ⟨-, rfl⟩ := memWrite_ok_iff.1 h
  exact (KeepsParameters.refl s).setMem _

theorem writeLoc_keepsParameters {loc : Loc} {nb : Nat} {v : BitVec (8 * nb)} {s t : State}
    (h : writeLoc loc nb v s = .ok t) : KeepsParameters s t := by
  cases loc with
  | dreg i => exact regWriteN_keepsParameters h
  | areg i => exact regWriteN_keepsParameters h
  | mem a => exact memWrite_keepsParameters h
  | imm c => cases h; exact .refl s
  | sr => cases h; exact (KeepsParameters.refl s).setFlags _

theorem writeExtended_keepsParameters {loc : Loc} {nb : Nat} {v : BitVec (8 * nb)} {s t : State}
    (h : writeExtended loc nb v s = .ok t) : KeepsParameters s t := by
  cases loc with
  | dreg i => cases h; exact (KeepsParameters.refl s).setReg ..
  | areg i => cases h; exact (KeepsParameters.refl s).setReg ..
  | mem a => exact writeLoc_keepsParameters (loc := .mem a) h
  | imm c => cases h; exact .refl s
  | sr => exact writeLoc_keepsParameters (loc := .sr) h

theorem writeBack_keepsParameters {loc : Loc} {nb : Nat} {r : Computed (8 * nb)} {s t : State}
    (h : writeBack loc nb r s = .ok t) : KeepsParameters s t := by
  simp only [writeBack, run_bind_ok, run_pure, Except.ok.injEq] at h
  obtain ⟨s1, h1, rfl⟩ := h
  exact (writeLoc_keepsParameters h1).setFlagsUnlessSR ..

theorem push32_keepsParameters {v : Word} {s t : State} (h : push32 v s = .ok t) :
    KeepsParameters s t := by
  obtain ⟨sp, s1, h1, -, rfl⟩ := push32_ok_iff.1 h
  exact ((KeepsParameters.of_withReads (readSp_ok h1)).setSp _).setMem _

theorem pop32_keepsParameters {v : Word} {s t : State} (h : pop32 s = .ok (v, t)) :
    KeepsParameters s t := by
  obtain ⟨n, sp, d, rfl⟩ := pop32_ok h
  exact (KeepsParameters.of_withReads ⟨n, d, rfl⟩).setSp sp

theorem transfer_keepsParameters {cccc : CondCode} {target : Word} {s t : State}
    (h : transfer cccc target s = .ok t) : KeepsParameters s t := by
  rw [transfer_ok_iff] at h
  split at h
  · obtain ⟨s1, h1, rfl⟩ := h
    exact (push32_keepsParameters h1).setIp target
  · exact h ▸ (KeepsParameters.refl s).setIp target

/-! ### The shapes of instruction -/

theorem modifyEA_keepsParameters {w : Half} {ea : EA} {nb : Nat}
    {f : BitVec (8 * nb) → Computed (8 * nb)} {s t : State} (h : modifyEA w ea nb f s = .ok t) :
    KeepsParameters s t := by
  obtain ⟨-, loc, v, s1, ho, hw⟩ := modifyEA_ok h
  exact (operand_keepsParameters ho).trans (writeBack_keepsParameters hw)

theorem modifyEACarry_keepsParameters {w : Half} {ea : EA} {nb : Nat}
    {f : BitVec (8 * nb) → Bool → Computed (8 * nb)} {s t : State}
    (h : modifyEACarry w ea nb f s = .ok t) : KeepsParameters s t := by
  obtain ⟨-, loc, v, s1, c, s2, ho, hc, hw⟩ := modifyEACarry_ok h
  exact ((operand_keepsParameters ho).trans (readFlag_keepsParameters hc)).trans
    (writeBack_keepsParameters hw)

theorem modifyQuickEA_keepsParameters {w : Half} {ea : EA} {f : Word → Computed 32} {s t : State}
    (h : modifyQuickEA w ea f s = .ok t) : KeepsParameters s t := by
  rw [modifyQuickEA_eq] at h
  exact modifyEA_keepsParameters h

theorem modifyQuickEACarry_keepsParameters {w : Half} {ea : EA} {f : Word → Bool → Computed 32}
    {s t : State} (h : modifyQuickEACarry w ea f s = .ok t) : KeepsParameters s t := by
  rw [modifyQuickEACarry_eq] at h
  exact modifyEACarry_keepsParameters h

theorem modifyEAImm_keepsParameters {w : Half} {ea : EA} {nb : Nat}
    {f : BitVec (8 * nb) → BitVec (8 * nb) → Computed (8 * nb)} {s t : State}
    (h : modifyEAImm w ea nb f s = .ok t) : KeepsParameters s t := by
  obtain ⟨-, loc, v, imm, s1, ho, hw⟩ := modifyEAImm_ok h
  exact (operandImm_keepsParameters ho).trans (writeBack_keepsParameters hw)

theorem testEA_keepsParameters {ea : EA} {nb : Nat} {f : BitVec (8 * nb) → Computed (8 * nb)}
    {s t : State} (h : testEA ea nb f s = .ok t) : KeepsParameters s t := by
  obtain ⟨loc, v, s1, ho, rfl⟩ := testEA_ok_iff.1 h
  exact (operand_keepsParameters ho).setFlags _

theorem computeRy_keepsParameters {y : RegNum} {ss : Scale} {ea : EA}
    {f : BitVec (8 * bytes ss) → BitVec (8 * bytes ss) → Computed (8 * bytes ss)} {s t : State}
    (h : computeRy y ss ea f s = .ok t) : KeepsParameters s t := by
  obtain ⟨loc, b, s1, w, s2, old, u, hb, hw, ho, rfl⟩ := computeRy_ok_iff.1 h
  have hread : KeepsParameters s s2 :=
    (operand_keepsParameters hb).trans (readReg_keepsParameters hw)
  exact ((hread.trans (.of_withReads (readOld_ok ho))).setReg ..).setFlags _

theorem shiftDy_keepsParameters {kind : ShiftKind} {y : RegNum} {ea : EA} {s t : State}
    (h : shiftDy kind y ea s = .ok t) : KeepsParameters s t := by
  obtain ⟨loc, b, s1, d, u, hb, hd, rfl⟩ := shiftDy_ok_iff.1 h
  exact ((operand_keepsParameters hb).trans (readReg_keepsParameters hd)).writeDy ..

theorem computeDy_keepsParameters {y x : RegNum} {f : Word → Word → Computed 32} {s t : State}
    (h : computeDy y x f s = .ok t) : KeepsParameters s t := by
  obtain ⟨a, b, u, ho, rfl⟩ := computeDy_ok_iff.1 h
  exact (operandsDy_keepsParameters ho).writeDy ..

theorem divideDy_keepsParameters {y x : RegNum} {f : Word → Word → Computed 32} {s t : State}
    (h : divideDy y x f s = .ok t) : KeepsParameters s t := by
  obtain ⟨a, b, u, ho, -, rfl⟩ := divideDy_ok_iff.1 h
  exact (operandsDy_keepsParameters ho).writeDy ..

/-! ### The instructions of no shared shape -/

theorem execUnlnk_keepsParameters {s t : State} (h : execUnlnk s = .next t) :
    KeepsParameters s t := by
  simp only [execUnlnk, finish_eq_next, run_bind_ok, run_pure, Except.ok.injEq, Prod.exists] at h
  obtain ⟨bp, s1, hbp, v, s2, hpop, rfl⟩ := h
  have hsp := (KeepsParameters.of_withReads (readBp_ok hbp)).setSp bp
  exact (hsp.trans (pop32_keepsParameters hpop)).setBp v

theorem execRfs_keepsParameters {ss : Scale} {s t : State} (h : execRfs ss s = .next t) :
    KeepsParameters s t := by
  simp only [execRfs, finish_eq_next, run_bind_ok, run_pure, Except.ok.injEq, Prod.exists] at h
  obtain ⟨imm, s1, himm, v, s2, hpop, rfl⟩ := h
  exact (((fetchFrameImm_keepsParameters himm).trans (pop32_keepsParameters hpop)).setIp v).setSp _

theorem execLnk_keepsParameters {ss : Scale} {s t : State} (h : execLnk ss s = .next t) :
    KeepsParameters s t := by
  simp only [execLnk, finish_eq_next, run_bind_ok, run_pure, Except.ok.injEq, Prod.exists] at h
  obtain ⟨imm, s1, himm, bp, s2, hbp, s3, hpush, rfl⟩ := h
  have hread : KeepsParameters s s2 :=
    (fetchFrameImm_keepsParameters himm).trans (.of_withReads (readBp_ok hbp))
  exact ((hread.trans (push32_keepsParameters hpush)).setBp _).setSp _

theorem execCmpi_keepsParameters {ss : Scale} {ea : EA} {s t : State}
    (h : execCmpi ss ea s = .next t) : KeepsParameters s t := by
  simp only [execCmpi, finish_eq_next, run_bind_ok, run_pure, Except.ok.injEq, Prod.exists] at h
  obtain ⟨loc, a, imm, s1, ho, rfl⟩ := h
  exact (operandImm_keepsParameters ho).setFlags _

theorem execSti_keepsParameters {ss : Scale} {ea : EA} {s t : State}
    (h : execSti ss ea s = .next t) : KeepsParameters s t := by
  simp only [execSti, finish_eq_next, run_bind_ok, Prod.exists] at h
  obtain ⟨-, -, loc, imm, s1, he, hw⟩ := h
  exact (evalEAImm_keepsParameters he).trans (writeLoc_keepsParameters hw)

theorem execClr_keepsParameters {ss : Scale} {ea : EA} {s t : State}
    (h : execClr ss ea s = .next t) : KeepsParameters s t := by
  simp only [execClr, finish_eq_next, run_bind_ok, Prod.exists] at h
  obtain ⟨-, -, loc, s1, he, hw⟩ := h
  exact (evalEA_keepsParameters he).trans (writeLoc_keepsParameters hw)

theorem execExt_keepsParameters {ss : Scale} {ea : EA} {s t : State}
    (h : execExt ss ea s = .next t) : KeepsParameters s t := by
  simp only [execExt, finish_eq_next, run_bind_ok, run_pure, Except.ok.injEq, Prod.exists] at h
  obtain ⟨-, -, loc, a, s1, ho, s2, hw, rfl⟩ := h
  exact ((operand_keepsParameters ho).trans (writeExtended_keepsParameters hw)).setFlagsUnlessSR ..

theorem execCmpq_keepsParameters {y : RegNum} {q : BitVec 8} {s t : State}
    (h : execCmpq y q s = .next t) : KeepsParameters s t := by
  simp only [execCmpq, finish_eq_next, run_bind_ok, run_pure, Except.ok.injEq, Prod.exists] at h
  obtain ⟨a, s1, hr, rfl⟩ := h
  exact (readReg_keepsParameters hr).setFlags _

theorem execLd_keepsParameters {y : RegNum} {ss : Scale} {ea : EA} {s t : State}
    (h : execLd y ss ea s = .next t) : KeepsParameters s t := by
  simp only [execLd, finish_eq_next, run_bind_ok, Prod.exists] at h
  obtain ⟨loc, v, s1, ho, hw⟩ := h
  exact (operand_keepsParameters ho).trans (regWriteN_keepsParameters hw)

theorem execCmp_keepsParameters {y : RegNum} {ss : Scale} {ea : EA} {s t : State}
    (h : execCmp y ss ea s = .next t) : KeepsParameters s t := by
  simp only [execCmp, finish_eq_next, run_bind_ok, run_pure, Except.ok.injEq, Prod.exists] at h
  obtain ⟨loc, b, s1, ho, a, s2, hr, rfl⟩ := h
  exact ((operand_keepsParameters ho).trans (readRegN_keepsParameters hr)).setFlags _

theorem execSt_keepsParameters {y : RegNum} {ss : Scale} {ea : EA} {s t : State}
    (h : execSt y ss ea s = .next t) : KeepsParameters s t := by
  simp only [execSt, finish_eq_next, run_bind_ok, Prod.exists] at h
  obtain ⟨-, -, loc, s1, he, v, s2, hr, hw⟩ := h
  exact ((evalEA_keepsParameters he).trans (readRegN_keepsParameters hr)).trans
    (writeLoc_keepsParameters hw)

theorem execBcc_keepsParameters {cccc : CondCode} {q : BitVec 8} {s t : State}
    (h : execBcc cccc q s = .next t) : KeepsParameters s t := by
  simp only [execBcc, finish_eq_next, run_bind_ok, Prod.exists] at h
  obtain ⟨taken, s1, hc, h⟩ := h
  have hcond := readCond_keepsParameters hc
  split at h
  · exact hcond.trans (transfer_keepsParameters h)
  · cases h
    exact hcond

theorem execJcc_keepsParameters {cccc : CondCode} {ss : Scale} {ea : EA} {s t : State}
    (h : execJcc cccc ss ea s = .next t) : KeepsParameters s t := by
  simp only [execJcc, finish_eq_next, run_bind_ok, Prod.exists] at h
  obtain ⟨taken, s1, hc, h⟩ := h
  have hcond := readCond_keepsParameters hc
  split at h
  · obtain ⟨⟨loc, v, s2⟩, ho, ht⟩ := run_bind_ok.1 h
    exact (hcond.trans (operand_keepsParameters ho)).trans (transfer_keepsParameters ht)
  · cases h
    exact hcond.setIp _

/-! ### Every instruction, and one step -/

/-- No instruction changes a parameter or, under `UNWRITTEN_READ = fault`, draws a free value. -/
theorem exec_keepsParameters {i : Instr} {s t : State} (h : exec i s = .next t) :
    KeepsParameters s t := by
  cases i with
  | nop => cases h; exact .refl s
  | rfi => cases h
  | unlnk => exact execUnlnk_keepsParameters h
  | rfs ss => exact execRfs_keepsParameters h
  | lnk ss => exact execLnk_keepsParameters h
  | cmpi ss ea => exact execCmpi_keepsParameters h
  | sti ss ea => exact execSti_keepsParameters h
  | addi ss ea | subi ss ea | xori ss ea | ori ss ea | andi ss ea =>
    exact modifyEAImm_keepsParameters (finish_eq_next.1 h)
  | not ss ea | neg ss ea | rev ss ea | addq q ss ea | subq q ss ea =>
    exact modifyEA_keepsParameters (finish_eq_next.1 h)
  | lslq q ea | lsrq q ea | asrq q ea | rorq q ea =>
    exact modifyQuickEA_keepsParameters (finish_eq_next.1 h)
  | adc ss ea | sbc ss ea => exact modifyEACarry_keepsParameters (finish_eq_next.1 h)
  | rrc ea => exact modifyQuickEACarry_keepsParameters (finish_eq_next.1 h)
  | clr ss ea => exact execClr_keepsParameters h
  | ext ss ea => exact execExt_keepsParameters h
  | tst ss ea => exact testEA_keepsParameters (finish_eq_next.1 h)
  | mul y x | hmulu y x | hmuls y x => exact computeDy_keepsParameters (finish_eq_next.1 h)
  | divu y x | divs y x | modu y x | mods y x =>
    exact divideDy_keepsParameters (finish_eq_next.1 h)
  | lsl y ea | lsr y ea | asr y ea | ror y ea => exact shiftDy_keepsParameters (finish_eq_next.1 h)
  | ldq y q => cases h; exact (KeepsParameters.refl s).setReg ..
  | cmpq y q => exact execCmpq_keepsParameters h
  | ld y ss ea => exact execLd_keepsParameters h
  | cmp y ss ea => exact execCmp_keepsParameters h
  | add y ss ea | sub y ss ea | xor y ss ea | or y ss ea | and y ss ea =>
    exact computeRy_keepsParameters (finish_eq_next.1 h)
  | st y ss ea => exact execSt_keepsParameters h
  | bcc cccc q => exact execBcc_keepsParameters h
  | jcc cccc ss ea => exact execJcc_keepsParameters h

/-- What one step is when it answers a next state: an instruction fetched, then run. -/
theorem step_eq_next {s t : State} :
    step s = .next t ↔ ∃ i s1, fetchInstr s = .ok (i, s1) ∧ exec i s1 = .next t := by
  unfold step
  cases fetchInstr s with
  | error f => simp
  | ok p => simp [Prod.ext_iff]

theorem step_keepsParameters {s t : State} (h : step s = .next t) : KeepsParameters s t := by
  obtain ⟨i, s1, hf, he⟩ := step_eq_next.1 h
  exact (fetchInstr_keepsParameters hf).trans (exec_keepsParameters he)

/-- Settles O17: fetching and running the instruction both stay inside `KeepsParameters`. -/
theorem stepKeepsParameters : Obligations.StepKeepsParameters := by
  intro s t h
  obtain ⟨hcfg, hreads⟩ := step_keepsParameters h
  exact ⟨hcfg, hreads⟩

end Sys2Proof.Machine
end

section
/-! PROOF. The state at rest: the reset state, the launch state, the data registers, narrow register writes
and SR as a view of the flags (10_state.md R20, R25, R27, R29). -/

namespace Sys2Proof.Machine

/-! ### The reset state -/

theorem reset_regAt (f : RegFile) (i : RegNum) : State.reset.regAt f i = some 0 := by
  cases f <;> simp [State.regAt, State.regWritten, State.getReg, State.reset]

theorem reset_flagAt (x : FlagName) : State.reset.flagAt x = some false := by
  cases x <;> rfl

/-- Settles O14: each field of the reset state is written out; only the registers need their index. -/
theorem resetState : Obligations.ResetState :=
  ⟨by decide, reset_regAt, rfl, reset_flagAt, fun _ => rfl, rfl⟩

/-! ### Data registers -/

/-- Settles O18: `regAt_setReg` says what a write does to both files, and a 3-bit field is its own
register number. -/
theorem dataRegistersHoldWhatIsWritten : Obligations.DataRegistersHoldWhatIsWritten := by
  refine ⟨fun s i j v => ?_, fun i => ⟨BitVec.ofFin i, rfl⟩, fun x y h => BitVec.toFin_inj.1 h⟩
  simp [regAt_setReg]

/-! ### The launch state -/

/-- The launch state before `INIT_SP` and `INIT_BP` go over it (10_state.md R29). -/
def State.supplied (c : Config) (p : Launch) : State where
  d := ofEach (fun w => w.getD 0) p.d
  a := ofEach (fun w => w.getD 0) p.a
  ip := p.ip
  flags := ⟨p.n.getD false, p.z.getD false, p.v.getD false, p.c.getD false⟩
  dWritten := ofEach Option.isSome p.d
  aWritten := ofEach Option.isSome p.a
  flagsWritten := ⟨p.n.isSome, p.z.isSome, p.v.isSome, p.c.isSome⟩
  mem := loadCells [] p.mem
  freeReads := 0
  cfg := c

/-- A register over which the host may put a value of its own. -/
def State.override (s : State) (f : RegFile) (i : RegNum) : Option Word → State
  | some v => s.setReg f i v
  | none => s

theorem launch_eq (c : Config) (p : Launch) :
    State.launch c p =
      ((State.supplied c p).override .a c.spIndex p.sp).override .a c.bpIndex p.bp := by
  unfold State.launch State.override State.supplied
  cases p.sp <;> cases p.bp <;> rfl

section
variable (s : State) (f : RegFile) (i : RegNum) (o : Option Word)

@[simp] theorem override_ip : (s.override f i o).ip = s.ip := by
  cases o <;> simp [State.override]
@[simp] theorem override_mem : (s.override f i o).mem = s.mem := by
  cases o <;> simp [State.override]
@[simp] theorem override_cfg : (s.override f i o).cfg = s.cfg := by
  cases o <;> simp [State.override]
@[simp] theorem override_flagAt (x : FlagName) : (s.override f i o).flagAt x = s.flagAt x := by
  cases o <;> simp [State.override]
@[simp] theorem override_byteAt (a : Word) : (s.override f i o).byteAt a = s.byteAt a := by
  cases o <;> simp [State.override]

/-- What is given goes over what stood there; every other register is as it was. -/
theorem override_regAt (g : RegFile) (j : RegNum) :
    (s.override f i o).regAt g j = if (g, j) = (f, i) then o.or (s.regAt g j) else s.regAt g j := by
  cases o <;> simp [State.override, regAt_setReg]

end

theorem supplied_regAt_d (c : Config) (p : Launch) (i : RegNum) :
    (State.supplied c p).regAt .d i = p.d[i] := by
  simp [State.regAt, State.regWritten, State.getReg, State.supplied, some_getD_if_isSome]

theorem supplied_regAt_a (c : Config) (p : Launch) (i : RegNum) :
    (State.supplied c p).regAt .a i = p.a[i] := by
  simp [State.regAt, State.regWritten, State.getReg, State.supplied, some_getD_if_isSome]

theorem supplied_flagAt (c : Config) (p : Launch) (x : FlagName) :
    (State.supplied c p).flagAt x = p.flag x := by
  cases x <;> exact some_getD_if_isSome _ _

theorem supplied_byteAt (c : Config) (p : Launch) (a : Word) :
    (State.supplied c p).byteAt a = suppliedByte p.mem a := by
  have hempty : Memory.read [] a.toNat = none := rfl
  rw [State.byteAt, State.supplied, loadCells_read, hempty, Option.or_none]

theorem supplied_wf {c : Config} (p : Launch) (hc : c.wf = true) :
    (State.supplied c p).wf = true := by
  have hmem : Memory.wf (loadCells [] p.mem) = true := loadCells_wf p.mem rfl
  simp [State.wf, State.supplied, hmem, hc]

/-- Settles O15: the supplied fields are read one by one, and `INIT_SP` and `INIT_BP` go over two address
registers, which differ in a configuration inside the restrictions (D2). -/
theorem launchStateHoldsWhatIsSupplied : Obligations.LaunchStateHoldsWhatIsSupplied := by
  intro c p hc
  have hne : c.spIndex ≠ c.bpIndex := by
    simp only [Config.wf, Bool.and_eq_true, decide_eq_true_eq] at hc
    obtain ⟨⟨hdiffer, -⟩, -⟩ := hc
    exact hdiffer
  rw [launch_eq]
  refine ⟨?_, by simp [State.supplied], fun x => ?_, by simp [State.supplied], fun a => ?_,
    fun i => ?_, ?_, ?_, fun i hsp hbp => ?_⟩
  · simpa [State.wf] using supplied_wf p hc
  · simp [supplied_flagAt]
  · simp [supplied_byteAt]
  · simp [override_regAt, supplied_regAt_d]
  · simp [override_regAt, supplied_regAt_a, hne]
  · simp [override_regAt, supplied_regAt_a, hne.symm]
  · simp [override_regAt, supplied_regAt_a, hsp, hbp]

/-! ### Narrow register writes -/

/-- The upper bits of the old content, with the low `m` bits cleared. -/
theorem getLsbD_clearLow (old : Word) (m k : Nat) (hk : k < 32) :
    ((old >>> m) <<< m).getLsbD k = (decide (m ≤ k) && old.getLsbD k) := by
  by_cases h : m ≤ k <;> simp [hk, h]

/-- Settles O19: a word result has no bit above it; otherwise each policy is one operation on vectors,
whose bits are known. -/
theorem narrowWriteBits : Obligations.NarrowWriteBits := by
  intro p nb old v k hnb hk
  by_cases h4 : nb = 4
  · subst h4
    simp [hk]
  · cases p with
    | signExtend => simp only [narrowed, if_neg h4, BitVec.getLsbD_signExtend, hk, decide_true,
        Bool.true_and]
    | zeroExtend => simpa [narrowed, h4, hk] using BitVec.lt_of_getLsbD
    | preserve =>
      simp only [narrowed, if_neg h4, BitVec.getLsbD_or, getLsbD_clearLow old _ k hk]
      by_cases hlow : k < 8 * nb
      · simp [hk, hlow]
      · simp [hlow, Nat.le_of_not_lt hlow]

/-! ### SR -/

theorem getLsbD_srBit (b : Bool) (place : Fin 8) (k : Nat) :
    (srBit b place).getLsbD k = (decide (k = place.val) && b) := by
  have hplace := place.isLt
  cases b with
  | false => simp [srBit]
  | true =>
    have hbit : (1#32 <<< place.val).getLsbD k = decide (k = place.val) := by
      simp only [BitVec.getLsbD_shiftLeft, BitVec.getLsbD_one]
      by_cases hk : k = place.val
      · simp [hk]
        omega
      · simp [hk]
        omega
    simp [srBit, hbit]

/-- A bit of SR is 1 where it is the place of a flag that is set (10_state.md R25). -/
theorem getLsbD_srValue (l : SrLayout) (f : Flags) (k : Nat) :
    (srValue l f).getLsbD k =
      (decide (k = l.n.val) && f.n || decide (k = l.z.val) && f.z || decide (k = l.v.val) && f.v ||
        decide (k = l.c.val) && f.c) := by
  simp only [srValue, BitVec.getLsbD_or, getLsbD_srBit]

theorem srLayout_distinct_iff (l : SrLayout) :
    l.distinct = true ↔
      (l.n ≠ l.z ∧ l.n ≠ l.v ∧ l.n ≠ l.c) ∧ (l.z ≠ l.v ∧ l.z ≠ l.c) ∧ l.v ≠ l.c := by
  simp [SrLayout.distinct]

/-- Every operand covers the low byte of SR, where the flags lie. -/
theorem getLsbD_setWidth_low (v : Word) {nb : Nat} (hnb : OperandSize nb) (place : Fin 8) :
    (v.setWidth (8 * nb)).getLsbD place = v.getLsbD place := by
  have hcovered : place.val < 8 * nb := by
    have := place.isLt
    omega
  simp [hcovered]

/-- Four different places keep the four flags apart. -/
theorem srFlags_srValue {l : SrLayout} (hl : l.distinct = true) (f : Flags) {nb : Nat}
    (hnb : OperandSize nb) : srFlags l ((srValue l f).setWidth (8 * nb)) = f := by
  obtain ⟨⟨hnz, hnv, hnc⟩, ⟨hzv, hzc⟩, hvc⟩ := (srLayout_distinct_iff l).1 hl
  simp only [srFlags, getLsbD_setWidth_low _ hnb, getLsbD_srValue, Fin.val_inj]
  simp [hnz, hnv, hnc, hzv, hzc, hvc, hnz.symm, hnv.symm, hnc.symm, hzv.symm, hzc.symm, hvc.symm]

/-- The form SR reads as the low bits of SR where the four flags have been written. -/
theorem readLoc_sr_of_written {s : State} {f : Flags} (h : ∀ x, s.flagAt x = some (f.get x))
    (nb : Nat) : readLoc .sr nb s = .ok ((srValue s.cfg.srLayout f).setWidth (8 * nb), s) := by
  simp [readLoc, readSr_of_written h]

/-- Settles O20: the bits of SR are those of `getLsbD_srValue`, and reading and writing the form SR are
`readSr` and `srFlags`. -/
theorem statusRegisterReadsBack : Obligations.StatusRegisterReadsBack := by
  intro l f nb hl hnb
  refine ⟨srFlags_srValue hl f hnb, fun k => ?_, fun s hs => ?_⟩
  · simp [getLsbD_srValue, or_assoc]
  · subst hs
    exact ⟨rfl, rfl, fun h => readLoc_sr_of_written h nb, fun v => rfl, setFlags_flagAt s f⟩

end Sys2Proof.Machine
end

section
/-! PROOF. Which registers an instruction can change and where it leaves IP (10_state.md R23, R31,
30_encoding.md R88). One relation between states says both; each operation is inside it for the registers
it writes, each shape of instruction is a chain of operations, and the lists of `Instr.dataWritten` and
`Instr.addressWritten` name the registers of each chain. -/

namespace Sys2Proof.Machine

/-! ### The registers an instruction may write -/

/-- A register of either file is among those an instruction may write (10_state.md R31). -/
def MayWrite (c : Config) (i : Instr) : RegFile → RegNum → Prop
  | .d, j => j ∈ i.dataWritten
  | .a, j => j ∈ i.addressWritten c

/-- The register a location names, if it names one, is among those of `W`. -/
def Loc.RegisterIn (W : RegFile → RegNum → Prop) : Loc → Prop
  | .dreg j => W .d j
  | .areg j => W .a j
  | _ => True

section
variable {c : Config} {i : Instr} {ea : EA}

theorem mayWrite_stepped (h : i.operandEA = some ea) {x : RegNum} (hx : x ∈ ea.stepped) :
    MayWrite c i .a x := by
  simp [MayWrite, Instr.addressWritten, h, hx]

theorem mayWrite_stackRegs {x : RegNum} (hx : x ∈ i.stackRegs c) : MayWrite c i .a x := by
  simp [MayWrite, Instr.addressWritten, hx]

theorem mayWrite_yDest {f : RegFile} {y : RegNum} (h : i.yDest = some (f, y)) :
    MayWrite c i f y := by
  cases f <;> simp [MayWrite, Instr.dataWritten, Instr.addressWritten, h]

/-- A register that an effective address gives as a destination is one the instruction may write. -/
theorem registerIn_of_gives (h : i.writtenEA = some ea) {loc : Loc} (hg : EA.gives ea loc) :
    loc.RegisterIn (MayWrite c i) := by
  cases loc with
  | dreg x =>
    obtain rfl := EA.gives_dreg hg
    simp [Loc.RegisterIn, MayWrite, Instr.dataWritten, h, EA.dataDest]
  | areg x =>
    obtain rfl := EA.gives_areg hg
    simp [Loc.RegisterIn, MayWrite, Instr.addressWritten, h, EA.addressDest]
  | mem a => trivial
  | imm v => trivial
  | sr => trivial

end

/-! ### The relations -/

/-- From `s` to `t` no register outside `W` and no parameter has changed. -/
structure ChangesOnly (W : RegFile → RegNum → Prop) (s t : State) : Prop where
  reg : ∀ f j, ¬ W f j → t.regAt f j = s.regAt f j
  cfg : t.cfg = s.cfg

/-- The same, and IP has moved by `n` bytes. -/
structure Advances (W : RegFile → RegNum → Prop) (n : Nat) (s t : State) : Prop
    extends ChangesOnly W s t where
  ip : t.ip = s.ip + BitVec.ofNat 32 n

section
variable {W : RegFile → RegNum → Prop} {s t u : State} {m n : Nat}

theorem ChangesOnly.trans (h : ChangesOnly W s t) (k : ChangesOnly W t u) : ChangesOnly W s u where
  reg f j hj := (k.reg f j hj).trans (h.reg f j hj)
  cfg := k.cfg.trans h.cfg

theorem ChangesOnly.setIp (h : ChangesOnly W s t) (v : Word) : ChangesOnly W s (t.setIp v) where
  reg f j hj := (setIp_regAt ..).trans (h.reg f j hj)
  cfg := h.cfg

theorem ChangesOnly.setReg (h : ChangesOnly W s t) {f : RegFile} {i : RegNum} (hi : W f i)
    (v : Word) : ChangesOnly W s (t.setReg f i v) where
  reg g j hj := by
    have hother : (g, j) ≠ (f, i) := by
      rintro ⟨⟩
      exact hj hi
    rw [regAt_setReg_ne _ _ hother, h.reg g j hj]
  cfg := (setReg_cfg ..).trans h.cfg

namespace Advances

theorem refl (s : State) : Advances W 0 s s := ⟨⟨fun _ _ _ => rfl, rfl⟩, by simp⟩

theorem trans (h : Advances W m s t) (k : Advances W n t u) : Advances W (m + n) s u where
  toChangesOnly := h.toChangesOnly.trans k.toChangesOnly
  ip := by rw [k.ip, h.ip, BitVec.ofNat_add, BitVec.add_assoc]

theorem of_withReads (h : ∃ n, Draws s n ∧ t = s.withReads n) : Advances W 0 s t := by
  obtain ⟨n, -, rfl⟩ := h
  exact ⟨⟨fun _ _ _ => withReads_regAt .., rfl⟩, by simp⟩

theorem of_stream (h : ∃ k, Draws s k ∧ t = (s.withReads k).setIp (s.ip + BitVec.ofNat 32 n)) :
    Advances W n s t := by
  obtain ⟨k, -, rfl⟩ := h
  exact ⟨⟨fun _ _ _ => by simp, rfl⟩, rfl⟩

theorem of_operandFrame {l : List RegNum} (h : OperandFrame n l s t) (hl : ∀ x ∈ l, W .a x) :
    Advances W n s t where
  reg f j hj := by
    cases f with
    | d => exact h.data j
    | a => exact h.address j fun hx => hj (hl j hx)
  cfg := h.cfg
  ip := h.ip

theorem setReg (h : Advances W n s t) {f : RegFile} {i : RegNum} (hi : W f i) (v : Word) :
    Advances W n s (t.setReg f i v) where
  toChangesOnly := h.toChangesOnly.setReg hi v
  ip := (setReg_ip ..).trans h.ip

theorem setSp (h : Advances W n s t) (hi : W .a s.cfg.spIndex) (v : Word) :
    Advances W n s (t.setSp v) := h.setReg (h.cfg ▸ hi) v

theorem setBp (h : Advances W n s t) (hi : W .a s.cfg.bpIndex) (v : Word) :
    Advances W n s (t.setBp v) := h.setReg (h.cfg ▸ hi) v

theorem setFlags (h : Advances W n s t) (f : Flags) : Advances W n s (t.setFlags f) where
  reg g j hj := (setFlags_regAt ..).trans (h.reg g j hj)
  cfg := h.cfg
  ip := h.ip

theorem setMem (h : Advances W n s t) (m : Memory) : Advances W n s (t.setMem m) where
  reg g j hj := (setMem_regAt ..).trans (h.reg g j hj)
  cfg := h.cfg
  ip := h.ip

theorem setFlagsUnlessSR (h : Advances W n s t) (loc : Loc) (f : Flags) :
    Advances W n s (setFlagsUnlessSR loc f t) := by
  rw [setFlagsUnlessSR_eq]
  split
  · exact h
  · exact h.setFlags f

theorem writeDy (h : Advances W n s t) {y : RegNum} (hy : W .d y) (r : Computed 32) :
    Advances W n s (writeDy y r t) := (h.setReg hy r.1).setFlags r.2

end Advances

/-! ### The operations -/

theorem readReg_advances {f : RegFile} {i : RegNum} {v : Word} (h : readReg f i s = .ok (v, t)) :
    Advances W 0 s t := .of_withReads (readReg_ok h)

theorem readRegN_advances {f : RegFile} {i : RegNum} {nb : Nat} {v : BitVec (8 * nb)}
    (h : readRegN f i nb s = .ok (v, t)) : Advances W 0 s t := by
  obtain ⟨w, hw, -⟩ := readRegN_ok h
  exact readReg_advances hw

theorem operandsDy_advances {y x : RegNum} {a b : Word} (h : operandsDy y x s = .ok (a, b, t)) :
    Advances W 0 s t := by
  obtain ⟨s1, ha, hb⟩ := operandsDy_ok_iff.1 h
  exact (readReg_advances ha).trans (readReg_advances hb)

theorem regWriteN_advances {f : RegFile} {i : RegNum} {nb : Nat} {v : BitVec (8 * nb)}
    (h : regWriteN f i nb v s = .ok t) (hi : W f i) : Advances W 0 s t := by
  obtain ⟨old, u, ho, rfl⟩ := regWriteN_ok_iff.1 h
  exact (Advances.of_withReads (readOld_ok ho)).setReg hi _

theorem writeLoc_advances {loc : Loc} {nb : Nat} {v : BitVec (8 * nb)}
    (h : writeLoc loc nb v s = .ok t) (hl : loc.RegisterIn W) : Advances W 0 s t := by
  cases loc with
  | dreg i => exact regWriteN_advances h hl
  | areg i => exact regWriteN_advances h hl
  | mem a =>
    obtain ⟨-, rfl⟩ := memWrite_ok_iff.1 h
    exact (Advances.refl s).setMem _
  | imm c => cases h; exact .refl s
  | sr => cases h; exact (Advances.refl s).setFlags _

theorem writeExtended_advances {loc : Loc} {nb : Nat} {v : BitVec (8 * nb)}
    (h : writeExtended loc nb v s = .ok t) (hl : loc.RegisterIn W) : Advances W 0 s t := by
  cases loc with
  | dreg i => cases h; exact (Advances.refl s).setReg hl _
  | areg i => cases h; exact (Advances.refl s).setReg hl _
  | mem a => exact writeLoc_advances (loc := .mem a) h hl
  | imm c => cases h; exact .refl s
  | sr => exact writeLoc_advances (loc := .sr) h hl

theorem writeBack_advances {loc : Loc} {nb : Nat} {r : Computed (8 * nb)}
    (h : writeBack loc nb r s = .ok t) (hl : loc.RegisterIn W) : Advances W 0 s t := by
  simp only [writeBack, run_bind_ok, run_pure, Except.ok.injEq] at h
  obtain ⟨s1, h1, rfl⟩ := h
  exact (writeLoc_advances h1 hl).setFlagsUnlessSR ..

theorem push32_advances {v : Word} (h : push32 v s = .ok t) (hsp : W .a s.cfg.spIndex) :
    Advances W 0 s t := by
  obtain ⟨sp, s1, h1, -, rfl⟩ := push32_ok_iff.1 h
  exact ((Advances.of_withReads (readSp_ok h1)).setSp hsp _).setMem _

theorem pop32_advances {v : Word} (h : pop32 s = .ok (v, t)) (hsp : W .a s.cfg.spIndex) :
    Advances W 0 s t := by
  obtain ⟨n, sp, d, rfl⟩ := pop32_ok h
  exact (Advances.of_withReads ⟨n, d, rfl⟩).setSp hsp sp

/-- A transfer of control moves IP anywhere and, as a call, SP (40_components.md R143). -/
theorem transfer_changesOnly {cccc : CondCode} {target : Word}
    (h : transfer cccc target s = .ok t) (hsp : isCall cccc = true → W .a s.cfg.spIndex) :
    ChangesOnly W s t := by
  rw [transfer_ok_iff] at h
  split at h
  next hcall =>
    obtain ⟨s1, h1, rfl⟩ := h
    exact (push32_advances h1 (hsp hcall)).toChangesOnly.setIp target
  next => exact h ▸ (Advances.refl s).toChangesOnly.setIp target

end

/-! ### The shapes of instruction -/

section
variable {c : Config} {i : Instr} {ea : EA} {nb : Nat} {loc : Loc} {s t : State}

theorem evalEA_advances (ho : i.operandEA = some ea) (h : evalEA ea nb s = .ok (loc, t)) :
    Advances (MayWrite c i) (extLen s.cfg nb ea) s t :=
  .of_operandFrame (evalEA_ok h).2 fun _ hx => mayWrite_stepped ho hx

theorem operand_advances (ho : i.operandEA = some ea) {v : BitVec (8 * nb)}
    (h : operand ea nb s = .ok (loc, v, t)) :
    Advances (MayWrite c i) (extLen s.cfg nb ea) s t :=
  .of_operandFrame (operand_ok h).2.1 fun _ hx => mayWrite_stepped ho hx

theorem evalEAImm_advances (ho : i.operandEA = some ea) {v : BitVec (8 * nb)}
    (h : evalEAImm ea nb s = .ok (loc, v, t)) :
    Advances (MayWrite c i) (extLen s.cfg nb ea + immLength s.cfg nb) s t :=
  .of_operandFrame (evalEAImm_ok h).2 fun _ hx => mayWrite_stepped ho hx

theorem operandImm_advances (ho : i.operandEA = some ea) {v imm : BitVec (8 * nb)}
    (h : operandImm ea nb s = .ok (loc, v, imm, t)) :
    Advances (MayWrite c i) (extLen s.cfg nb ea + immLength s.cfg nb) s t :=
  .of_operandFrame (operandImm_ok h).2.1 fun _ hx => mayWrite_stepped ho hx

theorem modifyEA_advances {w : Half} {f : BitVec (8 * nb) → Computed (8 * nb)}
    (ho : i.operandEA = some ea) (hw : i.writtenEA = some ea) (h : modifyEA w ea nb f s = .ok t) :
    Advances (MayWrite c i) (extLen s.cfg nb ea) s t := by
  obtain ⟨-, loc, v, s1, hop, hwr⟩ := modifyEA_ok h
  have hloc := registerIn_of_gives (c := c) hw (operand_ok hop).1
  exact (operand_advances ho hop).trans (writeBack_advances hwr hloc)

theorem modifyEACarry_advances {w : Half} {f : BitVec (8 * nb) → Bool → Computed (8 * nb)}
    (ho : i.operandEA = some ea) (hw : i.writtenEA = some ea)
    (h : modifyEACarry w ea nb f s = .ok t) :
    Advances (MayWrite c i) (extLen s.cfg nb ea) s t := by
  obtain ⟨-, loc, v, s1, b, s2, hop, hc, hwr⟩ := modifyEACarry_ok h
  have hloc := registerIn_of_gives (c := c) hw (operand_ok hop).1
  have hread := (operand_advances (c := c) ho hop).trans (.of_withReads (readFlag_ok hc))
  exact hread.trans (writeBack_advances hwr hloc)

theorem modifyQuickEA_advances {w : Half} {f : Word → Computed 32} (ho : i.operandEA = some ea)
    (hw : i.writtenEA = some ea) (h : modifyQuickEA w ea f s = .ok t) :
    Advances (MayWrite c i) (extLen s.cfg 4 ea) s t := by
  rw [modifyQuickEA_eq] at h
  exact modifyEA_advances ho hw h

theorem modifyQuickEACarry_advances {w : Half} {f : Word → Bool → Computed 32}
    (ho : i.operandEA = some ea) (hw : i.writtenEA = some ea)
    (h : modifyQuickEACarry w ea f s = .ok t) :
    Advances (MayWrite c i) (extLen s.cfg 4 ea) s t := by
  rw [modifyQuickEACarry_eq] at h
  exact modifyEACarry_advances ho hw h

theorem modifyEAImm_advances {w : Half} {f : BitVec (8 * nb) → BitVec (8 * nb) → Computed (8 * nb)}
    (ho : i.operandEA = some ea) (hw : i.writtenEA = some ea)
    (h : modifyEAImm w ea nb f s = .ok t) :
    Advances (MayWrite c i) (extLen s.cfg nb ea + immLength s.cfg nb) s t := by
  obtain ⟨-, loc, v, imm, s1, hop, hwr⟩ := modifyEAImm_ok h
  have hloc := registerIn_of_gives (c := c) hw (operandImm_ok hop).1
  exact (operandImm_advances ho hop).trans (writeBack_advances hwr hloc)

theorem testEA_advances {f : BitVec (8 * nb) → Computed (8 * nb)} (ho : i.operandEA = some ea)
    (h : testEA ea nb f s = .ok t) : Advances (MayWrite c i) (extLen s.cfg nb ea) s t := by
  obtain ⟨loc, v, s1, hop, rfl⟩ := testEA_ok_iff.1 h
  exact (operand_advances ho hop).setFlags _

theorem computeRy_advances {y : RegNum} {ss : Scale}
    {f : BitVec (8 * bytes ss) → BitVec (8 * bytes ss) → Computed (8 * bytes ss)}
    (ho : i.operandEA = some ea) (hy : i.yDest = some (regSel ss, y))
    (h : computeRy y ss ea f s = .ok t) :
    Advances (MayWrite c i) (extLen s.cfg (bytes ss) ea) s t := by
  obtain ⟨loc, b, s1, w, s2, old, u, hb, hw, hold, rfl⟩ := computeRy_ok_iff.1 h
  have hread := (operand_advances (c := c) ho hb).trans (readReg_advances hw)
  exact ((hread.trans (.of_withReads (readOld_ok hold))).setReg (mayWrite_yDest hy) _).setFlags _

theorem shiftDy_advances {kind : ShiftKind} {y : RegNum} (ho : i.operandEA = some ea)
    (hy : i.yDest = some (.d, y)) (h : shiftDy kind y ea s = .ok t) :
    Advances (MayWrite c i) (extLen s.cfg 1 ea) s t := by
  obtain ⟨loc, b, s1, d, u, hb, hd, rfl⟩ := shiftDy_ok_iff.1 h
  exact ((operand_advances ho hb).trans (readReg_advances hd)).writeDy (mayWrite_yDest hy) _

theorem computeDy_advances {y x : RegNum} {f : Word → Word → Computed 32}
    (hy : i.yDest = some (.d, y)) (h : computeDy y x f s = .ok t) :
    Advances (MayWrite c i) 0 s t := by
  obtain ⟨a, b, u, hab, rfl⟩ := computeDy_ok_iff.1 h
  exact (operandsDy_advances hab).writeDy (mayWrite_yDest hy) _

theorem divideDy_advances {y x : RegNum} {f : Word → Word → Computed 32}
    (hy : i.yDest = some (.d, y)) (h : divideDy y x f s = .ok t) :
    Advances (MayWrite c i) 0 s t := by
  obtain ⟨a, b, u, hab, -, rfl⟩ := divideDy_ok_iff.1 h
  exact (operandsDy_advances hab).writeDy (mayWrite_yDest hy) _

end

/-! ### The instructions of no shared shape -/

section
variable {s t : State} {ss : Scale} {ea : EA} {y : RegNum}

theorem execUnlnk_advances (h : execUnlnk s = .next t) : Advances (MayWrite s.cfg .unlnk) 0 s t := by
  simp only [execUnlnk, finish_eq_next, run_bind_ok, run_pure, Except.ok.injEq, Prod.exists] at h
  obtain ⟨bp, s1, hbp, v, s2, hpop, rfl⟩ := h
  have hsp : MayWrite s.cfg .unlnk .a s.cfg.spIndex := mayWrite_stackRegs (by simp [Instr.stackRegs])
  have hmoved := (Advances.of_withReads (readBp_ok hbp)).setSp hsp bp
  have hpopped := hmoved.trans (pop32_advances hpop (hmoved.cfg ▸ hsp))
  exact hpopped.setBp (mayWrite_stackRegs (by simp [Instr.stackRegs])) v

theorem execLnk_advances (h : execLnk ss s = .next t) :
    Advances (MayWrite s.cfg (.lnk ss)) (immLength s.cfg (bytes ss)) s t := by
  simp only [execLnk, finish_eq_next, run_bind_ok, run_pure, Except.ok.injEq, Prod.exists] at h
  obtain ⟨imm, s1, himm, bp, s2, hbp, s3, hpush, rfl⟩ := h
  have hsp : MayWrite s.cfg (.lnk ss) .a s.cfg.spIndex :=
    mayWrite_stackRegs (by simp [Instr.stackRegs])
  have hread : Advances (MayWrite s.cfg (.lnk ss)) _ s s2 :=
    (Advances.of_stream (fetchFrameImm_ok himm)).trans (.of_withReads (readBp_ok hbp))
  have hpushed := hread.trans (push32_advances hpush (hread.cfg ▸ hsp))
  exact (hpushed.setBp (mayWrite_stackRegs (by simp [Instr.stackRegs])) _).setSp hsp _

theorem execRfs_changesOnly (h : execRfs ss s = .next t) :
    ChangesOnly (MayWrite s.cfg (.rfs ss)) s t := by
  simp only [execRfs, finish_eq_next, run_bind_ok, run_pure, Except.ok.injEq, Prod.exists] at h
  obtain ⟨imm, s1, himm, v, s2, hpop, rfl⟩ := h
  have hsp : MayWrite s.cfg (.rfs ss) .a s.cfg.spIndex :=
    mayWrite_stackRegs (by simp [Instr.stackRegs])
  have hfetched : Advances (MayWrite s.cfg (.rfs ss)) _ s s1 := .of_stream (fetchFrameImm_ok himm)
  have hpopped := hfetched.trans (pop32_advances hpop (hfetched.cfg ▸ hsp))
  exact (hpopped.toChangesOnly.setIp v).setReg (by simpa [hpopped.cfg] using hsp) _

theorem execCmpi_advances (h : execCmpi ss ea s = .next t) :
    Advances (MayWrite s.cfg (.cmpi ss ea)) (extLen s.cfg (bytes ss) ea + immLength s.cfg (bytes ss))
      s t := by
  simp only [execCmpi, finish_eq_next, run_bind_ok, run_pure, Except.ok.injEq, Prod.exists] at h
  obtain ⟨loc, a, imm, s1, hop, rfl⟩ := h
  exact (operandImm_advances rfl hop).setFlags _

theorem execSti_advances (h : execSti ss ea s = .next t) :
    Advances (MayWrite s.cfg (.sti ss ea)) (extLen s.cfg (bytes ss) ea + immLength s.cfg (bytes ss))
      s t := by
  simp only [execSti, finish_eq_next, run_bind_ok, Prod.exists] at h
  obtain ⟨-, -, loc, imm, s1, he, hw⟩ := h
  exact (evalEAImm_advances rfl he).trans
    (writeLoc_advances hw (registerIn_of_gives rfl (evalEAImm_ok he).1))

theorem execClr_advances (h : execClr ss ea s = .next t) :
    Advances (MayWrite s.cfg (.clr ss ea)) (extLen s.cfg (bytes ss) ea) s t := by
  simp only [execClr, finish_eq_next, run_bind_ok, Prod.exists] at h
  obtain ⟨-, -, loc, s1, he, hw⟩ := h
  exact (evalEA_advances rfl he).trans
    (writeLoc_advances hw (registerIn_of_gives rfl (evalEA_ok he).1))

theorem execExt_advances (h : execExt ss ea s = .next t) :
    Advances (MayWrite s.cfg (.ext ss ea)) (extLen s.cfg (bytes ss) ea) s t := by
  simp only [execExt, finish_eq_next, run_bind_ok, run_pure, Except.ok.injEq, Prod.exists] at h
  obtain ⟨-, -, loc, a, s1, hop, s2, hw, rfl⟩ := h
  have hwritten := writeExtended_advances (W := MayWrite s.cfg (.ext ss ea)) hw
    (registerIn_of_gives rfl (operand_ok hop).1)
  exact ((operand_advances rfl hop).trans hwritten).setFlagsUnlessSR ..

theorem execCmpq_advances {q : BitVec 8} (h : execCmpq y q s = .next t) :
    Advances (MayWrite s.cfg (.cmpq y q)) 0 s t := by
  simp only [execCmpq, finish_eq_next, run_bind_ok, run_pure, Except.ok.injEq, Prod.exists] at h
  obtain ⟨a, s1, hr, rfl⟩ := h
  exact (readReg_advances hr).setFlags _

theorem execLd_advances (h : execLd y ss ea s = .next t) :
    Advances (MayWrite s.cfg (.ld y ss ea)) (extLen s.cfg (bytes ss) ea) s t := by
  simp only [execLd, finish_eq_next, run_bind_ok, Prod.exists] at h
  obtain ⟨loc, v, s1, hop, hw⟩ := h
  exact (operand_advances rfl hop).trans (regWriteN_advances hw (mayWrite_yDest rfl))

theorem execCmp_advances (h : execCmp y ss ea s = .next t) :
    Advances (MayWrite s.cfg (.cmp y ss ea)) (extLen s.cfg (bytes ss) ea) s t := by
  simp only [execCmp, finish_eq_next, run_bind_ok, run_pure, Except.ok.injEq, Prod.exists] at h
  obtain ⟨loc, b, s1, hop, a, s2, hr, rfl⟩ := h
  exact ((operand_advances rfl hop).trans (readRegN_advances hr)).setFlags _

theorem execSt_advances (h : execSt y ss ea s = .next t) :
    Advances (MayWrite s.cfg (.st y ss ea)) (extLen s.cfg (bytes ss) ea) s t := by
  simp only [execSt, finish_eq_next, run_bind_ok, Prod.exists] at h
  obtain ⟨-, -, loc, s1, he, v, s2, hr, hw⟩ := h
  have hread : Advances (MayWrite s.cfg (.st y ss ea)) _ s s2 :=
    (evalEA_advances rfl he).trans (readRegN_advances hr)
  exact hread.trans (writeLoc_advances hw (registerIn_of_gives rfl (evalEA_ok he).1))

theorem execBcc_changesOnly {cccc : CondCode} {q : BitVec 8} (h : execBcc cccc q s = .next t) :
    ChangesOnly (MayWrite s.cfg (.bcc cccc q)) s t := by
  simp only [execBcc, finish_eq_next, run_bind_ok, Prod.exists] at h
  obtain ⟨taken, s1, hc, h⟩ := h
  have hcond : ChangesOnly (MayWrite s.cfg (.bcc cccc q)) s s1 :=
    (Advances.of_withReads (readCond_ok hc)).toChangesOnly
  split at h
  · refine hcond.trans (transfer_changesOnly h fun hcall => ?_)
    rw [hcond.cfg]
    exact mayWrite_stackRegs (by simp [Instr.stackRegs, hcall])
  · cases h
    exact hcond

theorem execJcc_changesOnly {cccc : CondCode} (h : execJcc cccc ss ea s = .next t) :
    ChangesOnly (MayWrite s.cfg (.jcc cccc ss ea)) s t := by
  simp only [execJcc, finish_eq_next, run_bind_ok, Prod.exists] at h
  obtain ⟨taken, s1, hc, h⟩ := h
  have hcond : ChangesOnly (MayWrite s.cfg (.jcc cccc ss ea)) s s1 :=
    (Advances.of_withReads (readCond_ok hc)).toChangesOnly
  split at h
  · obtain ⟨⟨loc, v, s2⟩, hop, ht⟩ := run_bind_ok.1 h
    have hread := hcond.trans (operand_advances rfl hop).toChangesOnly
    refine hread.trans (transfer_changesOnly ht fun hcall => ?_)
    rw [hread.cfg]
    exact mayWrite_stackRegs (by simp [Instr.stackRegs, hcall])
  · cases h
    exact hcond.setIp _

end

/-! ### Every instruction -/

/-- An instruction that falls through writes registers of its lists only, and leaves IP past its own
extension words. -/
theorem exec_advances {i : Instr} {s t : State} (h : exec i s = .next t)
    (hi : i.transfersControl = false) :
    Advances (MayWrite s.cfg i) (i.extBytes s.cfg) s t := by
  cases i with
  | nop => cases h; exact .refl s
  | rfi => cases h
  | unlnk => exact execUnlnk_advances h
  | rfs ss => cases hi
  | lnk ss => simpa [Instr.extBytes, Instr.operandEA, Instr.ownImm] using execLnk_advances h
  | cmpi ss ea => exact execCmpi_advances h
  | sti ss ea => exact execSti_advances h
  | addi ss ea | subi ss ea | xori ss ea | ori ss ea | andi ss ea =>
    exact modifyEAImm_advances rfl rfl (finish_eq_next.1 h)
  | not ss ea | neg ss ea | rev ss ea | addq q ss ea | subq q ss ea =>
    exact modifyEA_advances rfl rfl (finish_eq_next.1 h)
  | lslq q ea | lsrq q ea | asrq q ea | rorq q ea =>
    exact modifyQuickEA_advances rfl rfl (finish_eq_next.1 h)
  | adc ss ea | sbc ss ea => exact modifyEACarry_advances rfl rfl (finish_eq_next.1 h)
  | rrc ea => exact modifyQuickEACarry_advances rfl rfl (finish_eq_next.1 h)
  | clr ss ea => exact execClr_advances h
  | ext ss ea => exact execExt_advances h
  | tst ss ea => exact testEA_advances rfl (finish_eq_next.1 h)
  | mul y x | hmulu y x | hmuls y x => exact computeDy_advances rfl (finish_eq_next.1 h)
  | divu y x | divs y x | modu y x | mods y x =>
    exact divideDy_advances rfl (finish_eq_next.1 h)
  | lsl y ea | lsr y ea | asr y ea | ror y ea => exact shiftDy_advances rfl rfl (finish_eq_next.1 h)
  | ldq y q => cases h; exact (Advances.refl s).setReg (mayWrite_yDest rfl) _
  | cmpq y q => exact execCmpq_advances h
  | ld y ss ea => exact execLd_advances h
  | cmp y ss ea => exact execCmp_advances h
  | add y ss ea | sub y ss ea | xor y ss ea | or y ss ea | and y ss ea =>
    exact computeRy_advances rfl rfl (finish_eq_next.1 h)
  | st y ss ea => exact execSt_advances h
  | bcc cccc q => cases hi
  | jcc cccc ss ea => cases hi

/-- Every instruction writes registers of its lists only. -/
theorem exec_changesOnly {i : Instr} {s t : State} (h : exec i s = .next t) :
    ChangesOnly (MayWrite s.cfg i) s t := by
  cases hi : i.transfersControl with
  | false => exact (exec_advances h hi).toChangesOnly
  | true =>
    cases i with
    | rfs ss => exact execRfs_changesOnly h
    | bcc cccc q => exact execBcc_changesOnly h
    | jcc cccc ss ea => exact execJcc_changesOnly h
    | _ => cases hi

/-- Settles O56: `exec_changesOnly`, read in each file. -/
theorem registerFrame : Obligations.RegisterFrame := by
  intro i s t h
  have hframe := exec_changesOnly h
  exact ⟨hframe.reg .d, hframe.reg .a⟩

/-- Settles O59: `exec_advances` says where IP ends. -/
theorem instructionPointerFrame : Obligations.InstructionPointerFrame :=
  fun _ _ _ h hi => (exec_advances h hi).ip

end Sys2Proof.Machine
end

section
/-! PROOF. What a read of what nothing has written does, and which reads count (10_state.md R30,
60_exceptions.md R265, R269). A read by itself first; then that the fault of a read is the fault of the
operation that makes it, and that reading an operand leaves the registers and flags read after it as they
were; and last the instructions, by family. -/

namespace Sys2Proof.Machine

/-! ### Bytes -/

theorem readByte_unwritten {s : State} {a : Word} (hc : s.cfg.unwrittenRead = .fault)
    (h : s.byteAt a = none) : readByte s a = .error (.unwrittenRead (.byte a)) := by
  simp [readByte, h, readUnwritten_fault hc]

/-- Under `fault` the first byte that nothing has written stops the read. -/
theorem readBytes_unwritten {nb j : Nat} {a : Word} {s : State}
    (hc : s.cfg.unwrittenRead = .fault) (hj : j < nb) (hnone : s.byteAt (byteAddr a j) = none)
    (hbefore : ∀ k, k < j → s.byteAt (byteAddr a k) ≠ none) :
    readBytes nb a s = .error (.unwrittenRead (.byte (byteAddr a j))) := by
  induction nb generalizing j a with
  | zero => omega
  | succ nb ih =>
    cases j with
    | zero =>
      rw [byteAddr_zero] at hnone
      simp [readBytes, readByte_unwritten hc hnone]
    | succ j =>
      have hfirst := hbefore 0 (by omega)
      rw [byteAddr_zero] at hfirst
      obtain ⟨b, hb⟩ := Option.ne_none_iff_exists'.1 hfirst
      rw [byteAddr_succ] at hnone ⊢
      have hrest := ih (by omega) hnone fun k hk => byteAddr_succ a k ▸ hbefore (k + 1) (by omega)
      simp only [readBytes, readByte_of_written hb]
      rw [hrest]

/-- Under `any_value` a byte reads, and draws at most one free value. -/
theorem readByte_anyValue {s : State} (hc : s.cfg.unwrittenRead = .anyValue) (a : Word) :
    ∃ b n, readByte s a = .ok (b, s.withReads (s.freeReads + n)) ∧ n ≤ 1 := by
  cases hb : s.byteAt a with
  | some b => exact ⟨b, 0, by simp [readByte_of_written hb], by omega⟩
  | none =>
    exact ⟨_, 1, by simp only [readByte, hb]; exact readUnwritten_ok_iff.2 ⟨hc, rfl, rfl⟩, le_rfl⟩

/-- Under `any_value` bytes read, and draw at most one free value each. -/
theorem readBytes_anyValue (nb : Nat) {s : State} (hc : s.cfg.unwrittenRead = .anyValue) (a : Word) :
    ∃ bs n, readBytes nb a s = .ok (bs, s.withReads (s.freeReads + n)) ∧ n ≤ nb := by
  induction nb generalizing s a with
  | zero => exact ⟨[], 0, rfl, le_rfl⟩
  | succ nb ih =>
    obtain ⟨b, n, hb, hn⟩ := readByte_anyValue hc a
    obtain ⟨bs, m, hbs, hm⟩ := ih (s := s.withReads (s.freeReads + n)) hc (a + 1)
    refine ⟨b :: bs, n + m, ?_, by omega⟩
    simp only [readBytes, hb, hbs]
    simp [Nat.add_assoc]

/-- A possible access comes to its bytes. -/
theorem memReadAligned_of_accessible {align nb : Nat} {a : Word} {s : State}
    (h : Accessible s align nb a) (kind : Access) :
    memReadAligned kind align nb a s = (readBytes nb a s >>= fun r =>
      pure (assemble s.cfg.byteOrder nb r.1, r.2)) := by
  obtain ⟨halign, hmap⟩ := h
  simp [memReadAligned, (checkAlign_ok_iff s kind align nb a).2 halign,
    (checkMap_ok_iff s kind nb a).2 hmap]

theorem memReadAligned_unwritten {kind : Access} {align nb j : Nat} {a : Word} {s : State}
    (hacc : Accessible s align nb a) (hc : s.cfg.unwrittenRead = .fault) (hj : j < nb)
    (hnone : s.byteAt (byteAddr a j) = none)
    (hbefore : ∀ k, k < j → s.byteAt (byteAddr a k) ≠ none) :
    memReadAligned kind align nb a s = .error (.unwrittenRead (.byte (byteAddr a j))) := by
  rw [memReadAligned_of_accessible hacc, readBytes_unwritten hc hj hnone hbefore, run_error_bind]

theorem memReadAligned_anyValue {kind : Access} {align nb : Nat} {a : Word} {s : State}
    (hacc : Accessible s align nb a) (hc : s.cfg.unwrittenRead = .anyValue) :
    ∃ v n, memReadAligned kind align nb a s = .ok (v, s.withReads (s.freeReads + n)) ∧ n ≤ nb := by
  obtain ⟨bs, n, hbs, hn⟩ := readBytes_anyValue nb hc a
  exact ⟨_, n, by rw [memReadAligned_of_accessible hacc, hbs]; rfl, hn⟩

/-! ### Registers and flags -/

section
variable {s : State} {f : RegFile} {i : RegNum}

theorem readReg_unwritten (hc : s.cfg.unwrittenRead = .fault) (h : s.regAt f i = none) :
    readReg f i s = .error (.unwrittenRead (.register f i)) :=
  (readReg_of_none h).trans (readUnwritten_fault hc)

theorem readReg_anyValue (hc : s.cfg.unwrittenRead = .anyValue) (h : s.regAt f i = none) :
    ∃ v, readReg f i s = .ok (v, s.withReads (s.freeReads + 1)) :=
  ⟨_, (readReg_of_none h).trans (readUnwritten_ok_iff.2 ⟨hc, rfl, rfl⟩)⟩

theorem readRegN_unwritten (hc : s.cfg.unwrittenRead = .fault) (h : s.regAt f i = none) (nb : Nat) :
    readRegN f i nb s = .error (.unwrittenRead (.register f i)) := by
  simp [readRegN, readReg_unwritten hc h]

/-- A narrow write under `preserve` reads the old register (10_state.md R27). -/
theorem regWriteN_unwritten {nb : Nat} (v : BitVec (8 * nb)) (hc : s.cfg.unwrittenRead = .fault)
    (hp : s.cfg.narrowWrite = .preserve) (hnb : nb ≠ 4) (h : s.regAt f i = none) :
    regWriteN f i nb v s = .error (.unwrittenRead (.register f i)) := by
  simp [regWriteN, readOld, keepsOld, hp, hnb, readReg_unwritten hc h]

variable {x : FlagName}

theorem readFlag_unwritten (hc : s.cfg.unwrittenRead = .fault) (h : s.flagAt x = none) :
    readFlag x s = .error (.unwrittenRead (.flag x)) :=
  (readFlag_of_none h).trans (readUnwritten_fault hc)

theorem readFlag_anyValue (hc : s.cfg.unwrittenRead = .anyValue) (h : s.flagAt x = none) :
    ∃ b, readFlag x s = .ok (b, s.withReads (s.freeReads + 1)) :=
  ⟨_, (readFlag_of_none h).trans (readUnwritten_ok_iff.2 ⟨hc, rfl, rfl⟩)⟩

/-- Of flags read in order the first that nothing has written is the one named. -/
theorem readFlags_unwritten {xs ys : List FlagName} (g : Flags)
    (hc : s.cfg.unwrittenRead = .fault) (hxs : ∀ y ∈ xs, s.flagAt y ≠ none)
    (h : s.flagAt x = none) :
    readFlags (xs ++ x :: ys) g s = .error (.unwrittenRead (.flag x)) := by
  induction xs generalizing g with
  | nil => simp [readFlags, readFlag_unwritten hc h]
  | cons y xs ih =>
    obtain ⟨b, hb⟩ := Option.ne_none_iff_exists'.1 (hxs y List.mem_cons_self)
    simp [readFlags, readFlag_of_some hb, ih _ fun w hw => hxs w (List.mem_cons_of_mem _ hw)]

end

theorem readSr_unwritten {s : State} {xs ys : List FlagName} {x : FlagName}
    (hc : s.cfg.unwrittenRead = .fault) (hxs : ∀ y ∈ xs, s.flagAt y ≠ none) (h : s.flagAt x = none)
    (hsplit : [FlagName.n, .z, .v, .c] = xs ++ x :: ys) :
    readSr s = .error (.unwrittenRead (.flag x)) := by
  simp [readSr, hsplit, readFlags_unwritten _ hc hxs h]

theorem readCond_unwritten {s : State} {xs ys : List FlagName} {x : FlagName} {cccc : CondCode}
    (hc : s.cfg.unwrittenRead = .fault) (hxs : ∀ y ∈ xs, s.flagAt y ≠ none) (h : s.flagAt x = none)
    (hsplit : condFlags cccc = xs ++ x :: ys) :
    readCond cccc s = .error (.unwrittenRead (.flag x)) := by
  simp [readCond, hsplit, readFlags_unwritten _ hc hxs h]

/-! ### Operands -/

theorem EA.mem_base_of_mem_stepped {ea : EA} {x : RegNum} (hx : x ∈ ea.stepped) : x ∈ ea.base := by
  cases ea with
  | postInc y | preDec y => exact hx
  | _ => cases hx

/-- An unwritten base register stops the evaluation before anything else (60_exceptions.md R269
step 4). -/
theorem evalEA_unwritten {ea : EA} {nb : Nat} {s : State} {x : RegNum}
    (hc : s.cfg.unwrittenRead = .fault) (hx : x ∈ ea.base) (h : s.regAt .a x = none) :
    evalEA ea nb s = .error (.unwrittenRead (.register .a x)) := by
  have hread := readReg_unwritten hc h
  cases ea with
  | postInc y | preDec y | deferred y | base16 y | base32 y =>
    obtain rfl := List.mem_singleton.1 hx
    simp [evalEA, hread]
  | _ => cases hx

theorem operand_unwritten {ea : EA} {nb : Nat} {s : State} {x : RegNum}
    (hc : s.cfg.unwrittenRead = .fault) (hx : x ∈ ea.base) (h : s.regAt .a x = none) :
    operand ea nb s = .error (.unwrittenRead (.register .a x)) := by
  simp [operand, evalEA_unwritten hc hx h]

theorem operand_dreg_unwritten {nb : Nat} {s : State} {x : RegNum}
    (hc : s.cfg.unwrittenRead = .fault) (h : s.regAt .d x = none) :
    operand (.dreg x) nb s = .error (.unwrittenRead (.register .d x)) := by
  simp [operand, evalEA, readLoc, readRegN_unwritten hc h]

theorem operand_sr_error {nb : Nat} {s : State} {e : Fault} (h : readSr s = .error e) :
    operand .sr nb s = .error e := by
  simp [operand, evalEA, readLoc, h]

theorem OperandFrame.unwrittenRead_fault {e : Nat} {l : List RegNum} {s t : State}
    (h : OperandFrame e l s t) (hc : s.cfg.unwrittenRead = .fault) :
    t.cfg.unwrittenRead = .fault := h.cfg ▸ hc

theorem OperandFrame.regAt {e : Nat} {l : List RegNum} {s t : State} (h : OperandFrame e l s t)
    {i : RegNum} (hi : i ∉ l) (f : RegFile) : t.regAt f i = s.regAt f i := by
  cases f with
  | d => exact h.data i
  | a => exact h.address i hi

/-- An address register that nothing has written is still unwritten once an operand is read: a form that
steps it would have read it. -/
theorem operand_regAt_none {ea : EA} {nb : Nat} {s s1 : State} {loc : Loc} {v : BitVec (8 * nb)}
    {i : RegNum} (hc : s.cfg.unwrittenRead = .fault) (ho : operand ea nb s = .ok (loc, v, s1))
    (h : s.regAt .a i = none) : s1.regAt .a i = none := by
  obtain ⟨-, hframe, s2, heval⟩ := operand_ok ho
  have hi : i ∉ ea.stepped := by
    intro hi
    rw [evalEA_unwritten hc (EA.mem_base_of_mem_stepped hi) h] at heval
    cases heval
  rw [hframe.address i hi, h]

/-! ### The fault of a read is the fault of the operation that makes it -/

theorem run_bind_of_error {α β : Type} {x : Run α} {e : Fault} (h : x = .error e)
    (f : α → Run β) : (x >>= f) = .error e := by rw [h, run_error_bind]

theorem run_bind_of_ok {α β : Type} {x : Run α} {a : α} {r : Run β} (h : x = .ok a)
    {f : α → Run β} (hr : f a = r) : (x >>= f) = r := by rw [h, run_ok_bind, hr]

section
variable {s s1 : State} {ea : EA} {nb : Nat} {loc : Loc} {w : Half} {x y : RegNum} {e : Fault}

theorem modifyEA_error {f : BitVec (8 * nb) → Computed (8 * nb)} (hi : ea ≠ .imm)
    (h : operand ea nb s = .error e) : modifyEA w ea nb f s = .error e :=
  run_bind_of_ok (guardDest_ok s.cfg w hi) (run_bind_of_error h _)

theorem modifyEACarry_error {f : BitVec (8 * nb) → Bool → Computed (8 * nb)} {v : BitVec (8 * nb)}
    (hi : ea ≠ .imm) (ho : operand ea nb s = .ok (loc, v, s1)) (h : readFlag .c s1 = .error e) :
    modifyEACarry w ea nb f s = .error e :=
  run_bind_of_ok (guardDest_ok s.cfg w hi) (run_bind_of_ok ho (run_bind_of_error h _))

theorem testEA_error {f : BitVec (8 * nb) → Computed (8 * nb)} (h : operand ea nb s = .error e) :
    testEA ea nb f s = .error e := run_bind_of_error h _

theorem computeRy_error {ss : Scale}
    {f : BitVec (8 * bytes ss) → BitVec (8 * bytes ss) → Computed (8 * bytes ss)}
    {v : BitVec (8 * bytes ss)} (ho : operand ea (bytes ss) s = .ok (loc, v, s1))
    (h : readRegN (regSel ss) y (bytes ss) s1 = .error e) : computeRy y ss ea f s = .error e :=
  run_bind_of_ok ho (run_bind_of_error h _)

theorem shiftDy_error {kind : ShiftKind} {v : BitVec (8 * 1)} (ho : operand ea 1 s = .ok (loc, v, s1))
    (h : readReg .d y s1 = .error e) : shiftDy kind y ea s = .error e :=
  run_bind_of_ok ho (run_bind_of_error h _)

theorem computeDy_error {f : Word → Word → Computed 32} (h : operandsDy y x s = .error e) :
    computeDy y x f s = .error e := run_bind_of_error h _

theorem divideDy_error {f : Word → Word → Computed 32} (h : operandsDy y x s = .error e) :
    divideDy y x f s = .error e := run_bind_of_error h _

theorem operandsDy_unwritten_left (hc : s.cfg.unwrittenRead = .fault) (h : s.regAt .d y = none) :
    operandsDy y x s = .error (.unwrittenRead (.register .d y)) :=
  run_bind_of_error (readReg_unwritten hc h) _

theorem operandsDy_unwritten_right (hc : s.cfg.unwrittenRead = .fault) (hy : s.regAt .d y ≠ none)
    (h : s.regAt .d x = none) :
    operandsDy y x s = .error (.unwrittenRead (.register .d x)) := by
  obtain ⟨v, hv⟩ := Option.ne_none_iff_exists'.1 hy
  exact run_bind_of_ok (readReg_of_some hv) (run_bind_of_error (readReg_unwritten hc h) _)

theorem push32_unwritten (v : Word) (hc : s.cfg.unwrittenRead = .fault)
    (h : s.regAt .a s.cfg.spIndex = none) :
    push32 v s = .error (.unwrittenRead (.register .a s.cfg.spIndex)) :=
  run_bind_of_error (readReg_unwritten hc h) _

theorem pop32_unwritten (hc : s.cfg.unwrittenRead = .fault) (h : s.regAt .a s.cfg.spIndex = none) :
    pop32 s = .error (.unwrittenRead (.register .a s.cfg.spIndex)) :=
  run_bind_of_error (readReg_unwritten hc h) _

theorem transfer_call_unwritten (target : Word) (hc : s.cfg.unwrittenRead = .fault)
    (h : s.regAt .a s.cfg.spIndex = none) :
    transfer 0b0111#4 target s = .error (.unwrittenRead (.register .a s.cfg.spIndex)) :=
  run_bind_of_error (push32_unwritten s.ip hc h) _

end

/-! ### The instructions, by family -/

theorem exec_complex_error {s : State} {y x : RegNum} {i : Instr} {e : Fault}
    (h : operandsDy y x s = .error e)
    (hi : i ∈ [Instr.mul y x, .hmulu y x, .hmuls y x, .divu y x, .divs y x, .modu y x, .mods y x]) :
    exec i s = .fault e := by
  simp only [List.mem_cons, List.not_mem_nil, or_false] at hi
  obtain rfl | rfl | rfl | hdivision := hi
  · exact finish_eq_fault.2 (computeDy_error h)
  · exact finish_eq_fault.2 (computeDy_error h)
  · exact finish_eq_fault.2 (computeDy_error h)
  · obtain rfl | rfl | rfl | rfl := hdivision <;> exact finish_eq_fault.2 (divideDy_error h)

section
variable {s s1 : State} {ss : Scale} {ea : EA} {loc : Loc} {x y : RegNum} {i : Instr}
  (hc : s.cfg.unwrittenRead = .fault)
include hc

theorem exec_cmpq_unwritten (q : BitVec 8) (h : s.regAt .d y = none) :
    exec (.cmpq y q) s = .fault (.unwrittenRead (.register .d y)) :=
  finish_eq_fault.2 (run_bind_of_error (readReg_unwritten hc h) _)

/-- One instruction of each form that has a base register. -/
theorem exec_base_unwritten (h : s.regAt .a x = none)
    (hi : i ∈ [Instr.tst ss (.postInc x), .clr ss (.preDec x), .st y ss (.deferred x),
      .ld y ss (.base16 x), .cmp y ss (.base32 x)]) :
    exec i s = .fault (.unwrittenRead (.register .a x)) := by
  have hx : x ∈ [x] := List.mem_cons_self
  simp only [List.mem_cons, List.not_mem_nil, or_false] at hi
  obtain rfl | rfl | rfl | rfl | rfl := hi
  case inl => exact finish_eq_fault.2 (testEA_error (operand_unwritten hc hx h))
  case inr.inl | inr.inr.inl =>
    exact finish_eq_fault.2 (run_bind_of_ok (guardDest_ok s.cfg _ (by simp))
      (run_bind_of_error (evalEA_unwritten hc hx h) _))
  all_goals exact finish_eq_fault.2 (run_bind_of_error (operand_unwritten hc hx h) _)

theorem exec_computeRy_unwritten {v : BitVec (8 * bytes ss)}
    (ho : operand ea (bytes ss) s = .ok (loc, v, s1)) (h : s.regAt (regSel ss) y = none)
    (hy : y ∉ ea.stepped)
    (hi : i ∈ [Instr.cmp y ss ea, .add y ss ea, .sub y ss ea, .xor y ss ea, .or y ss ea,
      .and y ss ea]) :
    exec i s = .fault (.unwrittenRead (.register (regSel ss) y)) := by
  obtain ⟨-, hframe, -⟩ := operand_ok ho
  have hread := readRegN_unwritten (hframe.unwrittenRead_fault hc) ((hframe.regAt hy _).trans h)
    (bytes ss)
  simp only [List.mem_cons, List.not_mem_nil, or_false] at hi
  obtain rfl | hcomputed := hi
  · exact finish_eq_fault.2 (run_bind_of_ok ho (run_bind_of_error hread _))
  · obtain rfl | rfl | rfl | rfl | rfl := hcomputed <;>
      exact finish_eq_fault.2 (computeRy_error ho hread)

theorem exec_ld_unwritten {v : BitVec (8 * bytes ss)}
    (ho : operand ea (bytes ss) s = .ok (loc, v, s1)) (h : s.regAt (regSel ss) y = none)
    (hy : y ∉ ea.stepped) (hp : s.cfg.narrowWrite = .preserve) (hnb : bytes ss ≠ 4) :
    exec (.ld y ss ea) s = .fault (.unwrittenRead (.register (regSel ss) y)) := by
  obtain ⟨-, hframe, -⟩ := operand_ok ho
  exact finish_eq_fault.2 (run_bind_of_ok ho (regWriteN_unwritten v (hframe.unwrittenRead_fault hc)
    (hframe.cfg ▸ hp) hnb ((hframe.regAt hy _).trans h)))

theorem exec_jcc_call_unwritten {v : BitVec (8 * bytes ss)}
    (ho : operand ea (bytes ss) s = .ok (loc, v, s1)) (h : s.regAt .a s.cfg.spIndex = none) :
    exec (.jcc 0b0111#4 ss ea) s = .fault (.unwrittenRead (.register .a s.cfg.spIndex)) := by
  obtain ⟨-, hframe, -⟩ := operand_ok ho
  have hsp := operand_regAt_none hc ho h
  rw [← hframe.cfg] at hsp ⊢
  exact finish_eq_fault.2 (run_bind_of_ok (readCond_always s).2 (run_bind_of_ok ho
    (transfer_call_unwritten _ (hframe.unwrittenRead_fault hc) hsp)))

theorem readFlag_c_unwritten_of_operand {nb : Nat} {v : BitVec (8 * nb)}
    (ho : operand ea nb s = .ok (loc, v, s1)) (h : s.flagAt .c = none) :
    readFlag .c s1 = .error (.unwrittenRead (.flag .c)) := by
  obtain ⟨-, hframe, -⟩ := operand_ok ho
  exact readFlag_unwritten (hframe.unwrittenRead_fault hc) ((hframe.flags .c).trans h)

theorem exec_carry_unwritten {v : BitVec (8 * bytes ss)}
    (ho : operand ea (bytes ss) s = .ok (loc, v, s1)) (h : s.flagAt .c = none) (him : ea ≠ .imm)
    (hi : i ∈ [Instr.adc ss ea, .sbc ss ea]) :
    exec i s = .fault (.unwrittenRead (.flag .c)) := by
  have hflag := readFlag_c_unwritten_of_operand hc ho h
  simp only [List.mem_cons, List.not_mem_nil, or_false] at hi
  obtain rfl | rfl := hi <;> exact finish_eq_fault.2 (modifyEACarry_error him ho hflag)

theorem exec_rrc_unwritten {v : BitVec (8 * 4)} (ho : operand ea 4 s = .ok (loc, v, s1))
    (h : s.flagAt .c = none) (him : ea ≠ .imm) :
    exec (.rrc ea) s = .fault (.unwrittenRead (.flag .c)) :=
  finish_eq_fault.2 ((modifyQuickEACarry_eq ..).trans
    (modifyEACarry_error him ho (readFlag_c_unwritten_of_operand hc ho h)))

theorem exec_shift_unwritten {v : BitVec (8 * 1)} (ho : operand ea 1 s = .ok (loc, v, s1))
    (h : s.regAt .d y = none)
    (hi : i ∈ [Instr.lsl y ea, .lsr y ea, .asr y ea, .ror y ea]) :
    exec i s = .fault (.unwrittenRead (.register .d y)) := by
  obtain ⟨-, hframe, -⟩ := operand_ok ho
  have hread := readReg_unwritten (hframe.unwrittenRead_fault hc) ((hframe.data y).trans h)
  simp only [List.mem_cons, List.not_mem_nil, or_false] at hi
  obtain rfl | rfl | rfl | rfl := hi <;> exact finish_eq_fault.2 (shiftDy_error ho hread)

theorem exec_st_unwritten (he : evalEA ea (bytes ss) s = .ok (loc, s1))
    (h : s.regAt (regSel ss) y = none) (hy : y ∉ ea.stepped) (him : ea ≠ .imm) :
    exec (.st y ss ea) s = .fault (.unwrittenRead (.register (regSel ss) y)) := by
  obtain ⟨-, hframe⟩ := evalEA_ok he
  have hread := readRegN_unwritten (hframe.unwrittenRead_fault hc) ((hframe.regAt hy _).trans h)
    (bytes ss)
  exact finish_eq_fault.2 (run_bind_of_ok (guardDest_ok s.cfg _ him)
    (run_bind_of_ok he (run_bind_of_error hread _)))

theorem exec_neg_unwritten (ss : Scale) (h : s.regAt .d x = none) :
    exec (.neg ss (.dreg x)) s = .fault (.unwrittenRead (.register .d x)) :=
  finish_eq_fault.2 (modifyEA_error (by simp) (operand_dreg_unwritten hc h))

theorem exec_clr_unwritten (h : s.regAt .d x = none) (hp : s.cfg.narrowWrite = .preserve)
    (hnb : bytes ss ≠ 4) :
    exec (.clr ss (.dreg x)) s = .fault (.unwrittenRead (.register .d x)) :=
  finish_eq_fault.2 (run_bind_of_ok (guardDest_ok s.cfg _ (by simp))
    (run_bind_of_ok rfl (regWriteN_unwritten 0 hc hp hnb h)))

theorem exec_unlnk_unwritten (h : s.regAt .a s.cfg.bpIndex = none) :
    exec .unlnk s = .fault (.unwrittenRead (.register .a s.cfg.bpIndex)) :=
  finish_eq_fault.2 (run_bind_of_error (readReg_unwritten hc h) _)

theorem exec_bcc_call_unwritten (q : BitVec 8) (h : s.regAt .a s.cfg.spIndex = none) :
    exec (.bcc 0b0111#4 q) s = .fault (.unwrittenRead (.register .a s.cfg.spIndex)) :=
  finish_eq_fault.2 (run_bind_of_ok (readCond_always s).2 (transfer_call_unwritten _ hc h))

variable {imm : Word} (himm : fetchFrameImm ss s = .ok (imm, s1))
include himm

/-- The immediate of LNK and RFS leaves every register as it was. -/
theorem readReg_unwritten_of_frameImm {f : RegFile} {j : RegNum} (h : s.regAt f j = none) :
    readReg f j s1 = .error (.unwrittenRead (.register f j)) := by
  obtain ⟨n, -, rfl⟩ := fetchFrameImm_ok himm
  exact readReg_unwritten hc (by simpa using h)

theorem exec_lnk_unwritten_bp (h : s.regAt .a s.cfg.bpIndex = none) :
    exec (.lnk ss) s = .fault (.unwrittenRead (.register .a s.cfg.bpIndex)) := by
  have hcfg := (fetchFrameImm_keepsParameters himm).cfg
  have hread := readReg_unwritten_of_frameImm hc himm h
  rw [← hcfg] at hread ⊢
  exact finish_eq_fault.2 (run_bind_of_ok himm (run_bind_of_error hread _))

theorem exec_rfs_unwritten (h : s.regAt .a s.cfg.spIndex = none) :
    exec (.rfs ss) s = .fault (.unwrittenRead (.register .a s.cfg.spIndex)) := by
  have hcfg := (fetchFrameImm_keepsParameters himm).cfg
  have hread := readReg_unwritten_of_frameImm hc himm h
  rw [← hcfg] at hread ⊢
  exact finish_eq_fault.2 (run_bind_of_ok himm (run_bind_of_error (run_bind_of_error hread _) _))

/-- BP is read before SP (log 30), so SP is named where BP has been written. -/
theorem exec_lnk_unwritten_sp (h : s.regAt .a s.cfg.spIndex = none)
    (hbp : s.regAt .a s.cfg.bpIndex ≠ none) :
    exec (.lnk ss) s = .fault (.unwrittenRead (.register .a s.cfg.spIndex)) := by
  obtain ⟨v, hv⟩ := Option.ne_none_iff_exists'.1 hbp
  obtain ⟨n, -, hs1⟩ := fetchFrameImm_ok himm
  have hcfg : s1.cfg = s.cfg := by simp [hs1]
  have hreadBp : readBp s1 = .ok (v, s1) := readReg_of_some (by simpa [hs1] using hv)
  have hreadSp := readReg_unwritten_of_frameImm hc himm h
  rw [← hcfg] at hreadSp ⊢
  exact finish_eq_fault.2 (run_bind_of_ok himm (run_bind_of_ok hreadBp
    (run_bind_of_error (run_bind_of_error hreadSp _) _)))

end

/-- Settles O13: the reads themselves, then each family of instructions by the lemma of its name. -/
theorem unwrittenReads : Obligations.UnwrittenReads := by
  refine ⟨?bytes, ?register, ?flag, fun s hc => ⟨?complex, fun y q => exec_cmpq_unwritten hc q,
    fun ss x y i hi h => exec_base_unwritten hc h hi, ?afterOperand, ?shiftsAndStore,
    fun ss x h => ⟨exec_neg_unwritten hc ss h, exec_clr_unwritten hc h⟩, ?severalFlags, ?bp, ?sp⟩⟩
  case bytes =>
    intro kind align nb a s _ hacc
    exact ⟨fun hc j hj hnone hbefore => memReadAligned_unwritten hacc hc hj hnone hbefore,
      memReadAligned_anyValue hacc⟩
  case register =>
    intro f i s
    exact ⟨fun v => readReg_of_some,
      fun h => ⟨fun hc => readReg_unwritten hc h, fun hc => readReg_anyValue hc h⟩⟩
  case flag =>
    intro x s
    exact ⟨fun b => readFlag_of_some,
      fun h => ⟨fun hc => readFlag_unwritten hc h, fun hc => readFlag_anyValue hc h⟩⟩
  case complex =>
    intro y x i hi
    exact ⟨fun h => exec_complex_error (operandsDy_unwritten_left hc h) hi,
      fun hy h => exec_complex_error (operandsDy_unwritten_right hc hy h) hi⟩
  case afterOperand =>
    intro ss ea loc a y s1 ho
    exact ⟨fun h hy i => exec_computeRy_unwritten hc ho h hy, exec_ld_unwritten hc ho,
      exec_jcc_call_unwritten hc ho, fun h him i => exec_carry_unwritten hc ho h him⟩
  case shiftsAndStore =>
    intro ea loc y s1
    exact ⟨fun b ho h i => exec_shift_unwritten hc ho h, fun d => exec_rrc_unwritten hc,
      fun ss => exec_st_unwritten hc⟩
  case severalFlags =>
    intro xs ys x hxs h
    refine ⟨fun hsplit ss => ?_, fun cccc hsplit q ss ea => ?_⟩
    · exact finish_eq_fault.2 (testEA_error (operand_sr_error (readSr_unwritten hc hxs h hsplit)))
    · have hcond := readCond_unwritten hc hxs h hsplit
      exact ⟨finish_eq_fault.2 (run_bind_of_error hcond _),
        finish_eq_fault.2 (run_bind_of_error hcond _)⟩
  case bp =>
    intro h
    exact ⟨exec_unlnk_unwritten hc h, fun ss imm s1 himm => exec_lnk_unwritten_bp hc himm h⟩
  case sp =>
    intro h
    exact ⟨fun q => exec_bcc_call_unwritten hc q h,
      fun ss imm s1 himm => ⟨exec_rfs_unwritten hc himm h, exec_lnk_unwritten_sp hc himm h⟩⟩

end Sys2Proof.Machine
end

section
/-! PROOF. Where an instruction stores (20_memory.md R50, R56, R63). Every instruction writes at most
one run of bytes: through its effective address or by its push, at the place `eaStore` or `pushStore`
names. That memory stays canonical and that every other byte is unchanged are both read off from it. -/

namespace Sys2Proof.Machine

/-! ### One run of bytes -/

/-- From `s` to `t` memory has at most received one run of bytes, which fills the place `p`. -/
def StoresAt (p : Option (Word × Nat)) (s t : State) : Prop :=
  t.mem = s.mem ∨ ∃ a bs, p = some (a, bs.length) ∧ t.mem = writeBytes s.mem a bs

section
variable {p : Option (Word × Nat)} {s s1 t u : State}

/-- A store after operations that leave memory. -/
theorem StoresAt.after (h : StoresAt p s1 t) (hm : s1.mem = s.mem) : StoresAt p s t := by
  unfold StoresAt at *
  rwa [← hm]

/-- A store before operations that leave memory. -/
theorem StoresAt.before (h : StoresAt p s t) (hm : u.mem = t.mem) : StoresAt p s u := by
  unfold StoresAt at *
  rwa [hm]

/-- Receiving a run of bytes keeps memory canonical. -/
theorem StoresAt.wf (h : StoresAt p s t) (hs : Memory.wf s.mem = true) : Memory.wf t.mem = true := by
  rcases h with hm | ⟨a, bs, -, hm⟩
  · rwa [hm]
  · exact hm ▸ writeBytes_wf a bs hs

/-- A byte outside the place is unchanged. -/
theorem StoresAt.byteAt (h : StoresAt p s t) {b : Word}
    (hb : ∀ a n k, p = some (a, n) → k < n → b ≠ byteAddr a k) : t.byteAt b = s.byteAt b := by
  rcases h with hm | ⟨a, bs, hp, hm⟩
  · simp only [State.byteAt, hm]
  · simp only [State.byteAt, hm]
    exact read_writeBytes_of_ne _ _ _ _ fun k hk => hb a _ k hp hk

end

/-! ### Operations that leave memory -/

section
variable {s t : State}

theorem mem_of_withReads (h : ∃ n, Draws s n ∧ t = s.withReads n) : t.mem = s.mem := by
  obtain ⟨n, -, rfl⟩ := h
  rfl

theorem mem_of_stream {a : Word} (h : ∃ n, Draws s n ∧ t = (s.withReads n).setIp a) :
    t.mem = s.mem := by
  obtain ⟨n, -, rfl⟩ := h
  rfl

theorem readRegN_mem {f : RegFile} {i : RegNum} {nb : Nat} {v : BitVec (8 * nb)}
    (h : readRegN f i nb s = .ok (v, t)) : t.mem = s.mem := by
  obtain ⟨w, hw, -⟩ := readRegN_ok h
  exact mem_of_withReads (readReg_ok hw)

theorem regWriteN_mem {f : RegFile} {i : RegNum} {nb : Nat} {v : BitVec (8 * nb)}
    (h : regWriteN f i nb v s = .ok t) : t.mem = s.mem := by
  obtain ⟨old, u, ho, rfl⟩ := regWriteN_ok_iff.1 h
  rw [setReg_mem, mem_of_withReads (readOld_ok ho)]

theorem pop32_mem {v : Word} (h : pop32 s = .ok (v, t)) : t.mem = s.mem := by
  obtain ⟨n, sp, -, rfl⟩ := pop32_ok h
  rw [setSp_mem, withReads_mem]

theorem operandsDy_mem {y x : RegNum} {a b : Word} (h : operandsDy y x s = .ok (a, b, t)) :
    t.mem = s.mem := by
  obtain ⟨s1, ha, hb⟩ := operandsDy_ok_iff.1 h
  exact (mem_of_withReads (readReg_ok hb)).trans (mem_of_withReads (readReg_ok ha))

@[simp] theorem writeDy_mem (y : RegNum) (r : Computed 32) (s : State) :
    (writeDy y r s).mem = s.mem := by simp [writeDy]

@[simp] theorem setFlagsUnlessSR_mem (loc : Loc) (f : Flags) (s : State) :
    (setFlagsUnlessSR loc f s).mem = s.mem := by
  rw [setFlagsUnlessSR_eq]
  split <;> rfl

end

/-! ### Operations that store -/

section
variable {s t : State}

theorem memWrite_storesAt {nb : Nat} {a : Word} {v : BitVec (8 * nb)}
    (h : memWrite nb a v s = .ok t) : StoresAt (some (a, nb)) s t := by
  obtain ⟨-, rfl⟩ := memWrite_ok_iff.1 h
  exact .inr ⟨a, disassemble s.cfg.byteOrder nb v, by rw [length_disassemble], rfl⟩

theorem writeLoc_storesAt {loc : Loc} {nb : Nat} {v : BitVec (8 * nb)}
    (h : writeLoc loc nb v s = .ok t) : StoresAt (loc.stored nb) s t := by
  cases loc with
  | dreg i => exact .inl (regWriteN_mem h)
  | areg i => exact .inl (regWriteN_mem h)
  | mem a => exact memWrite_storesAt h
  | imm c => cases h; exact .inl rfl
  | sr => cases h; exact .inl rfl

theorem writeExtended_storesAt {loc : Loc} {nb : Nat} {v : BitVec (8 * nb)}
    (h : writeExtended loc nb v s = .ok t) : StoresAt (loc.stored nb) s t := by
  cases loc with
  | dreg i => cases h; exact .inl (setReg_mem ..)
  | areg i => cases h; exact .inl (setReg_mem ..)
  | mem a => exact writeLoc_storesAt (loc := .mem a) h
  | imm c => cases h; exact .inl rfl
  | sr => exact writeLoc_storesAt (loc := .sr) h

theorem writeBack_storesAt {loc : Loc} {nb : Nat} {r : Computed (8 * nb)}
    (h : writeBack loc nb r s = .ok t) : StoresAt (loc.stored nb) s t := by
  simp only [writeBack, run_bind_ok, run_pure, Except.ok.injEq] at h
  obtain ⟨s1, h1, rfl⟩ := h
  exact (writeLoc_storesAt h1).before (setFlagsUnlessSR_mem ..)

theorem push32_storesAt {v : Word} (h : push32 v s = .ok t) : StoresAt (wordBelowSp s) s t := by
  obtain ⟨sp, s1, h1, -, rfl⟩ := push32_ok_iff.1 h
  refine .inr ⟨sp - 4, disassemble s1.cfg.byteOrder 4 v, ?_, ?_⟩
  · simp [wordBelowSp, h1]
  · rw [setMem_mem, mem_of_withReads (readSp_ok h1)]

theorem transfer_storesAt_of_isCall {cccc : CondCode} {target : Word} (hcall : isCall cccc = true)
    (h : transfer cccc target s = .ok t) : StoresAt (wordBelowSp s) s t := by
  rw [transfer_ok_iff, if_pos hcall] at h
  obtain ⟨s1, h1, rfl⟩ := h
  exact (push32_storesAt h1).before rfl

theorem transfer_mem_of_not_isCall {cccc : CondCode} {target : Word} (hcall : isCall cccc = false)
    (h : transfer cccc target s = .ok t) : t.mem = s.mem := by
  rw [transfer_ok_iff, hcall] at h
  exact h ▸ rfl

end

/-! ### The place an instruction names -/

/-- From `s` to `t` memory has at most received one run of bytes, which fills the place that the
instruction's effective address gives or the place that its push takes. -/
def Stores (i : Instr) (s t : State) : Prop :=
  StoresAt (eaStore i s) s t ∨ StoresAt (pushStore i s) s t

theorem Stores.of_mem {i : Instr} {s t : State} (h : t.mem = s.mem) : Stores i s t := .inl (.inl h)

section
variable {i : Instr} {ea : EA} {nb : Nat} {loc : Loc} {s s1 t : State}

theorem eaStore_of_evalEA (hw : i.writtenEA = some ea) (hi : i.ownImm = none)
    (h : evalEA ea i.operandBytes s = .ok (loc, s1)) :
    eaStore i s = loc.stored i.operandBytes := by
  simp [eaStore, hw, hi, h]

theorem eaStore_of_evalEAImm {n : Nat} {imm : BitVec (8 * i.operandBytes)}
    (hw : i.writtenEA = some ea) (hi : i.ownImm = some n)
    (h : evalEAImm ea i.operandBytes s = .ok (loc, imm, s1)) :
    eaStore i s = loc.stored i.operandBytes := by
  simp [eaStore, hw, hi, h]

/-! ### The shapes of instruction -/

theorem modifyEA_stores {w : Half} {f : BitVec (8 * nb) → Computed (8 * nb)}
    (hw : i.writtenEA = some ea) (hn : i.operandBytes = nb) (hi : i.ownImm = none)
    (h : modifyEA w ea nb f s = .ok t) : Stores i s t := by
  subst hn
  obtain ⟨-, loc, v, s1, hop, hwr⟩ := modifyEA_ok h
  obtain ⟨-, hframe, s0, he⟩ := operand_ok hop
  rw [Stores, eaStore_of_evalEA hw hi he]
  exact .inl ((writeBack_storesAt hwr).after hframe.mem)

theorem modifyEACarry_stores {w : Half} {f : BitVec (8 * nb) → Bool → Computed (8 * nb)}
    (hw : i.writtenEA = some ea) (hn : i.operandBytes = nb) (hi : i.ownImm = none)
    (h : modifyEACarry w ea nb f s = .ok t) : Stores i s t := by
  subst hn
  obtain ⟨-, loc, v, s1, c, s2, hop, hc, hwr⟩ := modifyEACarry_ok h
  obtain ⟨-, hframe, s0, he⟩ := operand_ok hop
  have hmem : s2.mem = s.mem := (mem_of_withReads (readFlag_ok hc)).trans hframe.mem
  rw [Stores, eaStore_of_evalEA hw hi he]
  exact .inl ((writeBack_storesAt hwr).after hmem)

theorem modifyQuickEA_stores {w : Half} {f : Word → Computed 32} (hw : i.writtenEA = some ea)
    (hn : i.operandBytes = 4) (hi : i.ownImm = none) (h : modifyQuickEA w ea f s = .ok t) :
    Stores i s t := by
  rw [modifyQuickEA_eq] at h
  exact modifyEA_stores hw hn hi h

theorem modifyQuickEACarry_stores {w : Half} {f : Word → Bool → Computed 32}
    (hw : i.writtenEA = some ea) (hn : i.operandBytes = 4) (hi : i.ownImm = none)
    (h : modifyQuickEACarry w ea f s = .ok t) : Stores i s t := by
  rw [modifyQuickEACarry_eq] at h
  exact modifyEACarry_stores hw hn hi h

theorem modifyEAImm_stores {w : Half} {n : Nat}
    {f : BitVec (8 * nb) → BitVec (8 * nb) → Computed (8 * nb)}
    (hw : i.writtenEA = some ea) (hn : i.operandBytes = nb) (hi : i.ownImm = some n)
    (h : modifyEAImm w ea nb f s = .ok t) : Stores i s t := by
  subst hn
  obtain ⟨-, loc, v, imm, s1, hop, hwr⟩ := modifyEAImm_ok h
  obtain ⟨-, hframe, s0, he⟩ := operandImm_ok hop
  rw [Stores, eaStore_of_evalEAImm hw hi he]
  exact .inl ((writeBack_storesAt hwr).after hframe.mem)

theorem testEA_mem {f : BitVec (8 * nb) → Computed (8 * nb)} (h : testEA ea nb f s = .ok t) :
    t.mem = s.mem := by
  obtain ⟨loc, v, s1, hop, rfl⟩ := testEA_ok_iff.1 h
  exact (operand_ok hop).2.1.mem

theorem computeRy_mem {y : RegNum} {ss : Scale}
    {f : BitVec (8 * bytes ss) → BitVec (8 * bytes ss) → Computed (8 * bytes ss)}
    (h : computeRy y ss ea f s = .ok t) : t.mem = s.mem := by
  obtain ⟨loc, b, s1, w, s2, old, u, hop, hw, hold, rfl⟩ := computeRy_ok_iff.1 h
  rw [setFlags_mem, setReg_mem, mem_of_withReads (readOld_ok hold), mem_of_withReads (readReg_ok hw),
    (operand_ok hop).2.1.mem]

theorem shiftDy_mem {kind : ShiftKind} {y : RegNum} (h : shiftDy kind y ea s = .ok t) :
    t.mem = s.mem := by
  obtain ⟨loc, b, s1, d, u, hop, hd, rfl⟩ := shiftDy_ok_iff.1 h
  rw [writeDy_mem, mem_of_withReads (readReg_ok hd), (operand_ok hop).2.1.mem]

theorem computeDy_mem {y x : RegNum} {f : Word → Word → Computed 32}
    (h : computeDy y x f s = .ok t) : t.mem = s.mem := by
  obtain ⟨a, b, u, hab, rfl⟩ := computeDy_ok_iff.1 h
  rw [writeDy_mem, operandsDy_mem hab]

theorem divideDy_mem {y x : RegNum} {f : Word → Word → Computed 32}
    (h : divideDy y x f s = .ok t) : t.mem = s.mem := by
  obtain ⟨a, b, u, hab, -, rfl⟩ := divideDy_ok_iff.1 h
  rw [writeDy_mem, operandsDy_mem hab]

end

/-! ### The instructions of no shared shape -/

section
variable {s t : State} {ss : Scale} {ea : EA} {y : RegNum} {cccc : CondCode}

theorem execUnlnk_mem (h : execUnlnk s = .next t) : t.mem = s.mem := by
  simp only [execUnlnk, finish_eq_next, run_bind_ok, run_pure, Except.ok.injEq, Prod.exists] at h
  obtain ⟨bp, s1, hbp, v, s2, hpop, rfl⟩ := h
  rw [setBp_mem, pop32_mem hpop, setSp_mem, mem_of_withReads (readBp_ok hbp)]

theorem execRfs_mem (h : execRfs ss s = .next t) : t.mem = s.mem := by
  simp only [execRfs, finish_eq_next, run_bind_ok, run_pure, Except.ok.injEq, Prod.exists] at h
  obtain ⟨imm, s1, himm, v, s2, hpop, rfl⟩ := h
  rw [setSp_mem, setIp_mem, pop32_mem hpop, mem_of_stream (fetchFrameImm_ok himm)]

theorem execCmpi_mem (h : execCmpi ss ea s = .next t) : t.mem = s.mem := by
  simp only [execCmpi, finish_eq_next, run_bind_ok, run_pure, Except.ok.injEq, Prod.exists] at h
  obtain ⟨loc, a, imm, s1, hop, rfl⟩ := h
  exact (operandImm_ok hop).2.1.mem

theorem execCmpq_mem {q : BitVec 8} (h : execCmpq y q s = .next t) : t.mem = s.mem := by
  simp only [execCmpq, finish_eq_next, run_bind_ok, run_pure, Except.ok.injEq, Prod.exists] at h
  obtain ⟨a, s1, hr, rfl⟩ := h
  rw [setFlags_mem, mem_of_withReads (readReg_ok hr)]

theorem execLd_mem (h : execLd y ss ea s = .next t) : t.mem = s.mem := by
  simp only [execLd, finish_eq_next, run_bind_ok, Prod.exists] at h
  obtain ⟨loc, v, s1, hop, hw⟩ := h
  exact (regWriteN_mem hw).trans (operand_ok hop).2.1.mem

theorem execCmp_mem (h : execCmp y ss ea s = .next t) : t.mem = s.mem := by
  simp only [execCmp, finish_eq_next, run_bind_ok, run_pure, Except.ok.injEq, Prod.exists] at h
  obtain ⟨loc, b, s1, hop, a, s2, hr, rfl⟩ := h
  exact (readRegN_mem hr).trans (operand_ok hop).2.1.mem

theorem execSti_stores (h : execSti ss ea s = .next t) : Stores (.sti ss ea) s t := by
  simp only [execSti, finish_eq_next, run_bind_ok, Prod.exists] at h
  obtain ⟨-, -, loc, imm, s1, he, hw⟩ := h
  rw [Stores, eaStore_of_evalEAImm (i := .sti ss ea) rfl rfl he]
  exact .inl ((writeLoc_storesAt hw).after (evalEAImm_ok he).2.mem)

theorem execClr_stores (h : execClr ss ea s = .next t) : Stores (.clr ss ea) s t := by
  simp only [execClr, finish_eq_next, run_bind_ok, Prod.exists] at h
  obtain ⟨-, -, loc, s1, he, hw⟩ := h
  rw [Stores, eaStore_of_evalEA (i := .clr ss ea) rfl rfl he]
  exact .inl ((writeLoc_storesAt hw).after (evalEA_ok he).2.mem)

theorem execExt_stores (h : execExt ss ea s = .next t) : Stores (.ext ss ea) s t := by
  simp only [execExt, finish_eq_next, run_bind_ok, run_pure, Except.ok.injEq, Prod.exists] at h
  obtain ⟨-, -, loc, a, s1, hop, s2, hw, rfl⟩ := h
  obtain ⟨-, hframe, s0, he⟩ := operand_ok hop
  rw [Stores, eaStore_of_evalEA (i := .ext ss ea) rfl rfl he]
  exact .inl (((writeExtended_storesAt hw).after hframe.mem).before (setFlagsUnlessSR_mem ..))

theorem execSt_stores (h : execSt y ss ea s = .next t) : Stores (.st y ss ea) s t := by
  simp only [execSt, finish_eq_next, run_bind_ok, Prod.exists] at h
  obtain ⟨-, -, loc, s1, he, v, s2, hr, hw⟩ := h
  rw [Stores, eaStore_of_evalEA (i := .st y ss ea) rfl rfl he]
  exact .inl ((writeLoc_storesAt hw).after ((readRegN_mem hr).trans (evalEA_ok he).2.mem))

theorem execLnk_stores (h : execLnk ss s = .next t) : Stores (.lnk ss) s t := by
  simp only [execLnk, finish_eq_next, run_bind_ok, run_pure, Except.ok.injEq, Prod.exists] at h
  obtain ⟨imm, s1, himm, bp, s2, hbp, s3, hpush, rfl⟩ := h
  have hplace : pushStore (.lnk ss) s = wordBelowSp s2 := by simp [pushStore, himm, hbp]
  have hmem : s2.mem = s.mem :=
    (mem_of_withReads (readBp_ok hbp)).trans (mem_of_stream (fetchFrameImm_ok himm))
  rw [Stores, hplace]
  exact .inr (((push32_storesAt hpush).after hmem).before (by simp))

/-- The condition of a call reads no flag (40_components.md R141, R143). -/
theorem readCond_of_isCall (h : isCall cccc = true) (s : State) :
    readCond cccc s = .ok (true, s) := by
  obtain rfl : cccc = 0b0111#4 := of_decide_eq_true h
  exact (readCond_always s).2

theorem execBcc_stores {q : BitVec 8} (h : execBcc cccc q s = .next t) :
    Stores (.bcc cccc q) s t := by
  simp only [execBcc, finish_eq_next, run_bind_ok, Prod.exists] at h
  obtain ⟨taken, s1, hc, h⟩ := h
  cases hcall : isCall cccc with
  | true =>
    cases (readCond_of_isCall hcall s).symm.trans hc
    have hplace : pushStore (.bcc cccc q) s = wordBelowSp s := by simp [pushStore, hcall]
    rw [Stores, hplace]
    exact .inr (transfer_storesAt_of_isCall hcall h)
  | false =>
    have hread : s1.mem = s.mem := mem_of_withReads (readCond_ok hc)
    split at h
    · exact .of_mem ((transfer_mem_of_not_isCall hcall h).trans hread)
    · cases h
      exact .of_mem hread

theorem execJcc_stores (h : execJcc cccc ss ea s = .next t) : Stores (.jcc cccc ss ea) s t := by
  simp only [execJcc, finish_eq_next, run_bind_ok, Prod.exists] at h
  obtain ⟨taken, s1, hc, h⟩ := h
  cases hcall : isCall cccc with
  | true =>
    cases (readCond_of_isCall hcall s).symm.trans hc
    obtain ⟨⟨loc, v, s2⟩, hop, ht⟩ := run_bind_ok.1 h
    have hplace : pushStore (.jcc cccc ss ea) s = wordBelowSp s2 := by simp [pushStore, hcall, hop]
    rw [Stores, hplace]
    exact .inr ((transfer_storesAt_of_isCall hcall ht).after (operand_ok hop).2.1.mem)
  | false =>
    have hread : s1.mem = s.mem := mem_of_withReads (readCond_ok hc)
    split at h
    · obtain ⟨⟨loc, v, s2⟩, hop, ht⟩ := run_bind_ok.1 h
      exact .of_mem ((transfer_mem_of_not_isCall hcall ht).trans ((operand_ok hop).2.1.mem.trans hread))
    · cases h
      exact .of_mem hread

end

/-! ### Every instruction, and one step -/

/-- Every instruction stores at most where its effective address and its push say. -/
theorem exec_stores {i : Instr} {s t : State} (h : exec i s = .next t) : Stores i s t := by
  cases i with
  | nop => cases h; exact .of_mem rfl
  | rfi => cases h
  | unlnk => exact .of_mem (execUnlnk_mem h)
  | rfs ss => exact .of_mem (execRfs_mem h)
  | lnk ss => exact execLnk_stores h
  | cmpi ss ea => exact .of_mem (execCmpi_mem h)
  | sti ss ea => exact execSti_stores h
  | addi ss ea | subi ss ea | xori ss ea | ori ss ea | andi ss ea =>
    exact modifyEAImm_stores rfl rfl rfl (finish_eq_next.1 h)
  | not ss ea | neg ss ea | rev ss ea | addq q ss ea | subq q ss ea =>
    exact modifyEA_stores rfl rfl rfl (finish_eq_next.1 h)
  | lslq q ea | lsrq q ea | asrq q ea | rorq q ea =>
    exact modifyQuickEA_stores rfl rfl rfl (finish_eq_next.1 h)
  | adc ss ea | sbc ss ea => exact modifyEACarry_stores rfl rfl rfl (finish_eq_next.1 h)
  | rrc ea => exact modifyQuickEACarry_stores rfl rfl rfl (finish_eq_next.1 h)
  | clr ss ea => exact execClr_stores h
  | ext ss ea => exact execExt_stores h
  | tst ss ea => exact .of_mem (testEA_mem (finish_eq_next.1 h))
  | mul y x | hmulu y x | hmuls y x => exact .of_mem (computeDy_mem (finish_eq_next.1 h))
  | divu y x | divs y x | modu y x | mods y x =>
    exact .of_mem (divideDy_mem (finish_eq_next.1 h))
  | lsl y ea | lsr y ea | asr y ea | ror y ea => exact .of_mem (shiftDy_mem (finish_eq_next.1 h))
  | ldq y q => cases h; exact .of_mem (setReg_mem ..)
  | cmpq y q => exact .of_mem (execCmpq_mem h)
  | ld y ss ea => exact .of_mem (execLd_mem h)
  | cmp y ss ea => exact .of_mem (execCmp_mem h)
  | add y ss ea | sub y ss ea | xor y ss ea | or y ss ea | and y ss ea =>
    exact .of_mem (computeRy_mem (finish_eq_next.1 h))
  | st y ss ea => exact execSt_stores h
  | bcc cccc q => exact execBcc_stores h
  | jcc cccc ss ea => exact execJcc_stores h

theorem exec_memory_wf {i : Instr} {s t : State} (h : exec i s = .next t)
    (hs : Memory.wf s.mem = true) : Memory.wf t.mem = true := by
  rcases exec_stores h with hst | hst
  · exact hst.wf hs
  · exact hst.wf hs

theorem step_memory_wf {s t : State} (h : step s = .next t) (hs : Memory.wf s.mem = true) :
    Memory.wf t.mem = true := by
  obtain ⟨i, s1, hf, he⟩ := step_eq_next.1 h
  have hfetch : s1.mem = s.mem := mem_of_stream (fetchInstr_ok hf).2
  exact exec_memory_wf he (hfetch ▸ hs)

/-- Settles O16: memory stays canonical (`step_memory_wf`) and no parameter changes
(`step_keepsParameters`). -/
theorem stepKeepsInvariant : Obligations.StepKeepsInvariant := by
  intro s t hs h
  obtain ⟨hmem, hcfg⟩ := Bool.and_eq_true_iff.1 hs
  exact Bool.and_eq_true_iff.2 ⟨step_memory_wf h hmem, (step_keepsParameters h).cfg ▸ hcfg⟩

/-- Settles O58: a byte that no store covers lies outside the one place memory was written at. -/
theorem memoryFrame : Obligations.MemoryFrame := by
  intro i s t h b hb
  rcases exec_stores h with hst | hst
  · exact hst.byteAt fun a n k hp hk he => hb ⟨a, n, k, .inl hp, hk, he⟩
  · exact hst.byteAt fun a n k hp hk he => hb ⟨a, n, k, .inr hp, hk, he⟩

end Sys2Proof.Machine
end

section
/-! PROOF. The word of a well-formed instruction decodes to it (30_encoding.md R81, R83, R89). First the
decoder, one equation per group of rows; then the fields of each word format; last every instruction. -/

namespace Sys2Proof

/-! ### Fields of a word -/

/-- A field of a field. -/
theorem extract_extract {n a l b m : Nat} (x : BitVec n) (h : b + m ≤ l) :
    (x.extractLsb' a l).extractLsb' b m = x.extractLsb' (a + b) m := by
  ext i hi
  simp only [BitVec.getElem_extractLsb', BitVec.getLsbD_extractLsb']
  simp [show b + i < l by omega, Nat.add_assoc]

/-- A field that lies in the lower of two parts. -/
theorem field_of_low {m n start len : Nat} {x : BitVec m} {y : BitVec n} {z : BitVec len}
    (hz : y.extractLsb' start len = z) (h : start + len ≤ n := by decide) :
    (x ++ y).extractLsb' start len = z :=
  (BitVec.extractLsb'_append_eq_of_add_le h).trans hz

/-- The upper of two parts is a field. -/
theorem field_top {m n : Nat} (x : BitVec m) (y : BitVec n) : (x ++ y).extractLsb' n m = x :=
  BitVec.extractLsb'_append_eq_left

/-- The six low bits of a word are those of an effective address (40_components.md R123). -/
structure EndsInEA {n : Nat} (w : BitVec n) (ea : EA) : Prop where
  mode : w.extractLsb' 3 3 = ea.modeBits
  reg : w.extractLsb' 0 3 = ea.regBits

theorem EndsInEA.encodeEA (ea : EA) : EndsInEA (encodeEA ea) ea :=
  ⟨field_top .., BitVec.extractLsb'_append_eq_right⟩

theorem EndsInEA.append {m n : Nat} {y : BitVec n} {ea : EA} (h : EndsInEA y ea) (x : BitVec m)
    (hn : 6 ≤ n := by decide) : EndsInEA (x ++ y) ea :=
  ⟨field_of_low h.mode (by omega), field_of_low h.reg (by omega)⟩

/-! ### The decoder -/

@[simp] theorem decodeReg_encodeReg (r : RegNum) : decodeReg (encodeReg r) = r := rfl

@[simp] theorem decodeScale_encodeScale (ss : Scale) : decodeScale (encodeScale ss) = ss := by
  cases ss <;> rfl

theorem decodeEA_bits (ea : EA) : decodeEA ea.modeBits ea.regBits = some ea := by
  cases ea <;> simp [decodeEA, EA.modeBits, EA.regBits]

theorem withEA_eq_ok {w : Half} {f : EA → Instr} {ea : EA} (h : EndsInEA w ea)
    (hi : (f ea).immediateDestination = false) : withEA w f = .ok (f ea) := by
  simp [withEA, h.mode, h.reg, decodeEA_bits, hi]

section
variable {w : Half}

theorem high_ne_zero (h : w.extractLsb' 11 5 ≠ 0#5) : w.extractLsb' 8 8 ≠ 0#8 := by
  have htop : w.extractLsb' 11 5 = (w.extractLsb' 8 8).extractLsb' 3 5 :=
    (extract_extract (a := 8) (l := 8) (b := 3) w (by decide)).symm
  intro h8
  rw [htop, h8] at h
  exact h rfl

theorem decode_of_opea {f : Scale → EA → Instr} (h : decodeOpea (w.extractLsb' 8 8) = some f) :
    decode w = withEA w (f (decodeScale (w.extractLsb' 6 2))) := by
  have hop : ∀ op : BitVec 8, (decodeOpea op).isSome →
      op ≠ 0#8 ∧ (op.extractLsb' 3 5 = 0#5 ∨ op.extractLsb' 3 5 = 1#5) := by decide
  obtain ⟨hhigh, htop⟩ := hop _ (Option.isSome_of_eq_some h)
  rw [extract_extract w (by decide)] at htop
  simp [decode, hhigh, htop, h]

theorem decode_of_cplx {f : RegNum → RegNum → Instr} (h : w.extractLsb' 11 5 = 0b00010#5)
    (hk : w.extractLsb' 6 2 = 0b00#2) (hf : decodeCplx (w.extractLsb' 3 3) = some f) :
    decode w = .ok (f (decodeReg (w.extractLsb' 8 3)) (decodeReg (w.extractLsb' 0 3))) := by
  have hhigh := high_ne_zero (w := w) (by simp [h])
  simp [decode, hhigh, h, hk, hf]

theorem decode_of_shft (h : w.extractLsb' 11 5 = 0b00011#5) :
    decode w = withEA w (decodeShft (w.extractLsb' 6 2) (decodeReg (w.extractLsb' 8 3))) := by
  have hhigh := high_ne_zero (w := w) (by simp [h])
  simp [decode, hhigh, h]

theorem decode_of_ldq (h : w.extractLsb' 11 5 = 0b01000#5) :
    decode w = .ok (.ldq (decodeReg (w.extractLsb' 8 3)) (w.extractLsb' 0 8)) := by
  have hhigh := high_ne_zero (w := w) (by simp [h])
  simp [decode, hhigh, h]

theorem decode_of_cmpq (h : w.extractLsb' 11 5 = 0b01001#5) :
    decode w = .ok (.cmpq (decodeReg (w.extractLsb' 8 3)) (w.extractLsb' 0 8)) := by
  have hhigh := high_ne_zero (w := w) (by simp [h])
  simp [decode, hhigh, h]

theorem decode_of_addq (h : w.extractLsb' 11 5 = 0b01010#5) :
    decode w = withEA w (.addq (w.extractLsb' 8 3) (decodeScale (w.extractLsb' 6 2))) := by
  have hhigh := high_ne_zero (w := w) (by simp [h])
  simp [decode, hhigh, h]

theorem decode_of_subq (h : w.extractLsb' 11 5 = 0b01011#5) :
    decode w = withEA w (.subq (w.extractLsb' 8 3) (decodeScale (w.extractLsb' 6 2))) := by
  have hhigh := high_ne_zero (w := w) (by simp [h])
  simp [decode, hhigh, h]

/-- The top five bits are of no row before QSH: neither 000xx nor 010xx (30_encoding.md R89). -/
def PastQ3 (top5 : BitVec 5) : Prop :=
  top5 ∉ [0b00000#5, 0b00001#5, 0b00010#5, 0b00011#5, 0b01000#5, 0b01001#5, 0b01010#5, 0b01011#5]

theorem decode_of_pastQ3 (h : PastQ3 (w.extractLsb' 11 5)) :
    decode w =
      if w.extractLsb' 13 3 = 0b011#3 then
        withEA w (decodeQsh (w.extractLsb' 11 2) (w.extractLsb' 6 5))
      else if w.extractLsb' 14 2 = 0b10#2 then
        withEA w (decodeRea (w.extractLsb' 11 3) (decodeReg (w.extractLsb' 8 3))
          (decodeScale (w.extractLsb' 6 2)))
      else if w.extractLsb' 12 4 = 0b1110#4 then
        .ok (.bcc (w.extractLsb' 8 4) (w.extractLsb' 0 8))
      else if w.extractLsb' 12 4 = 0b1111#4 then
        withEA w (.jcc (w.extractLsb' 8 4) (decodeScale (w.extractLsb' 6 2)))
      else .error (.unlisted w) := by
  simp only [PastQ3, List.mem_cons, List.not_mem_nil, or_false, not_or] at h
  have hhigh := high_ne_zero h.1
  simp [decode, hhigh, h]

theorem decode_of_qsh (h : w.extractLsb' 13 3 = 0b011#3) :
    decode w = withEA w (decodeQsh (w.extractLsb' 11 2) (w.extractLsb' 6 5)) := by
  have htop : ∀ k : BitVec 2, PastQ3 (0b011#3 ++ k) := by unfold PastQ3; decide
  have hsplit := BitVec.extractLsb'_append_extractLsb'_eq_extractLsb' (x := w)
    (start₂ := 13) (start₁ := 11) (len₁ := 2) (len₂ := 3) rfl
  rw [h] at hsplit
  rw [decode_of_pastQ3 (hsplit ▸ htop _), if_pos h]

theorem decode_of_rea (h : w.extractLsb' 14 2 = 0b10#2) :
    decode w = withEA w (decodeRea (w.extractLsb' 11 3) (decodeReg (w.extractLsb' 8 3))
      (decodeScale (w.extractLsb' 6 2))) := by
  have htop : ∀ p : BitVec 3, PastQ3 (0b10#2 ++ p) := by unfold PastQ3; decide
  have hqsh : ∀ b : BitVec 1, 0b10#2 ++ b ≠ 0b011#3 := by decide
  have hsplit := BitVec.extractLsb'_append_extractLsb'_eq_extractLsb' (x := w)
    (start₂ := 14) (start₁ := 11) (len₁ := 3) (len₂ := 2) rfl
  have hsplit3 := BitVec.extractLsb'_append_extractLsb'_eq_extractLsb' (x := w)
    (start₂ := 14) (start₁ := 13) (len₁ := 1) (len₂ := 2) rfl
  rw [h] at hsplit hsplit3
  rw [decode_of_pastQ3 (hsplit ▸ htop _), if_neg (hsplit3 ▸ hqsh _), if_pos h]

theorem decode_of_cond (h : w.extractLsb' 13 3 = 0b111#3) :
    decode w =
      if w.extractLsb' 12 4 = 0b1110#4 then .ok (.bcc (w.extractLsb' 8 4) (w.extractLsb' 0 8))
      else if w.extractLsb' 12 4 = 0b1111#4 then
        withEA w (.jcc (w.extractLsb' 8 4) (decodeScale (w.extractLsb' 6 2)))
      else .error (.unlisted w) := by
  have htop : ∀ k : BitVec 2, PastQ3 (0b111#3 ++ k) := by unfold PastQ3; decide
  have hsplit := BitVec.extractLsb'_append_extractLsb'_eq_extractLsb' (x := w)
    (start₂ := 13) (start₁ := 11) (len₁ := 2) (len₂ := 3) rfl
  have hrea : w.extractLsb' 14 2 = 0b11#2 := by
    rw [← extract_extract (a := 13) (l := 3) (b := 1) w (by decide), h]
    rfl
  have hpast : PastQ3 (w.extractLsb' 11 5) := hsplit ▸ h ▸ htop _
  rw [decode_of_pastQ3 hpast, if_neg (by simp [h]), if_neg (by simp [hrea])]

end

/-! ### The words of each format -/

section
variable (y x : RegNum) (ss : Scale) (ea : EA)

/-- The low byte `ss mmm xxx` that five formats share (30_encoding.md R81). -/
theorem scaleByte_fields :
    (encodeScale ss ++ encodeEA ea).extractLsb' 6 2 = encodeScale ss ∧
      EndsInEA (encodeScale ss ++ encodeEA ea) ea :=
  ⟨field_top .., (EndsInEA.encodeEA ea).append _⟩

theorem decode_opeaWord {op : BitVec 8} {f : Scale → EA → Instr} (hf : decodeOpea op = some f)
    (hi : (f ss ea).immediateDestination = false) : decode (opeaWord op ss ea) = .ok (f ss ea) := by
  obtain ⟨hss, hea⟩ := scaleByte_fields ss ea
  have hop : (opeaWord op ss ea).extractLsb' 8 8 = op := field_top ..
  have hscale : (opeaWord op ss ea).extractLsb' 6 2 = encodeScale ss := field_of_low hss
  rw [decode_of_opea (hop.symm ▸ hf), hscale, decodeScale_encodeScale]
  exact withEA_eq_ok (hea.append op) hi

theorem decode_cplxWord {p : BitVec 3} {f : RegNum → RegNum → Instr} (hf : decodeCplx p = some f) :
    decode (cplxWord p y x) = .ok (f y x) := by
  have htop : (cplxWord p y x).extractLsb' 11 5 = 0b00010#5 := field_top ..
  have hy : (cplxWord p y x).extractLsb' 8 3 = encodeReg y := field_of_low (field_top ..)
  have hk : (cplxWord p y x).extractLsb' 6 2 = 0b00#2 := field_of_low (field_of_low (field_top ..))
  have hp : (cplxWord p y x).extractLsb' 3 3 = p :=
    field_of_low (field_of_low (field_of_low (field_top ..)))
  have hx : (cplxWord p y x).extractLsb' 0 3 = encodeReg x :=
    field_of_low (field_of_low (field_of_low BitVec.extractLsb'_append_eq_right))
  rw [decode_of_cplx htop hk (hp.symm ▸ hf), hy, hx, decodeReg_encodeReg, decodeReg_encodeReg]

theorem decode_shftWord (k : BitVec 2) (hi : (decodeShft k y ea).immediateDestination = false) :
    decode (shftWord k y ea) = .ok (decodeShft k y ea) := by
  have htop : (shftWord k y ea).extractLsb' 11 5 = 0b00011#5 := field_top ..
  have hy : (shftWord k y ea).extractLsb' 8 3 = encodeReg y := field_of_low (field_top ..)
  have hk : (shftWord k y ea).extractLsb' 6 2 = k := field_of_low (field_of_low (field_top ..))
  rw [decode_of_shft htop, hy, hk, decodeReg_encodeReg]
  exact withEA_eq_ok ((((EndsInEA.encodeEA ea).append _).append _).append _) hi

theorem q8Word_fields (op : BitVec 5) (q : BitVec 8) :
    (q8Word op y q).extractLsb' 11 5 = op ∧ (q8Word op y q).extractLsb' 8 3 = encodeReg y ∧
      (q8Word op y q).extractLsb' 0 8 = q :=
  ⟨field_top .., field_of_low (field_top ..), field_of_low BitVec.extractLsb'_append_eq_right⟩

theorem q3Word_fields (op : BitVec 5) (q : BitVec 3) :
    (q3Word op q ss ea).extractLsb' 11 5 = op ∧ (q3Word op q ss ea).extractLsb' 8 3 = q ∧
      (q3Word op q ss ea).extractLsb' 6 2 = encodeScale ss ∧ EndsInEA (q3Word op q ss ea) ea := by
  obtain ⟨hss, hea⟩ := scaleByte_fields ss ea
  exact ⟨field_top .., field_of_low (field_top ..), field_of_low (field_of_low hss),
    (hea.append q).append op⟩

theorem decode_qshWord (k : BitVec 2) (q : BitVec 5)
    (hi : (decodeQsh k q ea).immediateDestination = false) :
    decode (qshWord k q ea) = .ok (decodeQsh k q ea) := by
  have htop : (qshWord k q ea).extractLsb' 13 3 = 0b011#3 := field_top ..
  have hk : (qshWord k q ea).extractLsb' 11 2 = k := field_of_low (field_top ..)
  have hq : (qshWord k q ea).extractLsb' 6 5 = q := field_of_low (field_of_low (field_top ..))
  rw [decode_of_qsh htop, hk, hq]
  exact withEA_eq_ok ((((EndsInEA.encodeEA ea).append _).append _).append _) hi

theorem decode_reaWord (p : BitVec 3) (hi : (decodeRea p y ss ea).immediateDestination = false) :
    decode (reaWord p y ss ea) = .ok (decodeRea p y ss ea) := by
  obtain ⟨hss, hea⟩ := scaleByte_fields ss ea
  have htop : (reaWord p y ss ea).extractLsb' 14 2 = 0b10#2 := field_top ..
  have hp : (reaWord p y ss ea).extractLsb' 11 3 = p := field_of_low (field_top ..)
  have hy : (reaWord p y ss ea).extractLsb' 8 3 = encodeReg y :=
    field_of_low (field_of_low (field_top ..))
  have hscale : (reaWord p y ss ea).extractLsb' 6 2 = encodeScale ss :=
    field_of_low (field_of_low (field_of_low hss))
  rw [decode_of_rea htop, hp, hy, hscale, decodeReg_encodeReg, decodeScale_encodeScale]
  exact withEA_eq_ok (((hea.append _).append _).append _) hi

theorem decode_bccWord (c : BitVec 4) (q : BitVec 8) :
    decode (encode (.bcc c q)) = .ok (.bcc c q) := by
  have htop : (encode (.bcc c q)).extractLsb' 12 4 = 0b1110#4 := field_top ..
  have hc : (encode (.bcc c q)).extractLsb' 8 4 = c := field_of_low (field_top ..)
  have hq : (encode (.bcc c q)).extractLsb' 0 8 = q :=
    field_of_low BitVec.extractLsb'_append_eq_right
  have hcond : (encode (.bcc c q)).extractLsb' 13 3 = 0b111#3 := by
    rw [← extract_extract (a := 12) (l := 4) (b := 1) _ (by decide), htop]
    rfl
  rw [decode_of_cond hcond, if_pos htop, hc, hq]

theorem decode_jccWord (c : BitVec 4) :
    decode (encode (.jcc c ss ea)) = .ok (.jcc c ss ea) := by
  obtain ⟨hss, hea⟩ := scaleByte_fields ss ea
  have htop : (encode (.jcc c ss ea)).extractLsb' 12 4 = 0b1111#4 := field_top ..
  have hc : (encode (.jcc c ss ea)).extractLsb' 8 4 = c := field_of_low (field_top ..)
  have hscale : (encode (.jcc c ss ea)).extractLsb' 6 2 = encodeScale ss :=
    field_of_low (field_of_low hss)
  have hcond : (encode (.jcc c ss ea)).extractLsb' 13 3 = 0b111#3 := by
    rw [← extract_extract (a := 12) (l := 4) (b := 1) _ (by decide), htop]
    rfl
  rw [decode_of_cond hcond, if_neg (by simp [htop]), if_pos htop, hc, hscale, decodeScale_encodeScale]
  exact withEA_eq_ok ((hea.append _).append _) rfl

end

/-! ### Every instruction -/

/-- The word of a well-formed instruction decodes to it, with every field (30_encoding.md R89). -/
theorem decode_encode {i : Instr} (h : i.wf = true) : decode (encode i) = .ok i := by
  simp only [Instr.wf, Bool.and_eq_true, Bool.not_eq_true'] at h
  obtain ⟨hi, hr⟩ := h
  cases i with
  | nop | rfi | unlnk => rfl
  | rfs ss | lnk ss => cases ss <;> rfl
  | cmpi ss ea | addi ss ea | subi ss ea | xori ss ea | ori ss ea | andi ss ea | sti ss ea
  | not ss ea | neg ss ea | adc ss ea | sbc ss ea | clr ss ea | rev ss ea | ext ss ea | tst ss ea =>
    exact decode_opeaWord ss ea rfl hi
  | mul y x | hmulu y x | hmuls y x | divu y x | divs y x | modu y x | mods y x =>
    exact decode_cplxWord y x rfl
  | lsl y ea | lsr y ea | asr y ea | ror y ea => exact decode_shftWord y ea _ hi
  | ldq y q =>
    obtain ⟨htop, hy, hq⟩ := q8Word_fields y 0b01000#5 q
    rw [encode, decode_of_ldq htop, hy, hq, decodeReg_encodeReg]
  | cmpq y q =>
    obtain ⟨htop, hy, hq⟩ := q8Word_fields y 0b01001#5 q
    rw [encode, decode_of_cmpq htop, hy, hq, decodeReg_encodeReg]
  | addq q ss ea =>
    obtain ⟨htop, hq, hss, hea⟩ := q3Word_fields ss ea 0b01010#5 q
    rw [encode, decode_of_addq htop, hq, hss, decodeScale_encodeScale]
    exact withEA_eq_ok hea hi
  | subq q ss ea =>
    obtain ⟨htop, hq, hss, hea⟩ := q3Word_fields ss ea 0b01011#5 q
    rw [encode, decode_of_subq htop, hq, hss, decodeScale_encodeScale]
    exact withEA_eq_ok hea hi
  | lslq q ea | lsrq q ea | asrq q ea | rrc ea => exact decode_qshWord ea _ _ hi
  | rorq q ea =>
    have hq : q ≠ 0#5 := of_decide_eq_false hr
    have hkind : decodeQsh 0b11#2 q ea = .rorq q ea := by simp [decodeQsh, hq]
    rw [encode, decode_qshWord ea _ _ (hkind ▸ hi), hkind]
  | ld y ss ea | cmp y ss ea | add y ss ea | sub y ss ea | xor y ss ea | or y ss ea | and y ss ea
  | st y ss ea => exact decode_reaWord y ss ea _ hi
  | bcc c q => exact decode_bccWord c q
  | jcc c ss ea => exact decode_jccWord ss ea c

end Sys2Proof
end

section
/-! PROOF. A data access and a fetch (20_memory.md R52 to R55, R59, R62; 60_exceptions.md R262, R263,
R269): when it answers, which fault it reports otherwise, the bytes a write leaves and what reads them
back, the instruction word of the next fetch among them. -/

namespace Sys2Proof.Machine

section
variable {kind : Access} {align nb j : Nat} {a : Word} {v : BitVec (8 * nb)} {s t : State}

theorem OperandSize.le (h : OperandSize nb) : nb ≤ 2 ^ 32 := by
  rcases h with rfl | rfl | rfl <;> norm_num

/-! ### The faults of an access -/

/-- The map test stops at the first byte outside `MEM_MAP`. -/
theorem checkMap_first_unmapped (hj : j < nb) (hout : mapped s.cfg (byteAddr a j) = false)
    (hbefore : ∀ k, k < j → mapped s.cfg (byteAddr a k) = true) :
    checkMap s kind nb a = .error (.accessFault (byteAddr a j) kind) := by
  induction nb generalizing j a with
  | zero => omega
  | succ nb ih =>
    cases j with
    | zero =>
      rw [byteAddr_zero] at hout ⊢
      simp [checkMap, hout]
    | succ j =>
      have hfirst : mapped s.cfg a = true := byteAddr_zero a ▸ hbefore 0 (by omega)
      rw [byteAddr_succ] at hout ⊢
      rw [checkMap, if_pos hfirst]
      exact ih (by omega) hout fun k hk => byteAddr_succ a k ▸ hbefore (k + 1) (by omega)

theorem memReadAligned_misaligned (hc : s.cfg.align = .fault) (ha : a.toNat % align ≠ 0) :
    memReadAligned kind align nb a s = .error (.misaligned a nb kind) := by
  rw [memReadAligned, checkAlign_error s kind align nb a hc ha, run_error_bind]

theorem memWrite_misaligned (hc : s.cfg.align = .fault) (ha : a.toNat % nb ≠ 0) :
    memWrite nb a v s = .error (.misaligned a nb .write) := by
  rw [memWrite, checkAlign_error s .write nb nb a hc ha, run_error_bind]

theorem memReadAligned_unmapped (ha : s.cfg.align = .allow ∨ a.toNat % align = 0) {f : Fault}
    (hm : checkMap s kind nb a = .error f) : memReadAligned kind align nb a s = .error f := by
  rw [memReadAligned, (checkAlign_ok_iff ..).2 ha, run_ok_bind, hm, run_error_bind]

theorem memWrite_unmapped (ha : s.cfg.align = .allow ∨ a.toNat % nb = 0) {f : Fault}
    (hm : checkMap s .write nb a = .error f) : memWrite nb a v s = .error f := by
  rw [memWrite, (checkAlign_ok_iff ..).2 ha, run_ok_bind, hm, run_error_bind]

/-! ### Bytes that hold a value -/

/-- A value's bytes are those of `disassemble`. -/
theorem holdsValue_iff : HoldsValue s nb a v ↔
    ∀ k (hk : k < nb), s.byteAt (byteAddr a k) =
      some ((disassemble s.cfg.byteOrder nb v)[k]'(by simpa using hk)) := by
  cases ho : s.cfg.byteOrder with
  | big => simp only [HoldsValue, ho, getElem_disassemble]
  | little => simp only [HoldsValue, ho, getElem_disassemble]

theorem holdsValue_after_write (h : memWrite nb a v s = .ok t) (hn : nb ≤ 2 ^ 32) :
    HoldsValue t nb a v := by
  have hcfg : t.cfg = s.cfg := (memWrite_keepsParameters h).cfg
  rw [holdsValue_iff]
  intro k hk
  simpa only [hcfg] using memWrite_byteAt h hn k hk

/-- A possible read of bytes that hold a value gives the value and changes nothing. -/
theorem memReadAligned_of_holdsValue (hacc : Accessible s align nb a) (h : HoldsValue s nb a v) :
    memReadAligned kind align nb a s = .ok (v, s) := by
  have hlen := length_disassemble s.cfg.byteOrder nb v
  have hbytes := readBytes_of_written (s := s) (a := a) (bs := disassemble s.cfg.byteOrder nb v)
    fun k hk => holdsValue_iff.1 h k (hlen ▸ hk)
  rw [hlen] at hbytes
  rw [memReadAligned_of_accessible hacc, hbytes, run_ok_bind, assemble_disassemble]
  rfl

/-- A possible fetch of bytes that hold a value gives it and moves IP past them. -/
theorem fetch_of_holdsValue (hacc : Accessible s align nb s.ip) (h : HoldsValue s nb s.ip v) :
    fetch align nb s = .ok (v, s.setIp (s.ip + BitVec.ofNat 32 nb)) := by
  rw [fetch, memReadAligned_of_holdsValue hacc h, run_ok_bind]
  rfl

/-- A halfword at IP that is no `HALT_WORD` is fetched and decoded (40_components.md R149). -/
theorem fetchInstr_of_holdsValue {w : Half} {i : Instr} (hacc : Accessible s 2 2 s.ip)
    (h : HoldsValue s 2 s.ip w) (hhalt : s.cfg.haltWord ≠ some w) (hd : decode w = .ok i) :
    fetchInstr s = .ok (i, s.setIp (s.ip + 2)) := by
  have htest : haltTest s = .ok (false, s) := by
    unfold haltTest
    cases hw : s.cfg.haltWord with
    | none => rfl
    | some x =>
      have hne : w ≠ x := fun e => hhalt (e ▸ hw)
      simp [memReadAligned_of_holdsValue hacc h, hne]
  have hfetch : fetchExt16 s = .ok (w, s.setIp (s.ip + 2)) := fetch_of_holdsValue hacc h
  simp [fetchInstr, htest, hfetch, hd]

end

/-! ### The statements -/

/-- Settles O9: a write leaves bytes that hold its value (`holdsValue_after_write`), and bytes that hold
a value read as it. -/
theorem readAfterWriteReturnsValue : Obligations.ReadAfterWriteReturnsValue := by
  refine ⟨fun nb a v s t hn h => ?afterWrite,
    fun kind align nb a v s _ => memReadAligned_of_holdsValue,
    fun s => ⟨fun h => fetch_of_holdsValue, fun w => fetch_of_holdsValue⟩⟩
  case afterWrite =>
    have hread {kind : Access} {align : Nat} (ha : s.cfg.align = .allow ∨ a.toNat % align = 0) :
        memReadAligned kind align nb a t = .ok (v, t) := memReadAligned_after_write h hn.le ha
    exact ⟨hread (memWrite_ok_iff.1 h).1.1, fun kind align => hread⟩

/-- Settles O10: the bytes are those `holdsValue_after_write` names, in either order. -/
theorem writeLaysOutBytes : Obligations.WriteLaysOutBytes := by
  intro nb a v s t hn h
  have hholds := holdsValue_after_write h hn.le
  rw [HoldsValue, (memWrite_keepsParameters h).cfg] at hholds
  refine ⟨fun k hk => ⟨fun ho => ?_, fun ho => ?_⟩, memWrite_byteAt_of_ne h, ?_⟩
  · simpa only [ho] using hholds k hk
  · simpa only [ho] using hholds k hk
  · obtain ⟨-, rfl⟩ := memWrite_ok_iff.1 h
    rfl

/-- Settles O11: what `memReadAligned_ok_iff` and `memWrite_ok_iff` say, a read drawing no free value. -/
theorem accessAnswersExactlyWhen : Obligations.AccessAnswersExactlyWhen := by
  intro nb a s _ hc
  refine ⟨⟨fun ⟨v, hv⟩ => (memReadAligned_ok_iff hc).1 ⟨_, hv⟩, fun h => ?answers⟩, fun v => ?write⟩
  case answers =>
    obtain ⟨⟨v, t⟩, hv⟩ := (memReadAligned_ok_iff (kind := .read) hc).2 h
    obtain ⟨-, n, hdraws, rfl⟩ := memReadAligned_ok hv
    rw [hdraws hc] at hv
    exact ⟨v, hv⟩
  case write =>
    exact ⟨fun ⟨t, ht⟩ => (memWrite_ok_iff.1 ht).1, fun h => ⟨_, memWrite_ok_iff.2 ⟨h, rfl⟩⟩⟩

/-- Settles O12: the alignment test comes first, and the map test names the first byte outside. -/
theorem impossibleAccessFaults : Obligations.ImpossibleAccessFaults := by
  intro nb a v s _
  refine ⟨fun hc => ⟨fun kind align => memReadAligned_misaligned hc,
    fun ha => ⟨memReadAligned_misaligned hc ha, memWrite_misaligned hc ha⟩⟩,
    fun j hj hout hbefore => ?_⟩
  have hmap (kind : Access) := checkMap_first_unmapped (kind := kind) hj hout hbefore
  exact ⟨fun kind align ha => memReadAligned_unmapped ha (hmap kind),
    fun ha => ⟨memReadAligned_unmapped ha (hmap .read), memWrite_unmapped ha (hmap .write)⟩⟩

/-- Settles O8: the stored bytes hold the word of the instruction, which decodes to it
(`decode_encode`). -/
theorem storeSeenByNextFetch : Obligations.StoreSeenByNextFetch := by
  intro s t a i hwf h hhalt
  have hcfg : t.cfg = s.cfg := (memWrite_keepsParameters h).cfg
  have hacc : Accessible (t.setIp a) 2 2 a := by
    simpa only [Accessible, setIp_cfg, hcfg] using (memWrite_ok_iff.1 h).1
  have hstored : HoldsValue t 2 a (encode i) := holdsValue_after_write h (by norm_num)
  have hword : HoldsValue (t.setIp a) 2 a (encode i) := hstored
  have hfetch := fetchInstr_of_holdsValue hacc hword (by rwa [setIp_cfg, hcfg]) (decode_encode hwf)
  simp only [step, hfetch]
  rfl

end Sys2Proof.Machine
end

section
/-! PROOF. What the decoder can answer (30_encoding.md R83, R89 to R91, 40_components.md R140). Every word
has a row with an effective address, a row without one, or no row (`decode_decoded`); the round trip from
the word's side and the rejected words follow from that. -/

namespace Sys2Proof

/-! ### Fields of a word, joined and as numbers -/

/-- Two fields that stand side by side are one. -/
theorem field_eq_append {N s a m n : Nat} {x : BitVec N} {u : BitVec m} {v : BitVec n}
    (hu : x.extractLsb' s m = u) (hv : x.extractLsb' a n = v) (hs : s = a + n := by rfl) :
    x.extractLsb' a (m + n) = u ++ v := by
  rw [← hu, ← hv]
  exact (BitVec.extractLsb'_append_extractLsb'_eq_extractLsb' hs).symm

/-- A word is its own sixteen bits. -/
theorem eq_of_field {w v : Half} (h : w.extractLsb' 0 16 = v) : v = w :=
  h.symm.trans BitVec.extractLsb'_eq_self

/-- A field as a number, which `omega` can compare. -/
theorem field_eq_iff {N a n c : Nat} {x : BitVec N} :
    x.extractLsb' a n = BitVec.ofNat n c ↔ x.toNat / 2 ^ a % 2 ^ n = c % 2 ^ n := by
  rw [← BitVec.toNat_inj, BitVec.extractLsb'_toNat, Nat.shiftRight_eq_div_pow, BitVec.toNat_ofNat]

theorem field2_cases (k : BitVec 2) : k = 0b00#2 ∨ k = 0b01#2 ∨ k = 0b10#2 ∨ k = 0b11#2 := by
  revert k
  decide

theorem field3_cases (m : BitVec 3) : m = 0b000#3 ∨ m = 0b001#3 ∨ m = 0b010#3 ∨ m = 0b011#3 ∨
    m = 0b100#3 ∨ m = 0b101#3 ∨ m = 0b110#3 ∨ m = 0b111#3 := by
  revert m
  decide

theorem encodeScale_decodeScale (ss : BitVec 2) : encodeScale (decodeScale ss) = ss := by
  rcases field2_cases ss with rfl | rfl | rfl | rfl <;> rfl

theorem EndsInEA.bits {w : Half} {ea : EA} (h : EndsInEA w ea) :
    w.extractLsb' 0 6 = Sys2Proof.encodeEA ea := field_eq_append h.mode h.reg

/-! ### A word from its fields, one lemma per format (30_encoding.md R81) -/

section
variable {w : Half} {y x : RegNum} {ss : Scale} {ea : EA}

theorem EndsInEA.scaleByte (h : EndsInEA w ea) (hss : w.extractLsb' 6 2 = encodeScale ss) :
    w.extractLsb' 0 8 = encodeScale ss ++ Sys2Proof.encodeEA ea :=
  field_eq_append hss h.bits

theorem opeaWord_of_fields {op : BitVec 8} (hop : w.extractLsb' 8 8 = op)
    (hss : w.extractLsb' 6 2 = encodeScale ss) (hea : EndsInEA w ea) : opeaWord op ss ea = w :=
  eq_of_field (field_eq_append hop (hea.scaleByte hss))

theorem cplxWord_of_fields {p : BitVec 3} (h : w.extractLsb' 11 5 = 0b00010#5)
    (hy : w.extractLsb' 8 3 = encodeReg y) (hk : w.extractLsb' 6 2 = 0b00#2)
    (hp : w.extractLsb' 3 3 = p) (hx : w.extractLsb' 0 3 = encodeReg x) : cplxWord p y x = w :=
  eq_of_field (field_eq_append h (field_eq_append hy (field_eq_append hk (field_eq_append hp hx))))

theorem shftWord_of_fields {k : BitVec 2} (h : w.extractLsb' 11 5 = 0b00011#5)
    (hy : w.extractLsb' 8 3 = encodeReg y) (hk : w.extractLsb' 6 2 = k) (hea : EndsInEA w ea) :
    shftWord k y ea = w :=
  eq_of_field (field_eq_append h (field_eq_append hy (field_eq_append hk hea.bits)))

theorem q8Word_of_fields {op : BitVec 5} {q : BitVec 8} (h : w.extractLsb' 11 5 = op)
    (hy : w.extractLsb' 8 3 = encodeReg y) (hq : w.extractLsb' 0 8 = q) : q8Word op y q = w :=
  eq_of_field (field_eq_append h (field_eq_append hy hq))

theorem q3Word_of_fields {op : BitVec 5} {q : BitVec 3} (h : w.extractLsb' 11 5 = op)
    (hq : w.extractLsb' 8 3 = q) (hss : w.extractLsb' 6 2 = encodeScale ss) (hea : EndsInEA w ea) :
    q3Word op q ss ea = w :=
  eq_of_field (field_eq_append h (field_eq_append hq (hea.scaleByte hss)))

theorem qshWord_of_fields {k : BitVec 2} {q : BitVec 5} (h : w.extractLsb' 13 3 = 0b011#3)
    (hk : w.extractLsb' 11 2 = k) (hq : w.extractLsb' 6 5 = q) (hea : EndsInEA w ea) :
    qshWord k q ea = w :=
  eq_of_field (field_eq_append h (field_eq_append hk (field_eq_append hq hea.bits)))

theorem reaWord_of_fields {p : BitVec 3} (h : w.extractLsb' 14 2 = 0b10#2)
    (hp : w.extractLsb' 11 3 = p) (hy : w.extractLsb' 8 3 = encodeReg y)
    (hss : w.extractLsb' 6 2 = encodeScale ss) (hea : EndsInEA w ea) : reaWord p y ss ea = w :=
  eq_of_field (field_eq_append h (field_eq_append hp (field_eq_append hy (hea.scaleByte hss))))

theorem condWord_of_fields {op c : BitVec 4} {low : BitVec 8} (h : w.extractLsb' 12 4 = op)
    (hc : w.extractLsb' 8 4 = c) (hlow : w.extractLsb' 0 8 = low) : op ++ (c ++ low) = w :=
  eq_of_field (field_eq_append h (field_eq_append hc hlow))

end

/-! ### The fields of an effective address -/

theorem decodeEA_eq_some_iff {m x : BitVec 3} {ea : EA} :
    decodeEA m x = some ea ↔ m = ea.modeBits ∧ x = ea.regBits := by
  constructor
  · intro h
    rcases field3_cases m with rfl | rfl | rfl | rfl | rfl | rfl | rfl | rfl
    case inr.inr.inr.inr.inr.inr.inr =>
      rcases field3_cases x with rfl | rfl | rfl | rfl | rfl | rfl | rfl | rfl <;>
        cases h <;> exact ⟨rfl, rfl⟩
    all_goals
      obtain rfl := Option.some.inj h
      exact ⟨rfl, rfl⟩
  · rintro ⟨rfl, rfl⟩
    exact decodeEA_bits ea

/-- The reserved forms of 40_components.md R140. -/
theorem decodeEA_eq_none_iff {m x : BitVec 3} :
    decodeEA m x = none ↔ m = 0b111#3 ∧ x ∈ [0b001#3, 0b011#3, 0b100#3, 0b111#3] := by
  constructor
  · intro h
    rcases field3_cases m with rfl | rfl | rfl | rfl | rfl | rfl | rfl | rfl
    case inr.inr.inr.inr.inr.inr.inr =>
      rcases field3_cases x with rfl | rfl | rfl | rfl | rfl | rfl | rfl | rfl <;>
        cases h <;> exact ⟨rfl, by decide⟩
    all_goals cases h
  · rintro ⟨rfl, hx⟩
    simp only [List.mem_cons, List.not_mem_nil, or_false] at hx
    rcases hx with rfl | rfl | rfl | rfl <;> rfl

section
variable {w : Half} {f : EA → Instr}

theorem decodeEA_fields_iff {ea : EA} :
    decodeEA (w.extractLsb' 3 3) (w.extractLsb' 0 3) = some ea ↔ EndsInEA w ea :=
  decodeEA_eq_some_iff.trans ⟨fun ⟨hm, hx⟩ => ⟨hm, hx⟩, fun h => ⟨h.mode, h.reg⟩⟩

theorem endsInEA_imm_iff : EndsInEA w .imm ↔ w.extractLsb' 0 6 = 0b111010#6 := by
  refine ⟨EndsInEA.bits, fun h => ⟨?_, ?_⟩⟩
  · rw [← extract_extract (a := 0) (l := 6) (b := 3) w (by decide), h]
    rfl
  · rw [← extract_extract (a := 0) (l := 6) (b := 0) w (by decide), h]
    rfl

theorem withEA_eq_ok_iff {i : Instr} : withEA w f = .ok i ↔
    ∃ ea, EndsInEA w ea ∧ (f ea).immediateDestination = false ∧ f ea = i := by
  simp only [← decodeEA_fields_iff, withEA]
  cases decodeEA (w.extractLsb' 3 3) (w.extractLsb' 0 3) with
  | none => simp
  | some ea => cases hi : (f ea).immediateDestination <;> simp [hi]

theorem withEA_eq_error_iff {e : DecodeError} : withEA w f = .error e ↔
    (.reservedEA w = e ∧ decodeEA (w.extractLsb' 3 3) (w.extractLsb' 0 3) = none) ∨
      (.immediateDestination w = e ∧ ∃ ea, EndsInEA w ea ∧ (f ea).immediateDestination = true) := by
  simp only [← decodeEA_fields_iff, withEA]
  cases decodeEA (w.extractLsb' 3 3) (w.extractLsb' 0 3) with
  | none => simp
  | some ea => cases hi : (f ea).immediateDestination <;> simp [hi]

end

/-! ### The rows of each format -/

/-- How an instruction is spelled: its word, the effective address it writes, and that it is no RORQ
by 0. -/
structure Instr.Spelled (i : Instr) (word : Half) (written : Option EA) : Prop where
  word : encode i = word
  written : i.writtenEA = written
  canonical : i.rotateByZero = false

theorem Instr.Spelled.of_eq {i : Instr} {v w : Half} {d : Option EA} (h : i.Spelled v d)
    (hv : v = w) : i.Spelled w d := hv ▸ h

theorem Instr.Spelled.wf {i : Instr} {w : Half} (h : i.Spelled w none) : i.wf = true := by
  simp [Instr.wf, Instr.immediateDestination, h.written, h.canonical]

theorem decodeOpea_isSome_iff : ∀ {op : BitVec 8}, (decodeOpea op).isSome ↔
    op ∈ [0x01#8, 0x02#8, 0x03#8, 0x04#8, 0x05#8, 0x06#8, 0x07#8, 0x08#8, 0x09#8, 0x0A#8, 0x0B#8,
      0x0C#8, 0x0D#8, 0x0E#8, 0x0F#8] := by
  decide

theorem decodeOpea_spelled {op : BitVec 8} {f : Scale → EA → Instr} (h : decodeOpea op = some f)
    (ss : Scale) (ea : EA) :
    (f ss ea).Spelled (opeaWord op ss ea) (if op ≠ 0x01#8 ∧ op ≠ 0x0F#8 then some ea else none) := by
  have hop := decodeOpea_isSome_iff.1 (Option.isSome_of_eq_some h)
  simp only [List.mem_cons, List.not_mem_nil, or_false] at hop
  rcases hop with rfl | rfl | rfl | rfl | rfl | rfl | rfl | rfl | rfl | rfl | rfl | rfl | rfl | rfl |
    rfl <;> cases h <;> exact ⟨rfl, rfl, rfl⟩

theorem decodeCplx_eq_none_iff {p : BitVec 3} : decodeCplx p = none ↔ p = 0b000#3 := by
  rcases field3_cases p with rfl | rfl | rfl | rfl | rfl | rfl | rfl | rfl <;> simp [decodeCplx]

theorem decodeCplx_spelled {p : BitVec 3} {f : RegNum → RegNum → Instr} (h : decodeCplx p = some f)
    (y x : RegNum) : (f y x).Spelled (cplxWord p y x) none := by
  rcases field3_cases p with rfl | rfl | rfl | rfl | rfl | rfl | rfl | rfl <;> cases h <;>
    exact ⟨rfl, rfl, rfl⟩

theorem decodeShft_spelled (k : BitVec 2) (y : RegNum) (ea : EA) :
    (decodeShft k y ea).Spelled (shftWord k y ea) none := by
  rcases field2_cases k with rfl | rfl | rfl | rfl <;> exact ⟨rfl, rfl, rfl⟩

theorem decodeQsh_spelled (k : BitVec 2) (q : BitVec 5) (ea : EA) :
    (decodeQsh k q ea).Spelled (qshWord k q ea) (some ea) := by
  rcases field2_cases k with rfl | rfl | rfl | rfl
  case inr.inr.inr =>
    by_cases hq : q = 0#5
    · subst hq
      exact ⟨rfl, rfl, rfl⟩
    · have hkind : decodeQsh 0b11#2 q ea = .rorq q ea := by simp [decodeQsh, hq]
      rw [hkind]
      exact ⟨rfl, rfl, decide_eq_false hq⟩
  all_goals exact ⟨rfl, rfl, rfl⟩

theorem decodeRea_spelled (p : BitVec 3) (y : RegNum) (ss : Scale) (ea : EA) :
    (decodeRea p y ss ea).Spelled (reaWord p y ss ea) (if p = 0b111#3 then some ea else none) := by
  rcases field3_cases p with rfl | rfl | rfl | rfl | rfl | rfl | rfl | rfl <;> exact ⟨rfl, rfl, rfl⟩

section
variable {w : Half}

theorem decodeMisc_spelled {i : Instr} (hhigh : w.extractLsb' 8 8 = 0x00#8)
    (h : decodeMisc w = some i) : i.Spelled w none := by
  have hframe {low : BitVec 6} (hlow : (w.extractLsb' 0 8).extractLsb' 0 6 = low) :
      0x00#8 ++ (encodeScale (decodeScale (w.extractLsb' 6 2)) ++ low) = w := by
    rw [extract_extract w (by decide)] at hlow
    exact eq_of_field (field_eq_append hhigh (field_eq_append (encodeScale_decodeScale _).symm hlow))
  simp only [decodeMisc] at h
  split_ifs at h with hnop hrfi hunlnk hrfs hlnk <;> cases h
  · exact ⟨eq_of_field (field_eq_append hhigh hnop), rfl, rfl⟩
  · exact ⟨eq_of_field (field_eq_append hhigh hrfi), rfl, rfl⟩
  · exact ⟨eq_of_field (field_eq_append hhigh hunlnk), rfl, rfl⟩
  · exact ⟨hframe hrfs, rfl, rfl⟩
  · exact ⟨hframe hlnk, rfl, rfl⟩

theorem decodeMisc_eq_none_iff : decodeMisc w = none ↔
    w.extractLsb' 0 8 ∉ [0x00#8, 0x10#8, 0x18#8, 0x30#8, 0x70#8, 0xB0#8, 0xF0#8, 0x38#8, 0x78#8,
      0xB8#8, 0xF8#8] := by
  have hlow : ∀ low : BitVec 8, (low ≠ 0x00#8 ∧ low ≠ 0x10#8 ∧ low ≠ 0x18#8 ∧
      low.extractLsb' 0 6 ≠ 0b110000#6 ∧ low.extractLsb' 0 6 ≠ 0b111000#6) ↔
      low ∉ [0x00#8, 0x10#8, 0x18#8, 0x30#8, 0x70#8, 0xB0#8, 0xF0#8, 0x38#8, 0x78#8, 0xB8#8,
        0xF8#8] := by decide
  rw [← hlow]
  simp only [decodeMisc]
  split_ifs <;> simp_all

end

/-! ### The three kinds of words -/

/-- The words of no row (30_encoding.md R90). Like the two below an abbreviation, so that `omega` sees the
ranges. -/
abbrev Unlisted (w : Half) : Prop :=
  (w.extractLsb' 8 8 = 0x00#8 ∧ w.extractLsb' 0 8 ∉ [0x00#8, 0x10#8, 0x18#8, 0x30#8, 0x70#8, 0xB0#8,
      0xF0#8, 0x38#8, 0x78#8, 0xB8#8, 0xF8#8]) ∨
    (w.extractLsb' 11 5 = 0b00010#5 ∧ (w.extractLsb' 6 2 ≠ 0#2 ∨ w.extractLsb' 3 3 = 0#3)) ∨
    (0x2000 ≤ w.toNat ∧ w.toNat ≤ 0x3FFF) ∨ (0xC000 ≤ w.toNat ∧ w.toNat ≤ 0xDFFF)

/-- The words of the rows with an effective address (30_encoding.md R83). -/
abbrev HasEA (w : Half) : Prop :=
  (0x0100 ≤ w.toNat ∧ w.toNat ≤ 0x0FFF) ∨ (0x1800 ≤ w.toNat ∧ w.toNat ≤ 0x1FFF) ∨
    (0x5000 ≤ w.toNat ∧ w.toNat ≤ 0xBFFF) ∨ 0xF000 ≤ w.toNat

/-- The words of the rows that write their effective address (30_encoding.md R91). -/
abbrev WritesEA (w : Half) : Prop :=
  (0x0200 ≤ w.toNat ∧ w.toNat ≤ 0x0EFF) ∨ (0x5000 ≤ w.toNat ∧ w.toNat ≤ 0x7FFF) ∨
    (0xB800 ≤ w.toNat ∧ w.toNat ≤ 0xBFFF)

section
variable {w : Half} {f : EA → Instr}

theorem WritesEA.hasEA (h : WritesEA w) : HasEA w := by
  omega

theorem HasEA.not_unlisted (h : HasEA w) : ¬ Unlisted w := by
  rw [Unlisted, field_eq_iff, field_eq_iff]
  omega

/-- The word `w` stands in a row with an effective address, whose instruction for `ea` is `f ea`. -/
structure EARow (w : Half) (f : EA → Instr) : Prop where
  hasEA : HasEA w
  spelled {ea : EA} : EndsInEA w ea → (f ea).Spelled w (if WritesEA w then some ea else none)

theorem EARow.immediateDestination_iff {ea : EA} (row : EARow w f) (h : EndsInEA w ea) :
    (f ea).immediateDestination = true ↔ WritesEA w ∧ ea = .imm := by
  simp [Instr.immediateDestination, (row.spelled h).written]

/-- What the decoder can answer for a word: that of a row with an effective address, the instruction of a
row without one, or that no row lists it. -/
inductive Decoded (w : Half) : Except DecodeError Instr → Prop where
  | operand {f : EA → Instr} (row : EARow w f) : Decoded w (withEA w f)
  | plain {i : Instr} (spelled : i.Spelled w none) (listed : ¬ Unlisted w) (noEA : ¬ HasEA w) :
    Decoded w (.ok i)
  | unlisted (h : Unlisted w) : Decoded w (.error (.unlisted w))

/-! ### The rows with an effective address -/

theorem EARow.of_iff {p : Prop} [Decidable p] (hea : HasEA w) (hp : p ↔ WritesEA w)
    (h : ∀ {ea}, EndsInEA w ea → (f ea).Spelled w (if p then some ea else none)) : EARow w f :=
  ⟨hea, fun hea => if_congr hp rfl rfl ▸ h hea⟩

theorem EARow.of_writes (hw : WritesEA w)
    (h : ∀ {ea}, EndsInEA w ea → (f ea).Spelled w (some ea)) : EARow w f :=
  ⟨hw.hasEA, fun hea => if_pos hw ▸ h hea⟩

theorem EARow.of_reads (hea : HasEA w) (hw : ¬ WritesEA w)
    (h : ∀ {ea}, EndsInEA w ea → (f ea).Spelled w none) : EARow w f :=
  ⟨hea, fun hea => if_neg hw ▸ h hea⟩

theorem eaRow_opea {f : Scale → EA → Instr} (h : decodeOpea (w.extractLsb' 8 8) = some f) :
    EARow w (f (decodeScale (w.extractLsb' 6 2))) := by
  have hop := decodeOpea_isSome_iff.1 (Option.isSome_of_eq_some h)
  simp only [List.mem_cons, List.not_mem_nil, or_false, field_eq_iff] at hop
  have hwrites : w.extractLsb' 8 8 ≠ 0x01#8 ∧ w.extractLsb' 8 8 ≠ 0x0F#8 ↔ WritesEA w := by
    simp only [ne_eq, field_eq_iff]
    omega
  exact .of_iff (by omega) hwrites fun hea => (decodeOpea_spelled h _ _).of_eq
    (opeaWord_of_fields rfl (encodeScale_decodeScale _).symm hea)

theorem eaRow_shft (h : w.extractLsb' 11 5 = 0b00011#5) :
    EARow w (decodeShft (w.extractLsb' 6 2) (decodeReg (w.extractLsb' 8 3))) := by
  have htop := field_eq_iff.1 h
  exact .of_reads (by omega) (by omega) fun hea => (decodeShft_spelled _ _ _).of_eq
    (shftWord_of_fields h rfl rfl hea)

theorem eaRow_addq (h : w.extractLsb' 11 5 = 0b01010#5) :
    EARow w (.addq (w.extractLsb' 8 3) (decodeScale (w.extractLsb' 6 2))) := by
  have htop := field_eq_iff.1 h
  exact .of_writes (by omega) fun hea =>
    ⟨q3Word_of_fields h rfl (encodeScale_decodeScale _).symm hea, rfl, rfl⟩

theorem eaRow_subq (h : w.extractLsb' 11 5 = 0b01011#5) :
    EARow w (.subq (w.extractLsb' 8 3) (decodeScale (w.extractLsb' 6 2))) := by
  have htop := field_eq_iff.1 h
  exact .of_writes (by omega) fun hea =>
    ⟨q3Word_of_fields h rfl (encodeScale_decodeScale _).symm hea, rfl, rfl⟩

theorem eaRow_qsh (h : w.extractLsb' 13 3 = 0b011#3) :
    EARow w (decodeQsh (w.extractLsb' 11 2) (w.extractLsb' 6 5)) := by
  have htop := field_eq_iff.1 h
  exact .of_writes (by omega) fun hea => (decodeQsh_spelled _ _ _).of_eq
    (qshWord_of_fields h rfl rfl hea)

theorem eaRow_rea (h : w.extractLsb' 14 2 = 0b10#2) :
    EARow w (decodeRea (w.extractLsb' 11 3) (decodeReg (w.extractLsb' 8 3))
      (decodeScale (w.extractLsb' 6 2))) := by
  have htop := field_eq_iff.1 h
  have hwrites : w.extractLsb' 11 3 = 0b111#3 ↔ WritesEA w := by
    simp only [field_eq_iff]
    omega
  exact .of_iff (by omega) hwrites fun hea => (decodeRea_spelled _ _ _ _).of_eq
    (reaWord_of_fields h rfl rfl (encodeScale_decodeScale _).symm hea)

theorem eaRow_jcc (h : w.extractLsb' 12 4 = 0b1111#4) :
    EARow w (.jcc (w.extractLsb' 8 4) (decodeScale (w.extractLsb' 6 2))) := by
  have htop := field_eq_iff.1 h
  exact .of_reads (by omega) (by omega) fun hea =>
    ⟨condWord_of_fields h rfl (hea.scaleByte (encodeScale_decodeScale _).symm), rfl, rfl⟩

/-! ### The rows without one, and the words of no row -/

theorem decode_of_misc (h : w.extractLsb' 8 8 = 0x00#8) : decode w = listed w (decodeMisc w) := by
  simp [decode, h]

theorem decode_of_cplx_unlisted (h : w.extractLsb' 11 5 = 0b00010#5)
    (hp : w.extractLsb' 6 2 ≠ 0b00#2 ∨ w.extractLsb' 3 3 = 0b000#3) :
    decode w = .error (.unlisted w) := by
  have hhigh := high_ne_zero (w := w) (by simp [h])
  by_cases hk : w.extractLsb' 6 2 = 0b00#2
  · have hnone := decodeCplx_eq_none_iff.2 (hp.resolve_left (not_not_intro hk))
    simp [decode, hhigh, h, hk, hnone]
  · simp [decode, hhigh, h, hk]

theorem decoded_misc (h : w.extractLsb' 8 8 = 0x00#8) : Decoded w (decode w) := by
  have hhigh := field_eq_iff.1 h
  rw [decode_of_misc h]
  cases hm : decodeMisc w with
  | none => exact .unlisted (.inl ⟨h, decodeMisc_eq_none_iff.1 hm⟩)
  | some i =>
    refine .plain (decodeMisc_spelled h hm) ?_ (by omega)
    rintro (⟨-, hlow⟩ | ⟨h2, -⟩ | hrange)
    · rw [decodeMisc_eq_none_iff.2 hlow] at hm
      cases hm
    · rw [field_eq_iff] at h2
      omega
    · omega

theorem decoded_cplx (h : w.extractLsb' 11 5 = 0b00010#5) : Decoded w (decode w) := by
  have htop := field_eq_iff.1 h
  by_cases hp : w.extractLsb' 6 2 ≠ 0b00#2 ∨ w.extractLsb' 3 3 = 0b000#3
  · rw [decode_of_cplx_unlisted h hp]
    exact .unlisted (.inr (.inl ⟨h, hp⟩))
  · obtain ⟨hk, hne⟩ : w.extractLsb' 6 2 = 0b00#2 ∧ w.extractLsb' 3 3 ≠ 0b000#3 := by
      simpa using hp
    obtain ⟨f, hf⟩ := Option.ne_none_iff_exists'.1 (mt decodeCplx_eq_none_iff.1 hne)
    rw [decode_of_cplx h hk hf]
    refine .plain ((decodeCplx_spelled hf _ _).of_eq ?_) ?_ (by omega)
    · exact cplxWord_of_fields h rfl hk rfl rfl
    · rintro (⟨h8, -⟩ | ⟨-, h2⟩ | hrange)
      · rw [field_eq_iff] at h8
        omega
      · exact hp h2
      · omega

/-- A word in the ranges of LDQ, CMPQ and Bcc has a row without an effective address. -/
theorem decoded_of_spelled {i : Instr} (h : i.Spelled w none)
    (hw : (0x4000 ≤ w.toNat ∧ w.toNat ≤ 0x4FFF) ∨ (0xE000 ≤ w.toNat ∧ w.toNat ≤ 0xEFFF)) :
    Decoded w (.ok i) := by
  refine .plain h ?_ (by omega)
  rw [Unlisted, field_eq_iff, field_eq_iff]
  omega

theorem decoded_pastQ3 (h : PastQ3 (w.extractLsb' 11 5)) : Decoded w (decode w) := by
  rw [decode_of_pastQ3 h]
  split_ifs with hqsh hrea hbcc hjcc
  · exact .operand (eaRow_qsh hqsh)
  · exact .operand (eaRow_rea hrea)
  · have htop := field_eq_iff.1 hbcc
    exact decoded_of_spelled ⟨condWord_of_fields hbcc rfl rfl, rfl, rfl⟩ (by omega)
  · exact .operand (eaRow_jcc hjcc)
  · simp only [PastQ3, List.mem_cons, List.not_mem_nil, or_false, field_eq_iff] at *
    exact .unlisted (by omega)

/-- Rows 1 to 20 of 30_encoding.md R83. -/
theorem decoded_of_top_le_one (h : w.extractLsb' 11 5 = 0b00000#5 ∨ w.extractLsb' 11 5 = 0b00001#5) :
    Decoded w (decode w) := by
  by_cases hhigh : w.extractLsb' 8 8 = 0x00#8
  · exact decoded_misc hhigh
  · have hop : (decodeOpea (w.extractLsb' 8 8)).isSome := by
      simp only [decodeOpea_isSome_iff, List.mem_cons, List.not_mem_nil, or_false, field_eq_iff]
        at h hhigh ⊢
      omega
    obtain ⟨f, hf⟩ := Option.isSome_iff_exists.1 hop
    rw [decode_of_opea hf]
    exact .operand (eaRow_opea hf)

/-- The decoder's answer for every word, by its top five bits (30_encoding.md R89). -/
theorem decode_decoded (w : Half) : Decoded w (decode w) := by
  by_cases hpast : PastQ3 (w.extractLsb' 11 5)
  · exact decoded_pastQ3 hpast
  simp only [PastQ3, List.mem_cons, List.not_mem_nil, or_false, not_not] at hpast
  rcases hpast with h | h | h | h | h | h | h | h
  · exact decoded_of_top_le_one (.inl h)
  · exact decoded_of_top_le_one (.inr h)
  · exact decoded_cplx h
  · exact decode_of_shft h ▸ .operand (eaRow_shft h)
  · have htop := field_eq_iff.1 h
    rw [decode_of_ldq h]
    exact decoded_of_spelled ⟨q8Word_of_fields h rfl rfl, rfl, rfl⟩ (by omega)
  · have htop := field_eq_iff.1 h
    rw [decode_of_cmpq h]
    exact decoded_of_spelled ⟨q8Word_of_fields h rfl rfl, rfl, rfl⟩ (by omega)
  · exact decode_of_addq h ▸ .operand (eaRow_addq h)
  · exact decode_of_subq h ▸ .operand (eaRow_subq h)

/-! ### What follows from the three kinds -/

theorem Decoded.wf_and_word {r : Except DecodeError Instr} {i : Instr} (h : Decoded w r)
    (hr : r = .ok i) : i.wf = true ∧ encode i = w := by
  cases h with
  | operand row =>
    obtain ⟨ea, hea, himm, rfl⟩ := withEA_eq_ok_iff.1 hr
    have hs := row.spelled hea
    exact ⟨by simp [Instr.wf, himm, hs.canonical], hs.word⟩
  | plain hs =>
    cases hr
    exact ⟨hs.wf, hs.word⟩
  | unlisted h => cases hr

theorem Decoded.rejected {r : Except DecodeError Instr} (h : Decoded w r) :
    (r = .error (.unlisted w) ↔ Unlisted w) ∧
      (r = .error (.reservedEA w) ↔ HasEA w ∧ w.extractLsb' 3 3 = 0b111#3 ∧
        w.extractLsb' 0 3 ∈ [0b001#3, 0b011#3, 0b100#3, 0b111#3]) ∧
      (r = .error (.immediateDestination w) ↔ WritesEA w ∧ w.extractLsb' 0 6 = 0b111010#6) ∧
      r ≠ .error .truncated := by
  cases h with
  | @operand f row =>
    have himm : (∃ ea, EndsInEA w ea ∧ (f ea).immediateDestination = true) ↔
        WritesEA w ∧ w.extractLsb' 0 6 = 0b111010#6 := by
      rw [← endsInEA_imm_iff]
      constructor
      · rintro ⟨ea, hea, hi⟩
        obtain ⟨hw, rfl⟩ := (row.immediateDestination_iff hea).1 hi
        exact ⟨hw, hea⟩
      · exact fun ⟨hw, hea⟩ => ⟨.imm, hea, (row.immediateDestination_iff hea).2 ⟨hw, rfl⟩⟩
    simp [withEA_eq_error_iff, himm, decodeEA_eq_none_iff, row.hasEA, row.hasEA.not_unlisted]
  | plain hs hlisted hnoEA =>
    simp [hlisted, hnoEA, mt WritesEA.hasEA hnoEA]
  | unlisted h =>
    have hnoEA := mt HasEA.not_unlisted (not_not_intro h)
    simp [h, hnoEA, mt WritesEA.hasEA hnoEA]

end

/-- The word of every instruction stands in its row of the opcode map (30_encoding.md R83). -/
theorem encode_and_mask (i : Instr) : encode i &&& i.row.mask = i.row.value := by
  cases i with
  | nop | rfi | unlnk => rfl
  | rfs ss | lnk ss => exact Laws.frame_mask _ _
  | cmpi ss ea | addi ss ea | subi ss ea | xori ss ea | ori ss ea | andi ss ea | sti ss ea
  | not ss ea | neg ss ea | adc ss ea | sbc ss ea | clr ss ea | rev ss ea | ext ss ea | tst ss ea =>
    exact Laws.opeaWord_mask _ _ _
  | mul y x | hmulu y x | hmuls y x | divu y x | divs y x | modu y x | mods y x =>
    exact Laws.cplxWord_mask _ _ _
  | lsl y ea | lsr y ea | asr y ea | ror y ea => exact Laws.shftWord_mask _ _ _
  | ldq y q | cmpq y q => exact Laws.q8Word_mask _ _ _
  | addq q ss ea | subq q ss ea => exact Laws.q3Word_mask _ _ _ _
  | lslq q ea | lsrq q ea | asrq q ea | rorq q ea => exact Laws.qshWord_mask _ _ _
  | rrc ea => exact Laws.qshWord_mask_count _ _ _
  | ld y ss ea | cmp y ss ea | add y ss ea | sub y ss ea | xor y ss ea | or y ss ea | and y ss ea
  | st y ss ea => exact Laws.reaWord_mask _ _ _ _
  | bcc c q | jcc c ss ea => exact Laws.condWord_mask _ _ _

/-! ### The statements -/

/-- Settles O1: `decode_encode`, format by format. -/
theorem encodeThenDecode : Obligations.EncodeThenDecode :=
  fun _ => decode_encode

/-- Settles O2: a word that decodes has a row, and its instruction is spelled by the word's own fields
(`decode_decoded`); the mask is that of the instruction's row (`encode_and_mask`). -/
theorem decodeThenEncode : Obligations.DecodeThenEncode := by
  intro w i h
  obtain ⟨hwf, hword⟩ := (decode_decoded w).wf_and_word h
  exact ⟨hwf, hword, hword ▸ encode_and_mask i⟩

/-- Settles O3: each of the three kinds of words is rejected as the statement says
(`Decoded.rejected`). -/
theorem rejectedWordsExactly : Obligations.RejectedWordsExactly :=
  fun w => (decode_decoded w).rejected

/-- Settles O4: each is the word that the encoder writes for its instruction. -/
theorem handWrittenWordsDecode : Obligations.HandWrittenWordsDecode :=
  ⟨decode_encode (i := .unlnk) rfl, decode_encode (i := .lnk .h) rfl,
    decode_encode (i := .addi .b (.dreg 0)) rfl, decode_encode (i := .tst .b (.deferred 0)) rfl,
    decode_encode (i := .mul 1 2) rfl, decode_encode (i := .lsr 0 (.postInc 1)) rfl,
    decode_encode (i := .ldq 0 0xFF#8) rfl, decode_encode (i := .addq 7#3 .a (.areg 0)) rfl,
    decode_encode (i := .rrc (.deferred 0)) rfl, decode_encode (i := .st 7 .a (.preDec 7)) rfl,
    decode_encode (i := .bcc 7#4 0xFE#8) rfl, decode_encode (i := .jcc 15#4 .a .imm) rfl⟩

end Sys2Proof
end

section
/-! PROOF. The extension words of an immediate and of an operand with the instruction's own immediate
(30_encoding.md R86, R87; 40_components.md R134, R149). -/

namespace Sys2Proof.Machine

/-- A fetch that can be read moves IP past what it read. -/
theorem fetch_of_read {align nb : Nat} {v : BitVec (8 * nb)} {s t : State}
    (h : memReadAligned .fetch align nb s.ip s = .ok (v, t)) :
    fetch align nb s = .ok (v, t.setIp (s.ip + BitVec.ofNat 32 nb)) := by
  rw [fetch, h, run_ok_bind]
  rfl

/-- The constant of an immediate holds every operand as a whole (40_components.md R134). -/
theorem setWidth_word_setWidth {nb : Nat} (h : OperandSize nb) (v : BitVec (8 * nb)) :
    (v.setWidth 32).setWidth (8 * nb) = v := by
  rw [BitVec.setWidth_setWidth_of_le _ (by omega), BitVec.setWidth_eq]

/-- Settles O27: each immediate is one fetch (`fetch_of_read`), of which a byte keeps the low half. -/
theorem immediateForm : Obligations.ImmediateForm := by
  intro s s1
  have hhalf {h : Half} (hr : memReadAligned .fetch 2 2 s.ip s = .ok (h, s1)) :
      fetchExt16 s = .ok (h, s1.setIp (s.ip + 2)) := fetch_of_read hr
  have hword {w : Word} (hr : memReadAligned .fetch 2 4 s.ip s = .ok (w, s1)) :
      fetchExt32 s = .ok (w, s1.setIp (s.ip + 4)) := fetch_of_read hr
  refine ⟨fun h hc hr => ?_, fun b hc hr => ?_, fun h hr => ?_, fun w hr => ?_,
    fun nb v hn h => ⟨?_, ?_⟩⟩
  · simp [fetchImm, hc, hhalf hr, BitVec.setWidth_eq_extractLsb']
  · simp [fetchImm, hc, fetch_of_read hr]
  · simp [fetchImm, hhalf hr]
  · simp [fetchImm, hword hr]
  · simp [evalEA, h]
  · rw [readLoc, setWidth_word_setWidth hn]

/-- Settles O30: the three operations run in the order of `EXT_ORDER`, and answer exactly when each
does (`run_bind_ok`). -/
theorem operandThenImmediate : Obligations.OperandThenImmediate := by
  intro ea nb s loc v imm t
  unfold operandImm evalEAImm
  cases s.cfg.extOrder with
  | eaThenImm => simp [run_bind_ok, and_assoc]
  | immThenEa => simp [run_bind_ok, and_assoc]

end Sys2Proof.Machine
end

section
/-! PROOF. The flag functions and the condition codes (40_components.md R141 to R146). The formulas for V
and the signed conditions rest on one fact: N, or its inverse where V is set, is the sign of the exact
result (`msb_xor_outsideSigned`). -/

namespace Sys2Proof.Machine

/-! ### A signed result at its width -/

section
variable {n : Nat} {e : Int}

/-- The signed range of a width is half of its unsigned range. -/
theorem two_pow_eq_double (hn : 0 < n) : (2 : Int) ^ n = 2 * 2 ^ (n - 1) := by
  rw [← pow_succ', Nat.sub_add_cancel hn]

theorem outsideSigned_eq_false_iff :
    outsideSigned n e = false ↔ -2 ^ (n - 1) ≤ e ∧ e < 2 ^ (n - 1) := by
  simp [outsideSigned]

theorem toInt_ofInt_of_inside (hn : 0 < n) (h : outsideSigned n e = false) :
    (BitVec.ofInt n e).toInt = e := by
  obtain ⟨hlo, hhi⟩ := outsideSigned_eq_false_iff.1 h
  have hpow := two_pow_eq_double hn
  rw [BitVec.toInt_ofInt, Int.bmod_eq_of_le_mul_two] <;> push_cast <;> omega

/-- V says that the signed reading of the result is not the exact one. -/
theorem outsideSigned_iff (hn : 0 < n) :
    outsideSigned n e = true ↔ (BitVec.ofInt n e).toInt ≠ e := by
  refine ⟨fun h he => ?_, fun h => ?_⟩
  · have hinside : outsideSigned n e = false := by
      rw [outsideSigned_eq_false_iff, ← he]
      exact ⟨BitVec.le_toInt _, BitVec.toInt_lt⟩
    simp [hinside] at h
  · by_contra hinside
    exact h (toInt_ofInt_of_inside hn (Bool.not_eq_true _ ▸ hinside))

/-- The sign of the exact result, at most one bit too wide, is the top bit, or its inverse where the
result wraps. -/
theorem msb_xor_outsideSigned (hn : 0 < n) (hlo : -2 ^ n ≤ e) (hhi : e < 2 ^ n) :
    ((BitVec.ofInt n e).msb ^^ outsideSigned n e) = decide (e < 0) := by
  have hpow := two_pow_eq_double hn
  have hcast : ((2 ^ n : Nat) : Int) = 2 ^ n := by push_cast; rfl
  rw [BitVec.msb_eq_toInt]
  cases hout : outsideSigned n e with
  | false => rw [toInt_ofInt_of_inside hn hout, Bool.xor_false]
  | true =>
    obtain hbelow | habove : e < -2 ^ (n - 1) ∨ 2 ^ (n - 1) ≤ e := by
      simpa [outsideSigned] using hout
    · have hwrap : (BitVec.ofInt n e).toInt = e + 2 ^ n := by
        rw [BitVec.toInt_ofInt, ← Int.add_bmod_right, Int.bmod_eq_of_le_mul_two] <;> omega
      rw [hwrap, Bool.xor_true, ← decide_not, decide_eq_decide]
      omega
    · have hwrap : (BitVec.ofInt n e).toInt = e - 2 ^ n := by
        rw [BitVec.toInt_ofInt, ← Int.sub_bmod_right, Int.bmod_eq_of_le_mul_two] <;> omega
      rw [hwrap, Bool.xor_true, ← decide_not, decide_eq_decide]
      omega

/-- A sum of two terms wraps exactly where they have one sign and its top bit is the other. -/
theorem outsideSigned_eq_of_signs {sa sb : Bool} (hn : 0 < n) (hlo : -2 ^ n ≤ e) (hhi : e < 2 ^ n)
    (hne : sa ≠ sb → outsideSigned n e = false) (heq : sa = sb → sa = decide (e < 0)) :
    outsideSigned n e = ((sa ^^ (BitVec.ofInt n e).msb) && (sb ^^ (BitVec.ofInt n e).msb)) := by
  by_cases hs : sa = sb
  · subst hs
    rw [heq rfl, ← msb_xor_outsideSigned hn hlo hhi, Bool.and_self]
    simp [Bool.xor_comm]
  · rw [hne hs, Bool.eq_not_of_ne hs]
    cases sb <;> cases (BitVec.ofInt n e).msb <;> rfl

end

/-! ### The sum and the difference -/

section
variable {n : Nat} (p : SubCarry) (a b : BitVec n) (x : Bool)

theorem addFlags_fst : (addFlags a b x).1 = a + b + BitVec.ofNat n x.toNat := by
  simp [addFlags, BitVec.ofNat_add]

theorem subFlags_fst : (subFlags p a b x).1 = a - b - BitVec.ofNat n x.toNat := by
  simp [subFlags, Int.sub_eq_add_neg, BitVec.ofInt_add, BitVec.ofInt_neg, BitVec.sub_eq_add_neg,
    BitVec.ofInt_natCast]

/-- The sum is the exact signed sum at its width. -/
theorem addFlags_fst_eq_ofInt :
    (addFlags a b x).1 = BitVec.ofInt n (a.toInt + b.toInt + x.toNat) := by
  simp [addFlags_fst, BitVec.ofInt_add, BitVec.ofInt_natCast]

/-- The difference is the exact signed difference at its width. -/
theorem subFlags_fst_eq_ofInt :
    (subFlags p a b x).1 = BitVec.ofInt n (a.toInt - b.toInt - x.toNat) := by
  simp [subFlags_fst, Int.sub_eq_add_neg, BitVec.ofInt_add, BitVec.ofInt_neg, BitVec.ofInt_natCast,
    BitVec.sub_eq_add_neg]

theorem addFlags_snd_v :
    (addFlags a b x).2.v = outsideSigned n (a.toInt + b.toInt + x.toNat) := rfl

theorem subFlags_snd_v :
    (subFlags p a b x).2.v = outsideSigned n (a.toInt - b.toInt - x.toNat) := rfl

/-- C under either polarity, as the comparison that C stands for (40_components.md R146). -/
theorem subFlags_snd_c : (subFlags p a b x).2.c =
    carryOfBorrow p (decide (a.toNat < b.toNat + x.toNat)) := by
  have hborrow : (a.toNat : Int) - b.toNat - x.toNat < 0 ↔ a.toNat < b.toNat + x.toNat := by omega
  simp [subFlags, hborrow]

/-- The signed range of a value, half its width's range. -/
theorem toInt_bounds : -2 ^ (n - 1) ≤ a.toInt ∧ a.toInt < 2 ^ (n - 1) :=
  ⟨BitVec.le_toInt a, BitVec.toInt_lt⟩

/-- The sum of two values and a carry is at most one bit too wide. -/
theorem toInt_add_bounds (hn : 0 < n) :
    -2 ^ n ≤ a.toInt + b.toInt + x.toNat ∧ a.toInt + b.toInt + x.toNat < 2 ^ n := by
  have hpow := two_pow_eq_double hn
  have ha := toInt_bounds a
  have hb := toInt_bounds b
  have hx := Bool.toNat_le x
  omega

/-- So is the difference of two values and a borrow. -/
theorem toInt_sub_bounds (hn : 0 < n) :
    -2 ^ n ≤ a.toInt - b.toInt - x.toNat ∧ a.toInt - b.toInt - x.toNat < 2 ^ n := by
  have hpow := two_pow_eq_double hn
  have ha := toInt_bounds a
  have hb := toInt_bounds b
  have hx := Bool.toNat_le x
  omega

/-- V from the three top bits: both operands of one sign, the sum of the other (R145). -/
theorem addFlags_snd_v_eq_msb (hn : 0 < n) : (addFlags a b x).2.v =
    ((a ^^^ (addFlags a b x).1) &&& (b ^^^ (addFlags a b x).1)).msb := by
  obtain ⟨halo, hahi⟩ := toInt_bounds a
  obtain ⟨hblo, hbhi⟩ := toInt_bounds b
  have hx := Bool.toNat_le x
  obtain ⟨hlo, hhi⟩ := toInt_add_bounds a b x hn
  rw [addFlags_snd_v, addFlags_fst_eq_ofInt, BitVec.msb_and, BitVec.msb_xor, BitVec.msb_xor]
  refine outsideSigned_eq_of_signs hn hlo hhi (fun hsign => ?_) (fun hsign => ?_)
  · rw [BitVec.msb_eq_toInt, BitVec.msb_eq_toInt, Ne, decide_eq_decide] at hsign
    rw [outsideSigned_eq_false_iff]
    omega
  · rw [BitVec.msb_eq_toInt, BitVec.msb_eq_toInt, decide_eq_decide] at hsign
    rw [BitVec.msb_eq_toInt, decide_eq_decide]
    omega

/-- V from the three top bits: operands of two signs, the difference of the right one's (R146). -/
theorem subFlags_snd_v_eq_msb (hn : 0 < n) : (subFlags p a b x).2.v =
    ((a ^^^ b) &&& (a ^^^ (subFlags p a b x).1)).msb := by
  obtain ⟨halo, hahi⟩ := toInt_bounds a
  obtain ⟨hblo, hbhi⟩ := toInt_bounds b
  have hx := Bool.toNat_le x
  obtain ⟨hlo, hhi⟩ := toInt_sub_bounds a b x hn
  have hflip (r s t : Bool) : ((r ^^ t) && (!s ^^ t)) = ((r ^^ s) && (r ^^ t)) := by
    cases r <;> cases s <;> cases t <;> rfl
  rw [subFlags_snd_v, subFlags_fst_eq_ofInt, BitVec.msb_and, BitVec.msb_xor, BitVec.msb_xor, ← hflip]
  refine outsideSigned_eq_of_signs hn hlo hhi (fun hsign => ?_) (fun hsign => ?_)
  · rw [BitVec.msb_eq_toInt, BitVec.msb_eq_toInt, Ne, ← decide_not, decide_eq_decide] at hsign
    rw [outsideSigned_eq_false_iff]
    omega
  · rw [BitVec.msb_eq_toInt, BitVec.msb_eq_toInt, ← decide_not, decide_eq_decide] at hsign
    rw [BitVec.msb_eq_toInt, decide_eq_decide]
    omega

theorem addFlags_adds (hn : 0 < n) : Adds a b x (addFlags a b x).1 (addFlags a b x).2 := by
  refine ⟨addFlags_fst a b x, rfl, decide_eq_true_iff, decide_eq_true_iff, ?_⟩
  rw [addFlags_snd_v, addFlags_fst_eq_ofInt]
  exact outsideSigned_iff hn

theorem subFlags_subtracts (hn : 0 < n) :
    Subtracts p a b x (subFlags p a b x).1 (subFlags p a b x).2 := by
  refine ⟨subFlags_fst p a b x, rfl, decide_eq_true_iff, ?borrow, ?notBorrow, ?overflow⟩
  case borrow =>
    rintro rfl
    simp [subFlags_snd_c, carryOfBorrow]
  case notBorrow =>
    rintro rfl
    simp [subFlags_snd_c, carryOfBorrow]
  case overflow =>
    rw [subFlags_snd_v, subFlags_fst_eq_ofInt]
    exact outsideSigned_iff hn

end

/-- Settles O31: the exact sum and difference (`addFlags_adds`, `subFlags_subtracts`), and V from the top
bits. -/
theorem flagFunctionsAreExact : Obligations.FlagFunctionsAreExact :=
  fun _ p a b x hn => ⟨addFlags_adds a b x hn, addFlags_snd_v_eq_msb a b x hn,
    subFlags_subtracts p a b x hn, subFlags_snd_v_eq_msb p a b x hn⟩

/-! ### Conditions -/

/-- Settles O33: each row is the expression of its low three bits, compared with its top bit
(40_components.md R141). -/
theorem conditionTable : Obligations.ConditionTable := by
  intro f
  have hsame : (f.n == f.v) = !(f.n ^^ f.v) := by cases f.n <;> cases f.v <;> rfl
  refine ⟨?_, ?_, ?_, ?_, ?_, ?_, ?_, ?_, ?_, ?_, ?_, ?_, ?_, ?_, ?_, ?_⟩ <;>
    simp [condHolds, condExpr, hsame]

section
variable {n : Nat} (p : SubCarry) (a b : BitVec n)

/-- After a compare, N and V differ exactly where the left value is less as a signed number. -/
theorem compare_n_bne_v (hn : 0 < n) :
    ((subFlags p a b false).2.n != (subFlags p a b false).2.v) = decide (a.toInt < b.toInt) := by
  obtain ⟨hlo, hhi⟩ := toInt_sub_bounds a b false hn
  have hmsb : (subFlags p a b false).2.n = (subFlags p a b false).1.msb := rfl
  rw [Bool.bne_eq_xor, hmsb, subFlags_snd_v, subFlags_fst_eq_ofInt, msb_xor_outsideSigned hn hlo hhi,
    decide_eq_decide]
  simp

theorem compare_z : (subFlags p a b false).2.z = decide (a = b) := by
  have hz : (subFlags p a b false).2.z = decide ((subFlags p a b false).1 = 0) := rfl
  rw [hz, subFlags_fst, decide_eq_decide]
  simpa using sub_eq_zero (a := a) (b := b)

theorem compare_c :
    (subFlags p a b false).2.c = carryOfBorrow p (decide (a.toNat < b.toNat)) := by
  simp [subFlags_snd_c]

end

/-- Settles O32: the rows of `conditionTable` over the three comparisons that the flags of a compare
make. -/
theorem conditionsAfterCompare : Obligations.ConditionsAfterCompare := by
  intro n p a b hn f
  have hless : (f.n != f.v) = decide (a.toInt < b.toInt) := compare_n_bne_v p a b hn
  have hnotLess : (f.n == f.v) = decide (b.toInt ≤ a.toInt) := by
    simp only [← not_lt, decide_not, ← hless, bne, Bool.not_not]
  have hz : f.z = decide (a = b) := compare_z p a b
  have hc : f.c = carryOfBorrow p (decide (a.toNat < b.toNat)) := compare_c p a b
  have hsigned : a = b ↔ a.toInt = b.toInt := BitVec.toInt_inj.symm
  have hunsigned : a = b ↔ a.toNat = b.toNat := BitVec.toNat_eq
  obtain ⟨-, -, h0001, h1001, -, -, h0011, h1011, h0100, h1100, h0101, h1101, h0110, h1110, -, -⟩ :=
    conditionTable f
  refine ⟨?lt, ?ge, ?le, ?gt, ?eq, ?ne, ?borrow, ?notBorrow⟩
  case lt => rw [h1101, hless, decide_eq_true_iff]
  case ge => rw [h0101, hnotLess, decide_eq_true_iff]
  case le =>
    rw [h1110, hless, hz, Bool.or_eq_true, decide_eq_true_iff, decide_eq_true_iff, hsigned]
    omega
  case gt =>
    simp only [h0110, hnotLess, hz, Bool.and_eq_true, Bool.not_eq_true', decide_eq_true_iff,
      decide_eq_false_iff_not, hsigned]
    omega
  case eq => rw [h1001, hz, decide_eq_true_iff]
  case ne => rw [h0001, hz, Bool.not_eq_true', decide_eq_false_iff_not]
  case borrow =>
    rintro rfl
    simp only [h0011, h1011, h0100, h1100, hc, hz, carryOfBorrow, hunsigned, Bool.or_eq_true,
      Bool.not_eq_true', Bool.or_eq_false_iff, Bool.not_eq_false', decide_eq_true_iff,
      decide_eq_false_iff_not, true_and]
    omega
  case notBorrow =>
    rintro rfl
    simp only [h0011, h1011, h0100, h1100, hc, hz, carryOfBorrow, hunsigned, Bool.or_eq_true,
      Bool.not_eq_true', Bool.or_eq_false_iff, decide_eq_true_iff, decide_eq_false_iff_not,
      Bool.not_not, true_and]
    omega

end Sys2Proof.Machine
end

section
/-! PROOF. The instruction word of a step, and the effective-address forms one by one: what each evaluates
to, what reading and writing its location does, exactly when an operand can be read, and what reading it
leaves (40_components.md R120 to R139, R149). -/

namespace Sys2Proof.Machine

/-! ### The instruction word -/

/-- Two bytes in memory hold the halfword they are decoded as (20_memory.md R54). -/
theorem holdsValue_bytesHalf {s : State} {a : Word} {b0 b1 : Byte} (h0 : s.byteAt a = some b0)
    (h1 : s.byteAt (a + 1) = some b1) : HoldsValue s 2 a (bytesHalf s.cfg.byteOrder b0 b1) := by
  have hfirst : s.byteAt (byteAddr a 0) = some b0 := (byteAddr_zero a).symm ▸ h0
  have hsecond : s.byteAt (byteAddr a 1) = some b1 := h1
  intro k hk
  obtain rfl | rfl : k = 0 ∨ k = 1 := by omega
  · rw [hfirst]
    cases s.cfg.byteOrder with
    | big => exact congrArg some BitVec.extractLsb'_append_eq_left.symm
    | little => exact congrArg some BitVec.extractLsb'_append_eq_right.symm
  · rw [hsecond]
    cases s.cfg.byteOrder with
    | big => exact congrArg some BitVec.extractLsb'_append_eq_right.symm
    | little => exact congrArg some BitVec.extractLsb'_append_eq_left.symm

theorem decodeBytes_two_eq_ok {o : ByteOrder} {b0 b1 : Byte} {i : Instr}
    (h : decodeBytes o [b0, b1] = .ok (i, [])) : decode (bytesHalf o b0 b1) = .ok i := by
  unfold decodeBytes at h
  cases hd : decode (bytesHalf o b0 b1) with
  | ok j => simpa [hd] using h
  | error e => simp [hd] at h

/-- Settles O5: the two bytes hold a word that is fetched and decoded (`fetchInstr_of_holdsValue`). -/
theorem stepRunsDecodedInstruction : Obligations.StepRunsDecodedInstruction := by
  intro s b0 b1 i hacc h0 h1 hdecode hhalt
  rw [step, fetchInstr_of_holdsValue hacc (holdsValue_bytesHalf h0 h1) hhalt
    (decodeBytes_two_eq_ok hdecode)]

/-! ### Scales and registers -/

/-- Settles O21: the rows of the table, one evaluation each. -/
theorem scaleTable : Obligations.ScaleTable :=
  ⟨⟨rfl, rfl, rfl⟩, ⟨rfl, rfl, rfl⟩, ⟨rfl, rfl, rfl⟩, rfl, rfl, rfl⟩

section
variable {f : RegFile} {x : RegNum} {nb : Nat} {s s1 : State} {w old : Word}

theorem regWriteN_of_readOld (h : readOld f x nb s = .ok (old, s1)) (v : BitVec (8 * nb)) :
    regWriteN f x nb v s = .ok (s1.setReg f x (narrowed s.cfg.narrowWrite nb old v)) :=
  regWriteN_ok_iff.2 ⟨old, s1, h, rfl⟩

/-- Where a register has been written, a narrow write over it cannot fault (10_state.md R27). -/
theorem regWriteN_of_some (h : s.regAt f x = some w) (v : BitVec (8 * nb)) :
    regWriteN f x nb v s = .ok (s.setReg f x (narrowed s.cfg.narrowWrite nb w v)) := by
  obtain ⟨old, hold, hsame⟩ := readOld_of_some h nb
  rw [regWriteN_of_readOld hold, hsame]

end

/-- What a register of either file does as a location (40_components.md R126, R127). -/
theorem register_read_and_write (f : RegFile) (x : RegNum) (nb : Nat) (v : BitVec (8 * nb))
    (s : State) :
    (∀ w s1, readReg f x s = .ok (w, s1) → readRegN f x nb s = .ok (w.setWidth (8 * nb), s1)) ∧
    (∀ old s1, readOld f x nb s = .ok (old, s1) →
      regWriteN f x nb v s = .ok (s1.setReg f x (narrowed s.cfg.narrowWrite nb old v))) ∧
    ∀ w, s.regAt f x = some w → readRegN f x nb s = .ok (w.setWidth (8 * nb), s) ∧
      regWriteN f x nb v s = .ok (s.setReg f x (narrowed s.cfg.narrowWrite nb w v)) :=
  ⟨fun _ _ h => readRegN_of h nb, fun _ _ h => regWriteN_of_readOld h v,
    fun _ hw => ⟨readRegN_of (readReg_of_some hw) nb, regWriteN_of_some hw v⟩⟩

/-- Settles O22: the location is read and written as its register. -/
theorem dataRegisterForm : Obligations.DataRegisterForm :=
  fun x nb v s => ⟨rfl, rfl, register_read_and_write .d x nb v s⟩

theorem operand_areg_of_some {x : RegNum} {s : State} {w : Word} (h : s.regAt .a x = some w)
    (nb : Nat) : operand (.areg x) nb s = .ok (.areg x, w.setWidth (8 * nb), s) := by
  simp [operand, evalEA, readLoc, readRegN_of (readReg_of_some h)]

/-- The result in an address register that has been written, then its flags. -/
theorem writeBack_areg_of_some {x : RegNum} {s : State} {w : Word} (h : s.regAt .a x = some w)
    {nb : Nat} (r : Computed (8 * nb)) :
    writeBack (.areg x) nb r s =
      .ok ((s.setReg .a x (narrowed s.cfg.narrowWrite nb w r.1)).setFlags r.2) := by
  simp [writeBack, writeLoc, regWriteN_of_some h, setFlagsUnlessSR]

/-- Settles O23: as the data register form; the example is one operand read and one result written
back. -/
theorem addressRegisterForm : Obligations.AddressRegisterForm := by
  refine ⟨fun x nb v s => ⟨rfl, rfl, register_read_and_write .a x nb v s⟩, fun s w hw => ?_⟩
  have hsum : (addFlags (w.setWidth 8) (quickAmount 0 8) false).1 = w.setWidth 8 + 1 := by
    simp [addFlags_fst, quickAmount]
  refine ⟨(addFlags (w.setWidth 8) (quickAmount 0 8) false).2, finish_eq_next.2 ?_⟩
  rw [← hsum, modifyEA_of_operand (by simp) (operand_areg_of_some hw _)]
  exact writeBack_areg_of_some hw _

/-! ### Memory forms -/

/-- Settles O24: a read of a register changes no register. -/
theorem deferredForm : Obligations.DeferredForm := by
  intro x nb a s s1 h
  obtain ⟨n, -, hs1⟩ := readReg_ok h
  exact ⟨by simp [evalEA, h], by rw [hs1, withReads_regAt], rfl, fun _ => rfl⟩

/-- Settles O25: the register is read once or twice (`readReg_again`) and then set. -/
theorem steppingForms : Obligations.SteppingForms := by
  intro x nb s step
  have hstep : stepAmount s.cfg x nb = step := rfl
  refine ⟨fun a ha => ⟨?_, ?_⟩, fun a s1 h => ⟨?_, ?_⟩⟩
  · simp [evalEA, readReg_of_some ha, hstep]
  · simp [evalEA, readReg_of_some ha, hstep]
  · simp [evalEA, h, hstep]
  · obtain ⟨b, s2, hb⟩ := readReg_again h
    exact ⟨b, s2, hb, by simp [evalEA, h, hb, hstep]⟩

/-- The base of an IP-relative form, once the displacement at IP is fetched. -/
theorem ipBase_setIp {s t : State} (hc : t.cfg = s.cfg) (size : Word) :
    ipBase (t.setIp (s.ip + size)) size =
      if s.cfg.ipRelBase = .afterDisp then s.ip + size else s.ip := by
  unfold ipBase
  rw [setIp_cfg, hc]
  cases s.cfg.ipRelBase <;> simp

theorem memReadAligned_cfg {kind : Access} {align nb : Nat} {a : Word} {s t : State}
    {v : BitVec (8 * nb)} (h : memReadAligned kind align nb a s = .ok (v, t)) : t.cfg = s.cfg :=
  (KeepsParameters.of_withReads (memReadAligned_ok h).2).cfg

/-- Settles O26: the displacement is one fetch (`fetch_of_read`), which changes no parameter. -/
theorem displacementForms : Obligations.DisplacementForms := by
  intro nb s s1
  refine ⟨fun d h => ?short, fun d h => ?long⟩
  case short =>
    have hfetch : fetchExt16 s = .ok (d, s1.setIp (s.ip + 2)) := fetch_of_read h
    have hcfg := memReadAligned_cfg h
    refine ⟨?_, fun x a s0 hx => ?_⟩
    · simp only [evalEA, hfetch, run_ok_bind, run_pure, ipBase_setIp hcfg, dispWord, setIp_cfg, hcfg]
    · simp only [evalEA, hx, hfetch, run_ok_bind, run_pure, dispWord, setIp_cfg, hcfg]
  case long =>
    have hfetch : fetchExt32 s = .ok (d, s1.setIp (s.ip + 4)) := fetch_of_read h
    refine ⟨?_, fun x a s0 hx => ?_⟩
    · simp only [evalEA, hfetch, run_ok_bind, run_pure, ipBase_setIp (memReadAligned_cfg h)]
    · simp only [evalEA, hx, hfetch, run_ok_bind, run_pure]

/-! ### Exactly when an operand can be read -/

/-- The `k` bytes of extension words at IP can be fetched, or there are none (30_encoding.md R84 to
R86). -/
def ExtensionReadable (k : Nat) (s : State) : Prop :=
  k = 0 ∨ Accessible s (min 2 k) k s.ip ∧ Written s k s.ip

/-- An operation followed by one that always answers answers exactly when it does by itself. -/
theorem bind_answers_iff {α β : Type} {x : Run α} {f : α → Run β} (hf : ∀ a, ∃ b, f a = .ok b) :
    (∃ b, (x >>= f) = .ok b) ↔ ∃ a, x = .ok a := by
  cases x with
  | error e => simp
  | ok a => simpa using hf a

section
variable {s : State} (hc : s.cfg.unwrittenRead = .fault)
include hc

/-- A fetch of `nb` bytes, aligned to their size or to 2, answers exactly when they can be read. -/
theorem fetch_answers_iff {nb : Nat} (hnb : 0 < nb) :
    (∃ r, fetch (min 2 nb) nb s = .ok r) ↔ ExtensionReadable nb s := by
  rw [fetch, bind_answers_iff (by exact fun _ => ⟨_, rfl⟩), memReadAligned_ok_iff hc,
    ExtensionReadable, or_iff_right hnb.ne']

/-- An operation that fetches `nb` bytes and then always answers. -/
theorem fetch_bind_answers_iff {β : Type} {nb : Nat} (hnb : 0 < nb)
    {f : BitVec (8 * nb) × State → Run β} (hf : ∀ p, ∃ r, f p = .ok r) :
    (∃ r, (fetch (min 2 nb) nb s >>= f) = .ok r) ↔ ExtensionReadable nb s :=
  (bind_answers_iff hf).trans (fetch_answers_iff hc hnb)

/-- An immediate is one fetch, of its length in the stream (30_encoding.md R86). -/
theorem fetchImm_answers_iff {nb : Nat} (hnb : OperandSize nb) :
    (∃ r, fetchImm nb s = .ok r) ↔ ExtensionReadable (immLength s.cfg nb) s := by
  obtain rfl | rfl | rfl := hnb
  · cases hb : s.cfg.byteImm with
    | oneByte =>
      simp only [fetchImm, immLength, hb, if_true]
      exact fetch_bind_answers_iff hc (nb := 1) (by omega) fun _ => ⟨_, rfl⟩
    | halfword =>
      simp only [fetchImm, immLength, hb, if_true]
      exact fetch_bind_answers_iff hc (nb := 2) (by omega) fun _ => ⟨_, rfl⟩
  · exact fetch_bind_answers_iff hc (nb := 2) (by omega) fun _ => ⟨_, rfl⟩
  · exact fetch_bind_answers_iff hc (nb := 4) (by omega) fun _ => ⟨_, rfl⟩

/-- Once its base register has been written, an effective address evaluates exactly when its extension
words can be fetched: every form fetches at most once. -/
theorem evalEA_answers_iff_of_base {ea : EA} {nb : Nat} (hnb : OperandSize nb)
    (hbase : ∀ x ∈ ea.base, s.regAt .a x ≠ none) :
    (∃ r, evalEA ea nb s = .ok r) ↔ ExtensionReadable (extLen s.cfg nb ea) s := by
  have hread (x : RegNum) (hx : x ∈ ea.base) : ∃ a, readReg .a x s = .ok (a, s) := by
    obtain ⟨a, ha⟩ := Option.ne_none_iff_exists'.1 (hbase x hx)
    exact ⟨a, readReg_of_some ha⟩
  cases ea with
  | dreg x | areg x | sr => exact iff_of_true ⟨_, rfl⟩ (.inl rfl)
  | postInc x | preDec x | deferred x =>
    obtain ⟨a, ha⟩ := hread x List.mem_cons_self
    exact iff_of_true ⟨_, by simp only [evalEA, ha, run_ok_bind]; rfl⟩ (.inl rfl)
  | base16 x =>
    obtain ⟨a, ha⟩ := hread x List.mem_cons_self
    rw [evalEA, ha, run_ok_bind]
    exact fetch_bind_answers_iff hc (nb := 2) (by omega) fun _ => ⟨_, rfl⟩
  | base32 x =>
    obtain ⟨a, ha⟩ := hread x List.mem_cons_self
    rw [evalEA, ha, run_ok_bind]
    exact fetch_bind_answers_iff hc (nb := 4) (by omega) fun _ => ⟨_, rfl⟩
  | imm =>
    rw [evalEA, bind_answers_iff (by exact fun _ => ⟨_, rfl⟩)]
    exact fetchImm_answers_iff hc hnb
  | ip16 => exact fetch_bind_answers_iff hc (nb := 2) (by omega) fun _ => ⟨_, rfl⟩
  | ip32 => exact fetch_bind_answers_iff hc (nb := 4) (by omega) fun _ => ⟨_, rfl⟩

/-- An effective address evaluates exactly when its base register has been written and its extension
words can be fetched (60_exceptions.md R269 step 4). -/
theorem evalEA_answers_iff {ea : EA} {nb : Nat} (hnb : OperandSize nb) :
    (∃ r, evalEA ea nb s = .ok r) ↔
      (∀ x ∈ ea.base, s.regAt .a x ≠ none) ∧ ExtensionReadable (extLen s.cfg nb ea) s := by
  by_cases hbase : ∀ x ∈ ea.base, s.regAt .a x ≠ none
  · rw [evalEA_answers_iff_of_base hc hnb hbase, and_iff_right hbase]
  · refine iff_of_false ?_ fun h => hbase h.1
    obtain ⟨x, hx, hnone⟩ : ∃ x ∈ ea.base, s.regAt .a x = none := by simpa using hbase
    rw [evalEA_unwritten hc hx hnone]
    simp

theorem readRegN_answers_iff (f : RegFile) (i : RegNum) (nb : Nat) :
    (∃ r, readRegN f i nb s = .ok r) ↔ s.regAt f i ≠ none := by
  rw [readRegN, bind_answers_iff (by exact fun _ => ⟨_, rfl⟩), readReg_ok_iff hc]

theorem readSr_answers_iff : (∃ r, readSr s = .ok r) ↔ ∀ x, s.flagAt x ≠ none := by
  rw [readSr, bind_answers_iff (by exact fun _ => ⟨_, rfl⟩), readFlags_ok_iff hc]
  exact ⟨fun h x => h x (by cases x <;> simp), fun h x _ => h x⟩

end

/-- Settles O28: `evalEA_answers_iff`, and each kind of location by the read it makes. -/
theorem operandReadableExactlyWhen : Obligations.OperandReadableExactlyWhen := by
  intro ea nb s hnb hc
  refine ⟨evalEA_answers_iff hc hnb, fun loc => ?_⟩
  cases loc with
  | dreg i => exact readRegN_answers_iff hc .d i nb
  | areg i => exact readRegN_answers_iff hc .a i nb
  | mem a => exact memReadAligned_ok_iff hc
  | imm v => exact iff_of_true ⟨_, rfl⟩ trivial
  | sr =>
    rw [readLoc, bind_answers_iff (by exact fun _ => ⟨_, rfl⟩)]
    exact readSr_answers_iff hc

/-- Settles O29: `operand_ok`, field by field. -/
theorem operandReadFrame : Obligations.OperandReadFrame := by
  intro ea nb s t loc v h
  obtain ⟨-, hframe, -⟩ := operand_ok h
  exact ⟨hframe.ip, hframe.data, hframe.address, hframe.byteAt, hframe.flags, hframe.cfg,
    hframe.reads⟩

end Sys2Proof.Machine
end

section
/-! PROOF. The unconditional codes of Bcc and Jcc with their push (40_components.md R143,
49_flow_control.md R250, R251, 20_memory.md R63), and which instructions leave the flags
(40_components.md R150). -/

namespace Sys2Proof.Machine

/-! ### The push of a call -/

/-- `Pushed` leaves IP open. -/
theorem Pushed.setIp {v sp : Word} {s t : State} (h : Pushed v sp s t) (a : Word) :
    Pushed v sp s (t.setIp a) := by
  obtain ⟨hsp, hread, hrest⟩ := h
  have hmoved := memReadAligned_congr (s := t) (s' := t.setIp a) rfl rfl rfl hread
  exact ⟨hsp, hmoved, hrest⟩

/-- A push completes wherever SP can be read and the word below it written (20_memory.md R63). -/
theorem push32_pushed {sp : Word} {s s1 : State} (hsp : readSp s = .ok (sp, s1))
    (hacc : Accessible s1 4 4 (sp - 4)) (v : Word) :
    ∃ t, push32 v s = .ok t ∧ Pushed v sp s1 t := by
  obtain ⟨t, ht⟩ : ∃ t, memWrite 4 (sp - 4) v (s1.setSp (sp - 4)) = .ok t :=
    ⟨_, memWrite_ok_iff.2 ⟨by simpa only [Accessible, setSp_cfg] using hacc, rfl⟩⟩
  have hread : memRead 4 (sp - 4) t = .ok (v, t) :=
    memReadAligned_after_write ht (by norm_num) (by simpa using hacc.1)
  have hbytes (b : Word) (hb : ∀ k, k < 4 → b ≠ byteAddr (sp - 4) k) : t.byteAt b = s1.byteAt b := by
    rw [memWrite_byteAt_of_ne ht b hb, setSp_byteAt]
  obtain ⟨m, hm⟩ : ∃ m, t = (s1.setSp (sp - 4)).setMem m := ⟨_, (memWrite_ok_iff.1 ht).2⟩
  refine ⟨t, run_bind_of_ok hsp ht, ?sp, hread, fun i => ?data, fun i hi => ?address, hbytes,
    fun x => ?flags, ?cfg, ?reads⟩
  case data => simp [hm, setSp_eq, regAt_setReg]
  case address => simp [hm, setSp_eq, regAt_setReg, hi]
  all_goals simp [hm]

/-- Code 0111 goes to its target with IP pushed (40_components.md R143). -/
theorem transfer_call {sp : Word} {s s1 : State} (hsp : readSp s = .ok (sp, s1))
    (hacc : Accessible s1 4 4 (sp - 4)) (target : Word) :
    ∃ t, transfer 0b0111#4 target s = .ok t ∧ t.ip = target ∧ Pushed s.ip sp s1 t := by
  obtain ⟨u, hpush, hpushed⟩ := push32_pushed hsp hacc s.ip
  exact ⟨u.setIp target, transfer_ok_iff.2 ⟨u, hpush, rfl⟩, rfl, hpushed.setIp target⟩

/-! ### The unconditional codes -/

/-- Bcc is its transfer where its condition reads true. -/
theorem exec_bcc_of_transfer {cccc : CondCode} {q : BitVec 8} {s s1 t : State}
    (hc : readCond cccc s = .ok (true, s1))
    (ht : transfer cccc (s1.ip + q.signExtend 32) s1 = .ok t) : exec (.bcc cccc q) s = .next t :=
  finish_eq_next.2 (run_bind_of_ok hc ht)

/-- Jcc is its transfer where its condition reads true and its operand can be read. -/
theorem exec_jcc_of_transfer {cccc : CondCode} {ss : Scale} {ea : EA} {s s1 s2 t : State} {loc : Loc}
    {v : BitVec (8 * bytes ss)} (hc : readCond cccc s = .ok (true, s1))
    (ho : operand ea (bytes ss) s1 = .ok (loc, v, s2))
    (ht : transfer cccc (jumpTarget s2.cfg ss ea s2.ip v) s2 = .ok t) :
    exec (.jcc cccc ss ea) s = .next t :=
  finish_eq_next.2 (run_bind_of_ok hc (run_bind_of_ok ho ht))

/-- The operand of Jcc is an address or an offset (49_flow_control.md R251). -/
theorem jumpTarget_cases (c : Config) (ss : Scale) (ea : EA) (next : Word)
    (v : BitVec (8 * bytes ss)) :
    jumpTarget c ss ea next v = v.setWidth 32 ∨ jumpTarget c ss ea next v = next + v.signExtend 32 := by
  unfold jumpTarget
  split
  · exact .inl rfl
  · exact .inr rfl

/-- Settles O51: the unconditional codes read no flag, so the instruction is its transfer, which for
code 0111 is `transfer_call`. -/
theorem specialConditionCodes : Obligations.SpecialConditionCodes := by
  intro s
  obtain ⟨halways, hcall⟩ := readCond_always s
  refine ⟨fun q => ⟨exec_bcc_of_transfer halways rfl, fun sp s1 hsp hacc => ?branch⟩,
    fun ss ea s1 loc v ho => ⟨(operand_ok ho).2.1.ip, _, jumpTarget_cases s1.cfg ss ea s1.ip v,
      exec_jcc_of_transfer halways ho rfl, fun sp s2 hsp hacc => ?jump⟩⟩
  case branch =>
    obtain ⟨t, ht, hend⟩ := transfer_call hsp hacc (s.ip + q.signExtend 32)
    exact ⟨t, exec_bcc_of_transfer hcall ht, hend⟩
  case jump =>
    obtain ⟨t, ht, hend⟩ := transfer_call hsp hacc (jumpTarget s1.cfg ss ea s1.ip v)
    exact ⟨t, exec_jcc_of_transfer hcall ho ht, hend⟩

/-! ### Operations that leave the flags -/

section
variable {s t : State} (x : FlagName)

theorem flagAt_of_withReads (h : ∃ n, Draws s n ∧ t = s.withReads n) : t.flagAt x = s.flagAt x := by
  obtain ⟨n, -, rfl⟩ := h
  rfl

theorem flagAt_of_stream {a : Word} (h : ∃ n, Draws s n ∧ t = (s.withReads n).setIp a) :
    t.flagAt x = s.flagAt x := by
  obtain ⟨n, -, rfl⟩ := h
  rfl

theorem readRegN_flagAt {f : RegFile} {i : RegNum} {nb : Nat} {v : BitVec (8 * nb)}
    (h : readRegN f i nb s = .ok (v, t)) : t.flagAt x = s.flagAt x := by
  obtain ⟨w, hw, -⟩ := readRegN_ok h
  exact flagAt_of_withReads x (readReg_ok hw)

theorem regWriteN_flagAt {f : RegFile} {i : RegNum} {nb : Nat} {v : BitVec (8 * nb)}
    (h : regWriteN f i nb v s = .ok t) : t.flagAt x = s.flagAt x := by
  obtain ⟨old, u, ho, rfl⟩ := regWriteN_ok_iff.1 h
  rw [setReg_flagAt, flagAt_of_withReads x (readOld_ok ho)]

/-- Writing a location leaves the flags, unless it is SR (40_components.md R138). -/
theorem writeLoc_flagAt {loc : Loc} {nb : Nat} {v : BitVec (8 * nb)}
    (h : writeLoc loc nb v s = .ok t) (hloc : loc ≠ .sr) : t.flagAt x = s.flagAt x := by
  cases loc with
  | dreg i => exact regWriteN_flagAt x h
  | areg i => exact regWriteN_flagAt x h
  | mem a =>
    obtain ⟨-, rfl⟩ := memWrite_ok_iff.1 h
    rfl
  | imm c => cases h; rfl
  | sr => exact absurd rfl hloc

theorem push32_flagAt {v : Word} (h : push32 v s = .ok t) : t.flagAt x = s.flagAt x := by
  obtain ⟨sp, s1, h1, -, rfl⟩ := push32_ok_iff.1 h
  rw [setMem_flagAt, setSp_flagAt, flagAt_of_withReads x (readSp_ok h1)]

theorem pop32_flagAt {v : Word} (h : pop32 s = .ok (v, t)) : t.flagAt x = s.flagAt x := by
  obtain ⟨n, sp, -, rfl⟩ := pop32_ok h
  rw [setSp_flagAt, withReads_flagAt]

theorem transfer_flagAt {cccc : CondCode} {target : Word} (h : transfer cccc target s = .ok t) :
    t.flagAt x = s.flagAt x := by
  rw [transfer_ok_iff] at h
  split at h
  · obtain ⟨s1, h1, rfl⟩ := h
    rw [setIp_flagAt, push32_flagAt x h1]
  · rw [h, setIp_flagAt]

end

/-! ### Instructions that leave the flags -/

/-- A form other than SR gives no SR. -/
theorem EA.gives_ne_sr {ea : EA} {loc : Loc} (h : EA.gives ea loc) (hea : ea ≠ .sr) : loc ≠ .sr := by
  rintro rfl
  exact hea (EA.gives_sr h)

theorem writtenEA_ne_sr {i : Instr} {ea : EA} (hw : i.writtenEA = some ea)
    (h : i.writesFlags = false) : ea ≠ .sr := by
  rintro rfl
  simp [Instr.writesFlags, hw] at h

section
variable {s t : State} {ss : Scale} {ea : EA} {y : RegNum} {cccc : CondCode} (x : FlagName)

theorem execUnlnk_flagAt (h : execUnlnk s = .next t) : t.flagAt x = s.flagAt x := by
  simp only [execUnlnk, finish_eq_next, run_bind_ok, run_pure, Except.ok.injEq, Prod.exists] at h
  obtain ⟨bp, s1, hbp, v, s2, hpop, rfl⟩ := h
  rw [setBp_flagAt, pop32_flagAt x hpop, setSp_flagAt, flagAt_of_withReads x (readBp_ok hbp)]

theorem execRfs_flagAt (h : execRfs ss s = .next t) : t.flagAt x = s.flagAt x := by
  simp only [execRfs, finish_eq_next, run_bind_ok, run_pure, Except.ok.injEq, Prod.exists] at h
  obtain ⟨imm, s1, himm, v, s2, hpop, rfl⟩ := h
  rw [setSp_flagAt, setIp_flagAt, pop32_flagAt x hpop, flagAt_of_stream x (fetchFrameImm_ok himm)]

theorem execLnk_flagAt (h : execLnk ss s = .next t) : t.flagAt x = s.flagAt x := by
  simp only [execLnk, finish_eq_next, run_bind_ok, run_pure, Except.ok.injEq, Prod.exists] at h
  obtain ⟨imm, s1, himm, bp, s2, hbp, s3, hpush, rfl⟩ := h
  rw [setSp_flagAt, setBp_flagAt, push32_flagAt x hpush, flagAt_of_withReads x (readBp_ok hbp),
    flagAt_of_stream x (fetchFrameImm_ok himm)]

theorem execSti_flagAt (h : execSti ss ea s = .next t) (hea : ea ≠ .sr) :
    t.flagAt x = s.flagAt x := by
  simp only [execSti, finish_eq_next, run_bind_ok, Prod.exists] at h
  obtain ⟨-, -, loc, imm, s1, he, hw⟩ := h
  obtain ⟨hgives, hframe⟩ := evalEAImm_ok he
  rw [writeLoc_flagAt x hw (EA.gives_ne_sr hgives hea), hframe.flags]

theorem execClr_flagAt (h : execClr ss ea s = .next t) (hea : ea ≠ .sr) :
    t.flagAt x = s.flagAt x := by
  simp only [execClr, finish_eq_next, run_bind_ok, Prod.exists] at h
  obtain ⟨-, -, loc, s1, he, hw⟩ := h
  obtain ⟨hgives, hframe⟩ := evalEA_ok he
  rw [writeLoc_flagAt x hw (EA.gives_ne_sr hgives hea), hframe.flags]

theorem execSt_flagAt (h : execSt y ss ea s = .next t) (hea : ea ≠ .sr) :
    t.flagAt x = s.flagAt x := by
  simp only [execSt, finish_eq_next, run_bind_ok, Prod.exists] at h
  obtain ⟨-, -, loc, s1, he, v, s2, hr, hw⟩ := h
  obtain ⟨hgives, hframe⟩ := evalEA_ok he
  rw [writeLoc_flagAt x hw (EA.gives_ne_sr hgives hea), readRegN_flagAt x hr, hframe.flags]

theorem execLd_flagAt (h : execLd y ss ea s = .next t) : t.flagAt x = s.flagAt x := by
  simp only [execLd, finish_eq_next, run_bind_ok, Prod.exists] at h
  obtain ⟨loc, v, s1, ho, hw⟩ := h
  rw [regWriteN_flagAt x hw, (operand_ok ho).2.1.flags]

theorem execBcc_flagAt {q : BitVec 8} (h : execBcc cccc q s = .next t) :
    t.flagAt x = s.flagAt x := by
  simp only [execBcc, finish_eq_next, run_bind_ok, Prod.exists] at h
  obtain ⟨taken, s1, hc, h⟩ := h
  rw [← flagAt_of_withReads x (readCond_ok hc)]
  split at h
  · exact transfer_flagAt x h
  · cases h
    rfl

theorem execJcc_flagAt (h : execJcc cccc ss ea s = .next t) : t.flagAt x = s.flagAt x := by
  simp only [execJcc, finish_eq_next, run_bind_ok, Prod.exists] at h
  obtain ⟨taken, s1, hc, h⟩ := h
  rw [← flagAt_of_withReads x (readCond_ok hc)]
  split at h
  · obtain ⟨⟨loc, v, s2⟩, ho, ht⟩ := run_bind_ok.1 h
    rw [transfer_flagAt x ht, (operand_ok ho).2.1.flags]
  · cases h
    exact setIp_flagAt ..

end

/-- An instruction of an "unchanged" row of R150 whose destination is not SR leaves each flag. -/
theorem exec_flagAt {i : Instr} {s t : State} (h : exec i s = .next t) (hi : i.writesFlags = false)
    (x : FlagName) : t.flagAt x = s.flagAt x := by
  cases i with
  | nop => cases h; rfl
  | rfi => cases h
  | unlnk => exact execUnlnk_flagAt x h
  | rfs ss => exact execRfs_flagAt x h
  | lnk ss => exact execLnk_flagAt x h
  | sti ss ea => exact execSti_flagAt x h (writtenEA_ne_sr rfl hi)
  | clr ss ea => exact execClr_flagAt x h (writtenEA_ne_sr rfl hi)
  | ldq y q => cases h; exact setReg_flagAt ..
  | ld y ss ea => exact execLd_flagAt x h
  | st y ss ea => exact execSt_flagAt x h (writtenEA_ne_sr rfl hi)
  | bcc cccc q => exact execBcc_flagAt x h
  | jcc cccc ss ea => exact execJcc_flagAt x h
  | _ => cases hi

/-- Settles O57: `exec_flagAt`. -/
theorem flagFrame : Obligations.FlagFrame :=
  fun _ _ _ h hi => exec_flagAt h hi

end Sys2Proof.Machine
end

section
/-! PROOF. NOP and LDQ, the frame instructions LNK, UNLNK and RFS (41_miscellaneous.md R160 to R165,
46_quick_arith.md R210, 20_memory.md R63). A push leaves the bytes of its word below the old SP; LNK is an
immediate, a read of BP, a push and two register updates (`execLnk_ok_iff`); UNLNK and RFS are a pop where
SP is known (`pop32_of_some`). -/

namespace Sys2Proof.Machine

/-- Settles O35: neither instruction reads anything, so each is its update of the state. -/
theorem nopAndLoadQuick : Obligations.NopAndLoadQuick :=
  fun _ => ⟨rfl, fun _ _ => rfl⟩

/-! ### The immediate of a frame instruction -/

/-- An immediate at 32 bits by `LNK_IMM_EXTEND` (41_miscellaneous.md R163, R164). -/
def frameWord (c : Config) {n : Nat} (v : BitVec n) : Word :=
  match c.frameImm with
  | .zeroExtend => v.setWidth 32
  | .signExtend => v.signExtend 32

/-- The immediate of LNK and RFS is the instruction's own immediate, widened. -/
theorem fetchFrameImm_of_fetchImm {ss : Scale} {s s1 : State} {v : BitVec (8 * bytes ss)}
    (h : fetchImm (bytes ss) s = .ok (v, s1)) :
    fetchFrameImm ss s = .ok (frameWord s.cfg v, s1) := by
  have hcfg : s1.cfg = s.cfg := (KeepsParameters.of_stream (fetchImm_ok h)).cfg
  refine run_bind_of_ok h ?_
  simp only [frameWord, hcfg]
  cases s.cfg.frameImm <;> rfl

/-! ### The word on the stack -/

/-- A push stores its word below the SP it reads. -/
theorem memWrite_of_push32 {v sp : Word} {s s1 t : State} (h : push32 v s = .ok t)
    (hsp : readSp s = .ok (sp, s1)) : memWrite 4 (sp - 4) v (s1.setSp (sp - 4)) = .ok t := by
  rw [push32, hsp] at h
  exact h

/-- A push changes SP and memory. -/
theorem push32_eq {v sp : Word} {s s1 t : State} (h : push32 v s = .ok t)
    (hsp : readSp s = .ok (sp, s1)) : ∃ m, t = (s1.setSp (sp - 4)).setMem m :=
  ⟨_, (memWrite_ok_iff.1 (memWrite_of_push32 h hsp)).2⟩

/-- The word that a push stored is read from every state that agrees on its bytes and on the
parameters. -/
theorem memRead_of_push32 {v sp : Word} {s s1 t u : State} (h : push32 v s = .ok t)
    (hsp : readSp s = .ok (sp, s1)) (hcfg : u.cfg = t.cfg)
    (hbytes : ∀ k, k < 4 → u.byteAt (byteAddr (sp - 4) k) = t.byteAt (byteAddr (sp - 4) k)) :
    memRead 4 (sp - 4) u = .ok (v, u) := by
  have hwrite := memWrite_of_push32 h hsp
  have hkeeps : u.cfg = (s1.setSp (sp - 4)).cfg := hcfg.trans (memWrite_keepsParameters hwrite).cfg
  have hacc : Accessible u 4 4 (sp - 4) := by
    simpa only [Accessible, hkeeps] using (memWrite_ok_iff.1 hwrite).1
  have hholds : HoldsValue u 4 (sp - 4) v := by
    intro k hk
    rw [hbytes k hk, hcfg]
    exact holdsValue_after_write hwrite (by norm_num) k hk
  exact memReadAligned_of_holdsValue hacc hholds

/-- A pop where SP has just been set, whatever SP was before. -/
theorem pop32_setSp {v a : Word} {s t : State} (h : memRead 4 a s = .ok (v, t)) :
    pop32 (s.setSp a) = .ok (v, t.setSp (a + 4)) := by
  obtain ⟨-, n, -, rfl⟩ := memReadAligned_ok h
  have hread : memRead 4 a (s.setSp a) = .ok (v, (s.withReads n).setSp a) :=
    memReadAligned_congr (setSp_cfg ..) (setSp_mem ..) (setSp_freeReads ..) h
  rw [pop32_of_some (by simp) hread, setSp_setSp]

/-! ### UNLNK and RFS -/

/-- UNLNK pops from where BP points (41_miscellaneous.md R162). -/
theorem exec_unlnk_of_read {s s1 s2 : State} {bp v : Word} (hbp : readBp s = .ok (bp, s1))
    (hread : memRead 4 bp s1 = .ok (v, s2)) :
    exec .unlnk s = .next ((s2.setSp (bp + 4)).setBp v) :=
  finish_eq_next.2 (run_bind_of_ok hbp (run_bind_of_ok (pop32_setSp hread) rfl))

/-- RFS pops IP and drops as many bytes as its immediate says (41_miscellaneous.md R163). -/
theorem exec_rfs_of_read {ss : Scale} {s s1 s2 : State} {imm sp w : Word}
    (himm : fetchFrameImm ss s = .ok (imm, s1)) (hsp : s1.regAt .a s1.cfg.spIndex = some sp)
    (hread : memRead 4 sp s1 = .ok (w, s2)) :
    exec (.rfs ss) s = .next ((s2.setIp w).setSp (sp + 4 + imm)) := by
  have hend : ((s2.setSp (sp + 4)).setIp w).setSp (((s2.setSp (sp + 4)).setIp w).sp + imm) =
      (s2.setIp w).setSp (sp + 4 + imm) := by
    rw [setIp_sp, setSp_sp]
    exact setSp_setSp (s2.setIp w) (sp + 4) _
  rw [← hend]
  exact finish_eq_next.2 (run_bind_of_ok himm (run_bind_of_ok (pop32_of_some hsp hread) rfl))

/-- Settles O53: each instruction is its pop (`exec_unlnk_of_read`, `exec_rfs_of_read`). -/
theorem unlinkAndReturnResults : Obligations.UnlinkAndReturnResults := by
  refine ⟨fun s s1 s2 bp v => exec_unlnk_of_read, fun ss s s1 s2 v sp w hv hsp hread => ?rfs⟩
  case rfs =>
    have hcfg : s1.cfg = s.cfg := (KeepsParameters.of_stream (fetchImm_ok hv)).cfg
    exact exec_rfs_of_read (fetchFrameImm_of_fetchImm hv) (hcfg ▸ hsp) hread

/-! ### LNK -/

/-- Writing SP to BP leaves SP, be they one register or two. -/
theorem setBp_sp_of_sp (s : State) : (s.setBp s.sp).sp = s.sp := by
  simp [State.sp, State.setBp, getReg_setReg]

/-- LNK: its immediate, BP read and pushed, then BP and SP set (41_miscellaneous.md R164). -/
theorem execLnk_ok_iff {ss : Scale} {s t : State} :
    exec (.lnk ss) s = .next t ↔ ∃ imm s1 bp s2 s3, fetchFrameImm ss s = .ok (imm, s1) ∧
      readBp s1 = .ok (bp, s2) ∧ push32 bp s2 = .ok s3 ∧
      t = (s3.setBp s3.sp).setSp (s3.sp - imm) := by
  have hexec : exec (.lnk ss) s = execLnk ss s := rfl
  simp only [hexec, execLnk, finish_eq_next, run_bind_ok, run_pure, Except.ok.injEq, Prod.exists,
    setBp_sp_of_sp]
  constructor
  · rintro ⟨imm, s1, himm, bp, s2, hbp, s3, hpush, rfl⟩
    exact ⟨imm, s1, bp, s2, s3, himm, hbp, hpush, rfl⟩
  · rintro ⟨imm, s1, bp, s2, s3, himm, hbp, hpush, rfl⟩
    exact ⟨imm, s1, himm, bp, s2, hbp, s3, hpush, rfl⟩

/-- The address registers after BP and then SP are set. -/
theorem regAt_setBp_setSp (s : State) (b p : Word) (i : RegNum) :
    ((s.setBp b).setSp p).regAt .a i =
      if i = s.cfg.spIndex then some p else if i = s.cfg.bpIndex then some b else s.regAt .a i := by
  simp [setSp_eq, setBp_eq, regAt_setReg]

/-- Settles O52: the state the push leaves is that of `push32_eq`, its word is read back as
`memRead_of_push32` says, and setting BP and SP moves no byte. -/
theorem linkResult : Obligations.LinkResult := by
  intro ss s s1 s2 s3 v bp sp hv hbp hsp hacc hne imm
  have himm : fetchFrameImm ss s = .ok (imm, s1) := fetchFrameImm_of_fetchImm hv
  obtain ⟨n, hs3⟩ : ∃ n, s3 = (s.withReads n).setIp s1.ip := by
    obtain ⟨n1, -, rfl⟩ := fetchImm_ok hv
    obtain ⟨n2, -, rfl⟩ := readBp_ok hbp
    obtain ⟨n3, -, rfl⟩ := readSp_ok hsp
    exact ⟨n3, rfl⟩
  have hcfg : s3.cfg = s.cfg := by rw [hs3]; rfl
  obtain ⟨p, hpush, -, -, -, -, hbytes, -⟩ :=
    push32_pushed hsp (by simpa only [Accessible, hcfg] using hacc) bp
  obtain ⟨m, hp⟩ := push32_eq hpush hsp
  have ht : exec (.lnk ss) s = .next ((p.setBp p.sp).setSp (p.sp - imm)) :=
    execLnk_ok_iff.2 ⟨imm, s1, bp, s2, p, himm, hbp, hpush, rfl⟩
  refine ⟨_, ht, ?bp, ?sp, memRead_of_push32 hpush hsp (by simp) (by simp), ?ip,
    exec_flagAt ht rfl, fun i => ?data, fun i hi hj => ?address, fun b hb => ?bytes⟩
  case bp => simp [regAt_setBp_setSp, hp, hcfg, hne.symm]
  case sp => simp [regAt_setBp_setSp, hp, hcfg]
  case ip => simp [hp, hs3]
  case data => simp [setSp_eq, setBp_eq, regAt_setReg, hp, hs3]
  case address => simp [setSp_eq, setBp_eq, regAt_setReg, hp, hs3, hi, hj]
  case bytes => simpa [hs3] using hbytes b hb

/-- Settles O54: BP of `u` points at the word that LNK pushed, which is the old BP
(`memRead_of_push32`), so UNLNK takes it from there. -/
theorem linkThenUnlinkRestores : Obligations.LinkThenUnlinkRestores := by
  intro ss s t u sp bp hne hsp hbp ht hubp hucfg hbytes
  obtain ⟨imm, s1, bp', s2, p, himm, hreadBp, hpush, rfl⟩ := execLnk_ok_iff.1 ht
  obtain ⟨n, -, rfl⟩ := fetchFrameImm_ok himm
  obtain ⟨rfl, rfl⟩ := readReg_some hreadBp (w := bp) (by simpa using hbp)
  have hreadSp := readReg_of_some (s := (s.withReads n).setIp
    (s.ip + BitVec.ofNat 32 (immLength s.cfg (bytes ss)))) (by simpa using hsp)
  have hpcfg : p.cfg = s.cfg := (push32_keepsParameters hpush).cfg
  have hpsp : p.sp = sp - 4 := by
    obtain ⟨m, hp⟩ := push32_eq hpush hreadSp
    rw [hp, setMem_sp, setSp_sp]
  have hucfg' : u.cfg = p.cfg := by simpa using hucfg
  have hubpAt : u.regAt .a u.cfg.bpIndex = some (sp - 4) := by
    rw [hucfg', hpcfg, hubp, regAt_setBp_setSp, hpcfg, if_neg hne.symm, if_pos rfl, hpsp]
  have hread : memRead 4 (sp - 4) u = .ok (bp', u) :=
    memRead_of_push32 hpush hreadSp hucfg' (by simpa using hbytes)
  refine ⟨_, exec_unlnk_of_read (readReg_of_some hubpAt) hread, ?sp, ?bp⟩
  case sp => simp [setSp_eq, setBp_eq, regAt_setReg, hucfg', hpcfg, hne]
  case bp => simp [setBp_eq, hucfg', hpcfg]

end Sys2Proof.Machine
end

section
/-! PROOF. The faults an instruction can end with, and RFI as the only refusal (60_exceptions.md R261 to
R267, R278). Every operation stops on the faults of an access or of a read alone, and so does every
instruction made of operations, but for an immediate destination, which no instruction word has, and the
zero divisor of a division. -/

namespace Sys2Proof.Machine

/-! ### Operations that stop on an access alone -/

/-- The faults of R262, R263 and R265: those of an access and of a read of what nothing has written. -/
def Fault.OfAccess : Fault → Prop
  | .misaligned .. => True
  | .accessFault .. => True
  | .unwrittenRead _ => True
  | .illegalInstruction _ => False
  | .divideByZero => False
  | .halted => False

/-- If the operation stops, it stops on the fault of an access or of a read. -/
structure FaultsOnAccess {α : Type} (r : Run α) : Prop where
  ofAccess : ∀ e, r = .error e → e.OfAccess

namespace FaultsOnAccess

theorem ok {α : Type} (a : α) : FaultsOnAccess (.ok a) := ⟨nofun⟩

theorem error {α : Type} {e : Fault} (h : e.OfAccess) : FaultsOnAccess (.error e : Run α) := by
  refine ⟨?_⟩
  rintro _ ⟨⟩
  exact h

/-- An operation followed by another stops on the fault of one of them. -/
theorem bind {α β : Type} {x : Run α} {f : α → Run β} (hx : FaultsOnAccess x)
    (hf : ∀ a, FaultsOnAccess (f a)) : FaultsOnAccess (x >>= f) := by
  cases x with
  | ok a => exact hf a
  | error e => exact error (hx.ofAccess e rfl)

theorem ite {α : Type} {p : Prop} [Decidable p] {x y : Run α} (hx : FaultsOnAccess x)
    (hy : FaultsOnAccess y) : FaultsOnAccess (if p then x else y) := by
  split
  · exact hx
  · exact hy

end FaultsOnAccess

section
variable (s : State)

/-! ### Registers and flags -/

theorem readUnwritten_faultsOnAccess {α : Type} (what : Unwritten) (free : Nat → α) :
    FaultsOnAccess (readUnwritten what free s) := by
  unfold readUnwritten
  split
  · exact .error trivial
  · exact .ok _

theorem readReg_faultsOnAccess (f : RegFile) (i : RegNum) : FaultsOnAccess (readReg f i s) := by
  unfold readReg
  split
  · exact .ok _
  · exact readUnwritten_faultsOnAccess ..

theorem readRegN_faultsOnAccess (f : RegFile) (i : RegNum) (nb : Nat) :
    FaultsOnAccess (readRegN f i nb s) := .bind (readReg_faultsOnAccess ..) fun _ => .ok _

theorem regWriteN_faultsOnAccess (f : RegFile) (i : RegNum) (nb : Nat) (v : BitVec (8 * nb)) :
    FaultsOnAccess (regWriteN f i nb v s) :=
  .bind (.ite (readReg_faultsOnAccess ..) (.ok _)) fun _ => .ok _

theorem readFlag_faultsOnAccess (x : FlagName) : FaultsOnAccess (readFlag x s) := by
  unfold readFlag
  split
  · exact .ok _
  · exact readUnwritten_faultsOnAccess ..

theorem readFlags_faultsOnAccess (xs : List FlagName) (f : Flags) :
    FaultsOnAccess (readFlags xs f s) := by
  induction xs generalizing f s with
  | nil => exact .ok _
  | cons x xs ih => exact .bind (readFlag_faultsOnAccess ..) fun _ => ih ..

theorem readCond_faultsOnAccess (cccc : CondCode) : FaultsOnAccess (readCond cccc s) :=
  .bind (readFlags_faultsOnAccess ..) fun _ => .ok _

/-! ### Memory, the instruction stream and the stack -/

theorem checkAlign_faultsOnAccess (kind : Access) (align nb : Nat) (a : Word) :
    FaultsOnAccess (checkAlign s kind align nb a) := .ite (.error trivial) (.ok _)

theorem checkMap_faultsOnAccess (kind : Access) (nb : Nat) (a : Word) :
    FaultsOnAccess (checkMap s kind nb a) := by
  refine ⟨fun e h => ?_⟩
  obtain ⟨k, -, rfl, -⟩ := checkMap_error h
  trivial

theorem readByte_faultsOnAccess (a : Word) : FaultsOnAccess (readByte s a) := by
  unfold readByte
  split
  · exact .ok _
  · exact readUnwritten_faultsOnAccess ..

theorem readBytes_faultsOnAccess (nb : Nat) (a : Word) : FaultsOnAccess (readBytes nb a s) := by
  induction nb generalizing a s with
  | zero => exact .ok _
  | succ nb ih =>
    unfold readBytes
    split
    next h => exact .error ((readByte_faultsOnAccess s a).ofAccess _ h)
    next =>
      split
      next h => exact .error ((ih ..).ofAccess _ h)
      next => exact .ok _

theorem memReadAligned_faultsOnAccess (kind : Access) (align nb : Nat) (a : Word) :
    FaultsOnAccess (memReadAligned kind align nb a s) :=
  .bind (checkAlign_faultsOnAccess ..) fun _ => .bind (checkMap_faultsOnAccess ..) fun _ =>
    .bind (readBytes_faultsOnAccess ..) fun _ => .ok _

theorem memWrite_faultsOnAccess (nb : Nat) (a : Word) (v : BitVec (8 * nb)) :
    FaultsOnAccess (memWrite nb a v s) :=
  .bind (checkAlign_faultsOnAccess ..) fun _ => .bind (checkMap_faultsOnAccess ..) fun _ => .ok _

theorem fetch_faultsOnAccess (align nb : Nat) : FaultsOnAccess (fetch align nb s) :=
  .bind (memReadAligned_faultsOnAccess ..) fun _ => .ok _

theorem fetchImm_faultsOnAccess (nb : Nat) : FaultsOnAccess (fetchImm nb s) := by
  refine .ite ?byte (.ite ?half ?word)
  case byte => split <;> exact .bind (fetch_faultsOnAccess ..) fun _ => .ok _
  case half => exact .bind (fetch_faultsOnAccess ..) fun _ => .ok _
  case word => exact .bind (fetch_faultsOnAccess ..) fun _ => .ok _

theorem fetchFrameImm_faultsOnAccess (ss : Scale) : FaultsOnAccess (fetchFrameImm ss s) := by
  refine .bind (fetchImm_faultsOnAccess ..) fun p => ?_
  obtain ⟨v, s1⟩ := p
  dsimp only
  split <;> exact .ok _

theorem push32_faultsOnAccess (v : Word) : FaultsOnAccess (push32 v s) :=
  .bind (readReg_faultsOnAccess ..) fun _ => memWrite_faultsOnAccess ..

theorem pop32_faultsOnAccess : FaultsOnAccess (pop32 s) :=
  .bind (readReg_faultsOnAccess ..) fun _ => .bind (memReadAligned_faultsOnAccess ..) fun _ =>
    .bind (readReg_faultsOnAccess ..) fun _ => .ok _

theorem transfer_faultsOnAccess (cccc : CondCode) (target : Word) :
    FaultsOnAccess (transfer cccc target s) :=
  .ite (.bind (push32_faultsOnAccess ..) fun _ => .ok _) (.ok _)

/-! ### Operands -/

section
variable (ea : EA) (loc : Loc) (nb : Nat)

theorem evalEA_faultsOnAccess : FaultsOnAccess (evalEA ea nb s) := by
  cases ea with
  | dreg x | areg x | sr => exact .ok _
  | postInc x =>
    exact .bind (readReg_faultsOnAccess ..) fun _ => .bind (readReg_faultsOnAccess ..) fun _ => .ok _
  | preDec x | deferred x => exact .bind (readReg_faultsOnAccess ..) fun _ => .ok _
  | base16 x | base32 x =>
    exact .bind (readReg_faultsOnAccess ..) fun _ => .bind (fetch_faultsOnAccess ..) fun _ => .ok _
  | imm => exact .bind (fetchImm_faultsOnAccess ..) fun _ => .ok _
  | ip16 | ip32 => exact .bind (fetch_faultsOnAccess ..) fun _ => .ok _

theorem readLoc_faultsOnAccess : FaultsOnAccess (readLoc loc nb s) := by
  cases loc with
  | dreg i | areg i => exact readRegN_faultsOnAccess ..
  | mem a => exact memReadAligned_faultsOnAccess ..
  | imm v => exact .ok _
  | sr => exact .bind (.bind (readFlags_faultsOnAccess ..) fun _ => .ok _) fun _ => .ok _

theorem writeLoc_faultsOnAccess (v : BitVec (8 * nb)) : FaultsOnAccess (writeLoc loc nb v s) := by
  cases loc with
  | dreg i | areg i => exact regWriteN_faultsOnAccess ..
  | mem a => exact memWrite_faultsOnAccess ..
  | imm _ | sr => exact .ok _

theorem writeExtended_faultsOnAccess (v : BitVec (8 * nb)) :
    FaultsOnAccess (writeExtended loc nb v s) := by
  cases loc with
  | dreg i | areg i => exact .ok _
  | mem a => exact writeLoc_faultsOnAccess s (.mem a) nb v
  | imm c => exact writeLoc_faultsOnAccess s (.imm c) nb v
  | sr => exact writeLoc_faultsOnAccess s .sr nb v

theorem writeBack_faultsOnAccess (r : Computed (8 * nb)) :
    FaultsOnAccess (writeBack loc nb r s) := .bind (writeLoc_faultsOnAccess ..) fun _ => .ok _

theorem operand_faultsOnAccess : FaultsOnAccess (operand ea nb s) :=
  .bind (evalEA_faultsOnAccess ..) fun _ => .bind (readLoc_faultsOnAccess ..) fun _ => .ok _

theorem evalEAImm_faultsOnAccess : FaultsOnAccess (evalEAImm ea nb s) := by
  unfold evalEAImm
  split
  · exact .bind (evalEA_faultsOnAccess ..) fun _ => .bind (fetchImm_faultsOnAccess ..) fun _ => .ok _
  · exact .bind (fetchImm_faultsOnAccess ..) fun _ => .bind (evalEA_faultsOnAccess ..) fun _ => .ok _

theorem operandImm_faultsOnAccess : FaultsOnAccess (operandImm ea nb s) :=
  .bind (evalEAImm_faultsOnAccess ..) fun _ => .bind (readLoc_faultsOnAccess ..) fun _ => .ok _

theorem operandsDy_faultsOnAccess (y x : RegNum) : FaultsOnAccess (operandsDy y x s) :=
  .bind (readReg_faultsOnAccess ..) fun _ => .bind (readReg_faultsOnAccess ..) fun _ => .ok _

end

/-! ### The shapes of instruction -/

section
variable {ea : EA} (w : Half) (nb : Nat) (y x : RegNum)

theorem guardDest_faultsOnAccess (hi : ea ≠ .imm) (c : Config) :
    FaultsOnAccess (guardDest c ea w) := by
  rw [guardDest_ok c w hi]
  exact .ok _

theorem modifyEA_faultsOnAccess (hi : ea ≠ .imm) (f : BitVec (8 * nb) → Computed (8 * nb)) :
    FaultsOnAccess (modifyEA w ea nb f s) :=
  .bind (guardDest_faultsOnAccess w hi _) fun _ => .bind (operand_faultsOnAccess ..) fun _ =>
    writeBack_faultsOnAccess ..

theorem modifyEACarry_faultsOnAccess (hi : ea ≠ .imm)
    (f : BitVec (8 * nb) → Bool → Computed (8 * nb)) :
    FaultsOnAccess (modifyEACarry w ea nb f s) :=
  .bind (guardDest_faultsOnAccess w hi _) fun _ => .bind (operand_faultsOnAccess ..) fun _ =>
    .bind (readFlag_faultsOnAccess ..) fun _ => writeBack_faultsOnAccess ..

theorem modifyQuickEA_faultsOnAccess (hi : ea ≠ .imm) (f : Word → Computed 32) :
    FaultsOnAccess (modifyQuickEA w ea f s) :=
  modifyQuickEA_eq w ea f s ▸ modifyEA_faultsOnAccess s w 4 hi f

theorem modifyQuickEACarry_faultsOnAccess (hi : ea ≠ .imm) (f : Word → Bool → Computed 32) :
    FaultsOnAccess (modifyQuickEACarry w ea f s) :=
  modifyQuickEACarry_eq w ea f s ▸ modifyEACarry_faultsOnAccess s w 4 hi f

theorem modifyEAImm_faultsOnAccess (hi : ea ≠ .imm)
    (f : BitVec (8 * nb) → BitVec (8 * nb) → Computed (8 * nb)) :
    FaultsOnAccess (modifyEAImm w ea nb f s) :=
  .bind (guardDest_faultsOnAccess w hi _) fun _ => .bind (operandImm_faultsOnAccess ..) fun _ =>
    writeBack_faultsOnAccess ..

theorem testEA_faultsOnAccess (ea : EA) (f : BitVec (8 * nb) → Computed (8 * nb)) :
    FaultsOnAccess (testEA ea nb f s) := .bind (operand_faultsOnAccess ..) fun _ => .ok _

theorem computeRy_faultsOnAccess (ss : Scale) (ea : EA)
    (f : BitVec (8 * bytes ss) → BitVec (8 * bytes ss) → Computed (8 * bytes ss)) :
    FaultsOnAccess (computeRy y ss ea f s) :=
  .bind (operand_faultsOnAccess ..) fun _ => .bind (readRegN_faultsOnAccess ..) fun _ =>
    .bind (regWriteN_faultsOnAccess ..) fun _ => .ok _

theorem shiftDy_faultsOnAccess (kind : ShiftKind) (ea : EA) :
    FaultsOnAccess (shiftDy kind y ea s) :=
  .bind (operand_faultsOnAccess ..) fun _ => .bind (readReg_faultsOnAccess ..) fun _ => .ok _

theorem computeDy_faultsOnAccess (f : Word → Word → Computed 32) :
    FaultsOnAccess (computeDy y x f s) := .bind (operandsDy_faultsOnAccess ..) fun _ => .ok _

/-- A division stops on a read or on a zero divisor (60_exceptions.md R264). -/
theorem divideDy_fault {s : State} {y x : RegNum} {f : Word → Word → Computed 32} {e : Fault}
    (h : divideDy y x f s = .error e) : e.OfAccess ∨ e = .divideByZero := by
  unfold divideDy at h
  cases ho : operandsDy y x s with
  | error e' =>
    rw [ho] at h
    cases h
    exact .inl ((operandsDy_faultsOnAccess s y x).ofAccess _ ho)
  | ok r =>
    obtain ⟨a, b, u⟩ := r
    by_cases hb : b = 0
    · simp only [ho, run_ok_bind, if_pos hb] at h
      cases h
      exact .inr rfl
    · simp only [ho, run_ok_bind, if_neg hb] at h
      cases h

end

end

/-! ### Every instruction -/

/-- The destination of an instruction that has a word is no constant (30_encoding.md R91). -/
theorem writtenEA_ne_imm {i : Instr} {ea : EA} (hwf : i.wf = true) (hw : i.writtenEA = some ea) :
    ea ≠ .imm := by
  rintro rfl
  simp [Instr.wf, Instr.immediateDestination, hw] at hwf

/-- An instruction that has a word faults on an access, on a read, or on a zero divisor
(60_exceptions.md R262 to R265). -/
theorem exec_fault {i : Instr} {s : State} {e : Fault} (hwf : i.wf = true)
    (h : exec i s = .fault e) : e.OfAccess ∨ e = .divideByZero := by
  have hdest {ea : EA} (hw : i.writtenEA = some ea) : ea ≠ .imm := writtenEA_ne_imm hwf hw
  have hrun {r : Run State} (h : finish r = .fault e) (hr : FaultsOnAccess r) :
      e.OfAccess ∨ e = .divideByZero := .inl (hr.ofAccess e (finish_eq_fault.1 h))
  cases i with
  | nop | rfi | ldq y q => cases h
  | unlnk =>
    exact hrun h (.bind (readReg_faultsOnAccess ..) fun _ => .bind (pop32_faultsOnAccess _)
      fun _ => .ok _)
  | rfs ss =>
    exact hrun h (.bind (fetchFrameImm_faultsOnAccess ..) fun _ => .bind (pop32_faultsOnAccess _)
      fun _ => .ok _)
  | lnk ss =>
    exact hrun h (.bind (fetchFrameImm_faultsOnAccess ..) fun _ => .bind (readReg_faultsOnAccess ..)
      fun _ => .bind (push32_faultsOnAccess ..) fun _ => .ok _)
  | cmpi ss ea => exact hrun h (.bind (operandImm_faultsOnAccess ..) fun _ => .ok _)
  | addi ss ea | subi ss ea | xori ss ea | ori ss ea | andi ss ea =>
    exact hrun h (modifyEAImm_faultsOnAccess _ _ _ (hdest rfl) _)
  | not ss ea | neg ss ea | rev ss ea | addq q ss ea | subq q ss ea =>
    exact hrun h (modifyEA_faultsOnAccess _ _ _ (hdest rfl) _)
  | lslq q ea | lsrq q ea | asrq q ea | rorq q ea =>
    exact hrun h (modifyQuickEA_faultsOnAccess _ _ (hdest rfl) _)
  | adc ss ea | sbc ss ea => exact hrun h (modifyEACarry_faultsOnAccess _ _ _ (hdest rfl) _)
  | rrc ea => exact hrun h (modifyQuickEACarry_faultsOnAccess _ _ (hdest rfl) _)
  | sti ss ea =>
    exact hrun h (.bind (guardDest_faultsOnAccess _ (hdest rfl) _) fun _ =>
      .bind (evalEAImm_faultsOnAccess ..) fun _ => writeLoc_faultsOnAccess ..)
  | clr ss ea =>
    exact hrun h (.bind (guardDest_faultsOnAccess _ (hdest rfl) _) fun _ =>
      .bind (evalEA_faultsOnAccess ..) fun _ => writeLoc_faultsOnAccess ..)
  | ext ss ea =>
    exact hrun h (.bind (guardDest_faultsOnAccess _ (hdest rfl) _) fun _ =>
      .bind (operand_faultsOnAccess ..) fun _ => .bind (writeExtended_faultsOnAccess ..)
        fun _ => .ok _)
  | st y ss ea =>
    exact hrun h (.bind (guardDest_faultsOnAccess _ (hdest rfl) _) fun _ =>
      .bind (evalEA_faultsOnAccess ..) fun _ => .bind (readRegN_faultsOnAccess ..) fun _ =>
        writeLoc_faultsOnAccess ..)
  | tst ss ea => exact hrun h (testEA_faultsOnAccess ..)
  | mul y x | hmulu y x | hmuls y x => exact hrun h (computeDy_faultsOnAccess ..)
  | divu y x | divs y x | modu y x | mods y x => exact divideDy_fault (finish_eq_fault.1 h)
  | lsl y ea | lsr y ea | asr y ea | ror y ea => exact hrun h (shiftDy_faultsOnAccess ..)
  | cmpq y q => exact hrun h (.bind (readReg_faultsOnAccess ..) fun _ => .ok _)
  | ld y ss ea =>
    exact hrun h (.bind (operand_faultsOnAccess ..) fun _ => regWriteN_faultsOnAccess ..)
  | cmp y ss ea =>
    exact hrun h (.bind (operand_faultsOnAccess ..) fun _ => .bind (readRegN_faultsOnAccess ..)
      fun _ => .ok _)
  | add y ss ea | sub y ss ea | xor y ss ea | or y ss ea | and y ss ea =>
    exact hrun h (computeRy_faultsOnAccess ..)
  | bcc cccc q =>
    exact hrun h (.bind (readCond_faultsOnAccess ..) fun _ => .ite (transfer_faultsOnAccess ..)
      (.ok _))
  | jcc cccc ss ea =>
    exact hrun h (.bind (readCond_faultsOnAccess ..) fun _ => .ite
      (.bind (operand_faultsOnAccess ..) fun _ => transfer_faultsOnAccess ..) (.ok _))

/-- Every other instruction ends as its run does, or always completes (log 15). -/
theorem exec_refused_iff {i : Instr} {s : State} :
    (∃ r, exec i s = .refused r) ↔ i = .rfi := by
  constructor
  · rintro ⟨r, h⟩
    cases i with
    | rfi => rfl
    | nop | ldq y q => cases h
    | _ => exact absurd h (finish_ne_refused _ r)
  · rintro rfl
    exact ⟨_, rfl⟩

/-- Settles O60: `exec_refused_iff`, and neither fault is among those of `exec_fault`. -/
theorem onlyRfiHasNoMeaning : Obligations.OnlyRfiHasNoMeaning := by
  refine fun i s => ⟨rfl, exec_refused_iff, fun hwf => ⟨fun w h => ?illegal, fun h => ?halt⟩⟩
  case illegal => simpa [Fault.OfAccess] using exec_fault hwf h
  case halt => simpa [Fault.OfAccess] using exec_fault hwf h

end Sys2Proof.Machine
end

section
/-! PROOF. The immediate arithmetic, the compares and the stores (42_arith_immediate.md R170 to R177,
43_single_operand.md R184, R187, 46_quick_arith.md R211, 48_arithmetic.md R231, R237). A location that
can be written is no constant, so the destination is legal; what remains is a result written back
(`writeBack_of_writable`), flags set in the state of the reads, or a plain write of a location
(`writeLoc_writesResult`). -/

namespace Sys2Proof.Machine

/-! ### What the families share -/

theorem bytes_operandSize (ss : Scale) : OperandSize (bytes ss) := by
  cases ss <;> decide

/-- The width in bits of an operand of any scale. -/
theorem bytes_width_pos (ss : Scale) : 0 < 8 * bytes ss := by
  cases ss <;> decide

/-- The form of a location that can be written is no immediate (30_encoding.md R91). -/
theorem EA.ne_imm_of_writable {ea : EA} {loc : Loc} {nb : Nat} {s u : State} {old : Word}
    (hgives : EA.gives ea loc) (hw : loc.Writable nb s old u) : ea ≠ .imm := by
  rintro rfl
  obtain ⟨c, rfl⟩ := hgives
  exact hw.2

/-- `LogicFlags` clears V and C (40_components.md R147). -/
theorem logicFlags_resultFlags {n : Nat} (r : BitVec n) :
    ResultFlags r false false (logicFlags r).2 :=
  ⟨rfl, decide_eq_true_iff, rfl, rfl⟩

/-- A value written to a location stands there, with the flags as they were. -/
theorem writeLoc_writesResult {loc : Loc} {nb : Nat} (v : BitVec (8 * nb)) {s u : State} {old : Word}
    (hw : loc.Writable nb s old u) (hn : nb ≤ 2 ^ 32) :
    ∃ t, writeLoc loc nb v s = .ok t ∧ WritesResult loc nb v none old u t := by
  obtain ⟨t, ht⟩ := writeLoc_of_writable v hw
  obtain ⟨old', u', hw', hholds, hframe, hflags, -⟩ := writeLoc_ok ht hn (by rintro c rfl; exact hw.2)
  obtain ⟨rfl, rfl⟩ := hw.unique hw'
  exact ⟨t, ht, hholds, hframe, hflags⟩

section
variable {ss : Scale} {ea : EA} {s s1 s2 u : State} {loc : Loc} {old : Word}
  {a imm : BitVec (8 * bytes ss)}

/-! ### Arithmetic with an immediate -/

/-- Operand and immediate combined and written back (40_components.md R149 steps 5 to 10). -/
theorem modifyEAImm_writesResult (ho : operandImm ea (bytes ss) s = .ok (loc, a, imm, s1))
    (hw : loc.Writable (bytes ss) s1 old u) (w : Half)
    (f : BitVec (8 * bytes ss) → BitVec (8 * bytes ss) → Computed (8 * bytes ss)) :
    ∃ t, finish (modifyEAImm w ea (bytes ss) f s) = .next t ∧
      WritesResult loc (bytes ss) (f a imm).1 (some (f a imm).2) old u t := by
  obtain ⟨t, ht, hresult⟩ := writeBack_of_writable (f a imm) hw (bytes_operandSize ss).le
  rw [modifyEAImm_of_operand (EA.ne_imm_of_writable (operandImm_ok ho).1 hw) ho]
  exact ⟨t, finish_eq_next.2 ht, hresult⟩

/-- The three logic operations: the result written back with the flags of R147. -/
theorem modifyEAImm_logicFlags (ho : operandImm ea (bytes ss) s = .ok (loc, a, imm, s1))
    (hw : loc.Writable (bytes ss) s1 old u) (w : Half)
    (op : BitVec (8 * bytes ss) → BitVec (8 * bytes ss) → BitVec (8 * bytes ss)) :
    ∃ t f, finish (modifyEAImm w ea (bytes ss) (fun x y => logicFlags (op x y)) s) = .next t ∧
      ResultFlags (op a imm) false false f ∧
      WritesResult loc (bytes ss) (op a imm) (some f) old u t := by
  obtain ⟨t, ht, hresult⟩ := modifyEAImm_writesResult ho hw w fun x y => logicFlags (op x y)
  exact ⟨t, _, ht, logicFlags_resultFlags _, hresult⟩

/-! ### Compares -/

theorem exec_cmpi_of_operandImm (ho : operandImm ea (bytes ss) s = .ok (loc, a, imm, s1)) :
    exec (.cmpi ss ea) s = .next (s1.setFlags (subFlags s.cfg.subCarry a imm false).2) := by
  rw [← (operandImm_keepsParameters ho).cfg]
  exact finish_eq_next.2 (run_bind_of_ok ho rfl)

theorem exec_tst_of_operand (ho : operand ea (bytes ss) s = .ok (loc, a, s1)) :
    exec (.tst ss ea) s = .next (s1.setFlags (subFlags s.cfg.subCarry a 0 false).2) :=
  finish_eq_next.2 (testEA_ok_iff.2 ⟨loc, a, s1, ho, rfl⟩)

theorem exec_cmp_of_reads {y : RegNum} {v : Word}
    (ho : operand ea (bytes ss) s = .ok (loc, a, s1))
    (hr : readReg (regSel ss) y s1 = .ok (v, s2)) :
    exec (.cmp y ss ea) s =
      .next (s2.setFlags (subFlags s.cfg.subCarry (v.setWidth (8 * bytes ss)) a false).2) := by
  rw [← ((operand_keepsParameters ho).trans (readReg_keepsParameters hr)).cfg]
  exact finish_eq_next.2 (run_bind_of_ok ho (run_bind_of_ok (readRegN_of hr _) rfl))

theorem exec_cmpq_of_read {y : RegNum} {v : Word} (q : BitVec 8)
    (hr : readReg .d y s = .ok (v, s1)) :
    exec (.cmpq y q) s =
      .next (s1.setFlags (subFlags s.cfg.subCarry v (q.signExtend 32) false).2) := by
  rw [← (readReg_keepsParameters hr).cfg]
  exact finish_eq_next.2 (run_bind_of_ok hr rfl)

/-! ### Stores -/

theorem exec_sti_writesResult (he : evalEAImm ea (bytes ss) s = .ok (loc, imm, s1))
    (hw : loc.Writable (bytes ss) s1 old u) :
    ∃ t, exec (.sti ss ea) s = .next t ∧ WritesResult loc (bytes ss) imm none old u t := by
  have hguard := guardDest_ok s.cfg (encode (.sti ss ea))
    (EA.ne_imm_of_writable (evalEAImm_ok he).1 hw)
  obtain ⟨t, ht, hresult⟩ := writeLoc_writesResult imm hw (bytes_operandSize ss).le
  exact ⟨t, finish_eq_next.2 (run_bind_of_ok hguard (run_bind_of_ok he ht)), hresult⟩

theorem exec_clr_writesResult (he : evalEA ea (bytes ss) s = .ok (loc, s1))
    (hw : loc.Writable (bytes ss) s1 old u) :
    ∃ t, exec (.clr ss ea) s = .next t ∧ WritesResult loc (bytes ss) 0 none old u t := by
  have hguard := guardDest_ok s.cfg (encode (.clr ss ea))
    (EA.ne_imm_of_writable (evalEA_ok he).1 hw)
  obtain ⟨t, ht, hresult⟩ := writeLoc_writesResult 0 hw (bytes_operandSize ss).le
  exact ⟨t, finish_eq_next.2 (run_bind_of_ok hguard (run_bind_of_ok he ht)), hresult⟩

theorem exec_st_writesResult {y : RegNum} {v : Word} (he : evalEA ea (bytes ss) s = .ok (loc, s1))
    (hr : readReg (regSel ss) y s1 = .ok (v, s2)) (hw : loc.Writable (bytes ss) s2 old u) :
    ∃ t, exec (.st y ss ea) s = .next t ∧
      WritesResult loc (bytes ss) (v.setWidth (8 * bytes ss)) none old u t := by
  have hguard := guardDest_ok s.cfg (encode (.st y ss ea))
    (EA.ne_imm_of_writable (evalEA_ok he).1 hw)
  obtain ⟨t, ht, hresult⟩ := writeLoc_writesResult (v.setWidth _) hw (bytes_operandSize ss).le
  exact ⟨t, finish_eq_next.2 (run_bind_of_ok hguard
    (run_bind_of_ok he (run_bind_of_ok (readRegN_of hr _) ht))), hresult⟩

end

/-! ### The statements -/

/-- Settles O36: each is one result written back, the sum and the difference with the flags of
`addFlags_adds` and `subFlags_subtracts`. -/
theorem immediateArithmeticResults : Obligations.ImmediateArithmeticResults := by
  intro ss ea s s1 u loc a imm old ho hw
  have hpos := bytes_width_pos ss
  refine ⟨?addi, ?subi, modifyEAImm_logicFlags ho hw _ (· ^^^ ·),
    modifyEAImm_logicFlags ho hw _ (· ||| ·), modifyEAImm_logicFlags ho hw _ (· &&& ·)⟩
  case addi =>
    obtain ⟨t, ht, hresult⟩ := modifyEAImm_writesResult ho hw _ fun x y => addFlags x y false
    exact ⟨t, _, _, ht, addFlags_adds a imm false hpos, hresult⟩
  case subi =>
    obtain ⟨t, ht, hresult⟩ :=
      modifyEAImm_writesResult ho hw _ fun x y => subFlags s.cfg.subCarry x y false
    exact ⟨t, _, _, ht, subFlags_subtracts _ a imm false hpos, hresult⟩

/-- Settles O37: each sets the flags of its subtraction in the state its reads left, which has the
parameters of the first. -/
theorem comparesSetFlagsOnly : Obligations.ComparesSetFlagsOnly :=
  ⟨fun ss _ _ _ _ _ _ ho => ⟨_, _, exec_cmpi_of_operandImm ho,
      subFlags_subtracts _ _ _ false (bytes_width_pos ss)⟩,
    fun ss _ _ _ _ _ ho => ⟨⟨_, _, exec_tst_of_operand ho,
        subFlags_subtracts _ _ _ false (bytes_width_pos ss)⟩,
      fun _ _ _ hr => ⟨_, _, exec_cmp_of_reads ho hr,
        subFlags_subtracts _ _ _ false (bytes_width_pos ss)⟩⟩,
    fun _ q _ _ _ hr => ⟨_, _, exec_cmpq_of_read q hr,
      subFlags_subtracts _ _ _ false (by norm_num)⟩⟩

/-- Settles O38: the destination is legal and each is a write of its location. -/
theorem storeResults : Obligations.StoreResults :=
  ⟨fun _ _ _ _ _ _ _ _ he hw => exec_sti_writesResult he hw,
    fun _ _ _ _ _ he => ⟨fun _ _ hw => exec_clr_writesResult he hw,
      fun _ _ _ _ _ hr hw => exec_st_writesResult he hr hw⟩⟩

end Sys2Proof.Machine
end

section
/-! PROOF. The single-operand instructions that write a result: NOT, NEG, ADC, SBC, REV and EXT
(43_single_operand.md R180 to R183, R185, R186). The first five write one computed result back. The
result of REV under `byte_reverse` is put together in the other byte order than it is taken apart, so
its bytes are those of the operand from the other end (`disassemble_assemble`). EXT writes memory and SR
as the others do, and a register whole. -/

namespace Sys2Proof.Machine

/-! ### Bytes put together and taken apart -/

theorem bytesLEOfNat_natOfBytesLE (bs : List Byte) :
    bytesLEOfNat bs.length (natOfBytesLE bs) = bs := by
  induction bs with
  | nil => rfl
  | cons b bs ih =>
    have hlow : BitVec.ofNat 8 (b.toNat + 256 * natOfBytesLE bs) = b := by bv_omega
    have hhigh : (b.toNat + 256 * natOfBytesLE bs) / 256 = natOfBytesLE bs := by omega
    simp only [List.length_cons, bytesLEOfNat, natOfBytesLE, hlow, hhigh, ih]

theorem natOfBytesLE_lt (bs : List Byte) : natOfBytesLE bs < 2 ^ (8 * bs.length) := by
  induction bs with
  | nil => simp [natOfBytesLE]
  | cons b bs ih =>
    have hpow : 2 ^ (8 * (b :: bs).length) = 256 * 2 ^ (8 * bs.length) := by
      rw [List.length_cons, Nat.mul_succ, Nat.pow_add, Nat.mul_comm]
    rw [hpow, natOfBytesLE]
    omega

/-- The inverse of `assemble_disassemble`, on as many bytes as the value has. -/
theorem disassemble_assemble (o : ByteOrder) {nb : Nat} {bs : List Byte} (h : bs.length = nb) :
    disassemble o nb (assemble o nb bs) = bs := by
  subst h
  have toNat_ofBytes (l : List Byte) (hl : l.length = bs.length) :
      (BitVec.ofNat (8 * bs.length) (natOfBytesLE l)).toNat = natOfBytesLE l :=
    Nat.mod_eq_of_lt (hl ▸ natOfBytesLE_lt l)
  cases o with
  | little => rw [disassemble, assemble, toNat_ofBytes bs rfl, bytesLEOfNat_natOfBytesLE]
  | big =>
    rw [disassemble, assemble, toNat_ofBytes _ List.length_reverse]
    simpa using congrArg List.reverse (bytesLEOfNat_natOfBytesLE bs.reverse)

/-! ### The value REV writes -/

theorem getLsbD_reversed_bitReverse {nb : Nat} (a : BitVec (8 * nb)) {k : Nat} (hk : k < 8 * nb) :
    (reversed .bitReverse nb a).getLsbD k = a.getLsbD (8 * nb - 1 - k) := by
  rw [reversed, BitVec.getLsbD_reverse, BitVec.getMsbD_eq_getLsbD]
  simp [hk]

/-- Byte `j` of the reversed value is byte `nb - 1 - j` of its big-endian layout, which is the operand's
little-endian one. -/
theorem extractLsb'_reversed_byteReverse {nb : Nat} (a : BitVec (8 * nb)) {j : Nat} (hj : j < nb) :
    (reversed .byteReverse nb a).extractLsb' (8 * j) 8 = a.extractLsb' (8 * (nb - 1 - j)) 8 := by
  have hlayout : disassemble .big nb (reversed .byteReverse nb a) = disassemble .little nb a :=
    disassemble_assemble .big (length_disassemble ..)
  have hlt : nb - 1 - j < nb := by omega
  have hbyte := getElem_disassemble .big nb (reversed .byteReverse nb a) (nb - 1 - j) (by simpa)
  have hindex : nb - 1 - (nb - 1 - j) = j := by omega
  simp only [hlayout, getElem_disassemble, hindex] at hbyte
  exact hbyte.symm

section
variable {ss : Scale} {ea : EA} {s s1 s2 u : State} {loc : Loc} {old : Word}
  {a : BitVec (8 * bytes ss)} {c : Bool}

/-! ### An operand's result written back -/

theorem modifyEA_writesResult (ho : operand ea (bytes ss) s = .ok (loc, a, s1))
    (hw : loc.Writable (bytes ss) s1 old u) (w : Half)
    (f : BitVec (8 * bytes ss) → Computed (8 * bytes ss)) :
    ∃ t, finish (modifyEA w ea (bytes ss) f s) = .next t ∧
      WritesResult loc (bytes ss) (f a).1 (some (f a).2) old u t := by
  obtain ⟨t, ht, hresult⟩ := writeBack_of_writable (f a) hw (bytes_operandSize ss).le
  rw [modifyEA_of_operand (EA.ne_imm_of_writable (operand_ok ho).1 hw) ho]
  exact ⟨t, finish_eq_next.2 ht, hresult⟩

/-- A result with the flags of R147. -/
theorem modifyEA_logicFlags (ho : operand ea (bytes ss) s = .ok (loc, a, s1))
    (hw : loc.Writable (bytes ss) s1 old u) (w : Half)
    (op : BitVec (8 * bytes ss) → BitVec (8 * bytes ss)) :
    ∃ t f, finish (modifyEA w ea (bytes ss) (fun x => logicFlags (op x)) s) = .next t ∧
      ResultFlags (op a) false false f ∧ WritesResult loc (bytes ss) (op a) (some f) old u t := by
  obtain ⟨t, ht, hresult⟩ := modifyEA_writesResult ho hw w fun x => logicFlags (op x)
  exact ⟨t, _, ht, logicFlags_resultFlags _, hresult⟩

/-- The same with C, which is read after the operand. -/
theorem modifyEACarry_writesResult (ho : operand ea (bytes ss) s = .ok (loc, a, s1))
    (hc : readFlag .c s1 = .ok (c, s2)) (hw : loc.Writable (bytes ss) s2 old u) (w : Half)
    (f : BitVec (8 * bytes ss) → Bool → Computed (8 * bytes ss)) :
    ∃ t, finish (modifyEACarry w ea (bytes ss) f s) = .next t ∧
      WritesResult loc (bytes ss) (f a c).1 (some (f a c).2) old u t := by
  obtain ⟨t, ht, hresult⟩ := writeBack_of_writable (f a c) hw (bytes_operandSize ss).le
  rw [modifyEACarry_of_operand (EA.ne_imm_of_writable (operand_ok ho).1 hw) ho hc]
  exact ⟨t, finish_eq_next.2 ht, hresult⟩

/-! ### EXT -/

theorem exec_ext_of_operand (ho : operand ea (bytes ss) s = .ok (loc, a, s1)) (hi : ea ≠ .imm)
    (hw : writeExtended loc (bytes ss) a s1 = .ok s2) :
    exec (.ext ss ea) s = .next (setFlagsUnlessSR loc (logicFlags a).2 s2) :=
  finish_eq_next.2 (run_bind_of_ok (guardDest_ok s.cfg _ hi)
    (run_bind_of_ok ho (run_bind_of_ok hw rfl)))

/-- Where EXT stores the operand itself, it writes back a result like any other instruction. -/
theorem exec_ext_writesResult (ho : operand ea (bytes ss) s = .ok (loc, a, s1))
    (hw : loc.Writable (bytes ss) s1 old u)
    (hsame : writeExtended loc (bytes ss) a s1 = writeLoc loc (bytes ss) a s1) :
    ∃ t, exec (.ext ss ea) s = .next t ∧
      WritesResult loc (bytes ss) a (some (logicFlags a).2) old u t := by
  obtain ⟨t, ht, hresult⟩ := writeBack_of_writable (logicFlags a) hw (bytes_operandSize ss).le
  simp only [writeBack, run_bind_ok, run_pure, Except.ok.injEq] at ht
  obtain ⟨s2, hwrite, rfl⟩ := ht
  exact ⟨_, exec_ext_of_operand ho (EA.ne_imm_of_writable (operand_ok ho).1 hw)
    (hsame.trans hwrite), hresult⟩

theorem UnchangedOutside.setFlags {nb : Nat} (h : UnchangedOutside loc nb s s1) (f : Flags) :
    UnchangedOutside loc nb s (s1.setFlags f) := by
  obtain ⟨hd, ha, hmem, hip, hcfg, hreads⟩ := h
  exact ⟨by simpa using hd, by simpa using ha, by simpa using hmem, hip, hcfg, hreads⟩

end

/-! ### The statements -/

/-- Settles O39: each is one result written back; the flags of NEG, ADC and SBC are those of
`subFlags_subtracts` and `addFlags_adds`. -/
theorem singleOperandResults : Obligations.SingleOperandResults := by
  intro ss ea s s1 loc a ho
  have hpos := bytes_width_pos ss
  refine ⟨fun old u hw => ⟨modifyEA_logicFlags ho hw _ (~~~ ·), ?neg⟩,
    fun c s2 old u hc hw => ⟨?adc, ?sbc⟩⟩
  case neg =>
    obtain ⟨t, ht, hresult⟩ :=
      modifyEA_writesResult ho hw _ fun x => subFlags s.cfg.subCarry 0 x false
    exact ⟨t, _, _, ht, subFlags_subtracts _ 0 a false hpos, hresult⟩
  case adc =>
    obtain ⟨t, ht, hresult⟩ := modifyEACarry_writesResult ho hc hw _ fun x b => addFlags x 0 b
    exact ⟨t, _, _, ht, addFlags_adds a 0 c hpos, hresult⟩
  case sbc =>
    obtain ⟨t, ht, hresult⟩ := modifyEACarry_writesResult ho hc hw _
      fun x b => subFlags s.cfg.subCarry x 0 (carryOfBorrow s.cfg.subCarry b)
    exact ⟨t, _, _, ht, subFlags_subtracts _ a 0 (carryOfBorrow s.cfg.subCarry c) hpos, hresult⟩

/-- Settles O40: the reversed operand is written back with the flags of R147. -/
theorem reverseResult : Obligations.ReverseResult := by
  intro ss ea s s1 u loc a old ho hw
  obtain ⟨t, f, ht, hflags, hresult⟩ := modifyEA_logicFlags ho hw _ (reversed s.cfg.revFn (bytes ss))
  refine ⟨t, _, f, ht, fun hbits k hk => ?_, fun hbytes j hj => ?_, hflags, hresult⟩
  · rw [hbits, getLsbD_reversed_bitReverse a hk]
  · rw [hbytes, extractLsb'_reversed_byteReverse a hj]

/-- Settles O41: a register is written whole, without reading its old value; memory and SR are written as
by any other instruction. -/
theorem extendResult : Obligations.ExtendResult := by
  intro ss ea s s1 loc a ho hi hmem
  have hflags := logicFlags_resultFlags a
  cases loc with
  | dreg i =>
    exact ⟨_, _, exec_ext_of_operand ho hi rfl, by simp [setFlagsUnlessSR],
      (setReg_unchangedOutside s1 i _ _).1.setFlags _, hflags, fun _ _ => by simp [setFlagsUnlessSR]⟩
  | areg i =>
    exact ⟨_, _, exec_ext_of_operand ho hi rfl, by simp [setFlagsUnlessSR],
      (setReg_unchangedOutside s1 i _ _).2.setFlags _, hflags, fun _ _ => by simp [setFlagsUnlessSR]⟩
  | mem m =>
    obtain ⟨t, ht, hholds, hframe, hafter⟩ :=
      exec_ext_writesResult ho (old := 0) (u := s1) ⟨rfl, hmem m rfl⟩ rfl
    exact ⟨t, _, ht, hholds, hframe, hflags, hafter⟩
  | imm v => exact absurd rfl (EA.gives_ne_imm (operand_ok ho).1 hi v)
  | sr =>
    obtain ⟨t, ht, hholds, hframe, hafter⟩ :=
      exec_ext_writesResult ho (old := 0) (u := s1) ⟨rfl, trivial⟩ rfl
    exact ⟨t, _, ht, hholds, hframe, hflags, hafter⟩

end Sys2Proof.Machine
end

section
/-! PROOF. Complex Arithmetic (44_complex_arith.md R190 to R197). The model computes each value on
integers and brings it back to 32 bits; the statements speak of bit vectors. So each value function is
`complexFlags` of a bit-vector operation (`mulLow_eq` to `modSigned_eq`), and an instruction writes
that value with its flags (`computeDy_complexFlags`, `divideDy_complexFlags`). -/

namespace Sys2Proof.Machine

/-! ### The values -/

/-- Bits 63:32 of a number, negative ones in two's complement. -/
theorem extractLsb'_high_ofInt (z : Int) :
    (BitVec.ofInt 64 z).extractLsb' 32 32 = BitVec.ofInt 32 (z / 2 ^ 32) := by
  apply BitVec.eq_of_toNat_eq
  rw [BitVec.extractLsb'_toNat, BitVec.toNat_ofInt, BitVec.toNat_ofInt, Nat.shiftRight_eq_div_pow]
  push_cast
  omega

section
variable (a b : Word)

theorem mulLow_eq : mulLow a b = complexFlags (a * b) false := by
  simp [mulLow, BitVec.ofNat_mul]

theorem mulHighUnsigned_eq : mulHighUnsigned a b =
    complexFlags ((a.setWidth 64 * b.setWidth 64).extractLsb' 32 32) false := by
  have hproduct : a.setWidth 64 * b.setWidth 64 = BitVec.ofInt 64 (a.toNat * b.toNat : Nat) := by
    rw [BitVec.ofInt_natCast, BitVec.ofNat_mul, BitVec.ofNat_toNat, BitVec.ofNat_toNat]
  have hhigh : ((a.toNat * b.toNat : Nat) : Int) / 2 ^ 32 = (a.toNat * b.toNat / 2 ^ 32 : Nat) :=
    (Int.natCast_ediv ..).symm
  rw [hproduct, extractLsb'_high_ofInt, hhigh, BitVec.ofInt_natCast, mulHighUnsigned]

theorem mulHighSigned_eq : mulHighSigned a b =
    complexFlags ((a.signExtend 64 * b.signExtend 64).extractLsb' 32 32) false := by
  have hproduct : a.signExtend 64 * b.signExtend 64 = BitVec.ofInt 64 (a.toInt * b.toInt) :=
    (BitVec.ofInt_mul ..).symm
  rw [hproduct, extractLsb'_high_ofInt, mulHighSigned]

theorem divUnsigned_eq : divUnsigned a b = complexFlags (a / b) false := by
  rw [divUnsigned, BitVec.udiv_def]

/-- The quotient of -2^31 by -1 wraps in both (44_complex_arith.md R194). -/
theorem divSigned_eq : divSigned a b = complexFlags (a.sdiv b)
    (decide (a = 0x80000000#32 ∧ b = 0xFFFFFFFF#32)) := by
  have hquotient : BitVec.ofInt 32 (a.toInt.tdiv b.toInt) = a.sdiv b :=
    BitVec.eq_of_toInt_eq (by rw [BitVec.toInt_ofInt, BitVec.toInt_sdiv])
  have hmin : a.toInt = -2 ^ 31 ↔ a = 0x80000000#32 :=
    BitVec.toInt_inj (y := 0x80000000#32)
  have hminusOne : b.toInt = -1 ↔ b = 0xFFFFFFFF#32 :=
    BitVec.toInt_inj (y := 0xFFFFFFFF#32)
  simp only [divSigned, hquotient, hmin, hminusOne, Bool.decide_and]

theorem modUnsigned_eq : modUnsigned a b = complexFlags (a % b) false := by
  rw [modUnsigned, BitVec.umod_def, Nat.mod_eq_sub]

/-- Each remainder is the dividend less the divisor times the quotient that its sign rule rounds
(44_complex_arith.md R196; log 22). -/
theorem modSigned_eq (p : ModSign) : modSigned p a b =
    complexFlags (match p with | .dividend => a.srem b | .divisor => a.smod b) false := by
  cases p with
  | dividend => rw [modSigned, ← Int.tmod_def, ← BitVec.toInt_srem, BitVec.ofInt_toInt]
  | divisor => rw [modSigned, ← Int.fmod_def, ← BitVec.toInt_smod, BitVec.ofInt_toInt]

end

/-- `complexFlags` clears C and takes V as given (44_complex_arith.md R197). -/
theorem complexFlags_resultFlags (r : Word) (v : Bool) :
    ResultFlags r v false (complexFlags r v).2 :=
  ⟨rfl, decide_eq_true_iff, rfl, rfl⟩

/-! ### The runs -/

section
variable {y x : RegNum} {s s1 u : State} {a b r : Word} {v : Bool}
  {f : Word → Word → Computed 32}

/-- Both registers read, the value and its flags written. -/
theorem computeDy_complexFlags (ha : readReg .d y s = .ok (a, s1)) (hb : readReg .d x s1 = .ok (b, u))
    (hf : f a b = complexFlags r v) :
    ∃ g, finish (computeDy y x f s) = .next ((u.setReg .d y r).setFlags g) ∧
      ResultFlags r v false g := by
  have hreads : operandsDy y x s = .ok (a, b, u) := operandsDy_ok_iff.2 ⟨s1, ha, hb⟩
  have hrun : computeDy y x f s = .ok (writeDy y (complexFlags r v) u) :=
    computeDy_ok_iff.2 ⟨a, b, u, hreads, by rw [hf]⟩
  exact ⟨_, finish_eq_next.2 hrun, complexFlags_resultFlags r v⟩

/-- A division by a divisor that is not zero runs as the other instructions do. -/
theorem divideDy_complexFlags (ha : readReg .d y s = .ok (a, s1)) (hb : readReg .d x s1 = .ok (b, u))
    (hb0 : b ≠ 0) (hf : f a b = complexFlags r v) :
    ∃ g, finish (divideDy y x f s) = .next ((u.setReg .d y r).setFlags g) ∧
      ResultFlags r v false g := by
  have hreads : operandsDy y x s = .ok (a, b, u) := operandsDy_ok_iff.2 ⟨s1, ha, hb⟩
  have hsame : divideDy y x f s = computeDy y x f s :=
    (divideDy_ok_iff.2 ⟨a, b, u, hreads, hb0, rfl⟩).trans
      (computeDy_ok_iff.2 ⟨a, b, u, hreads, rfl⟩).symm
  rw [hsame]
  exact computeDy_complexFlags ha hb hf

end

/-! ### The statements -/

/-- Settles O42: each writes its product (`mulLow_eq`, `mulHighUnsigned_eq`, `mulHighSigned_eq`). -/
theorem productResults : Obligations.ProductResults := by
  intro y x s s1 u a b ha hb
  obtain ⟨g, hunsigned, hunsignedFlags⟩ := computeDy_complexFlags ha hb (mulHighUnsigned_eq a b)
  obtain ⟨g', hsigned, hsignedFlags⟩ := computeDy_complexFlags ha hb (mulHighSigned_eq a b)
  exact ⟨computeDy_complexFlags ha hb (mulLow_eq a b), ⟨_, g, hunsigned, rfl, hunsignedFlags⟩,
    ⟨_, g', hsigned, rfl, hsignedFlags⟩⟩

/-- Settles O43: each writes its quotient or remainder (`divUnsigned_eq` to `modSigned_eq`). -/
theorem divisionResults : Obligations.DivisionResults := by
  intro y x s s1 u a b ha hb hb0
  obtain ⟨g, hmods, hmodsFlags⟩ := divideDy_complexFlags ha hb hb0 (modSigned_eq a b s.cfg.modSign)
  exact ⟨divideDy_complexFlags ha hb hb0 (divUnsigned_eq a b),
    divideDy_complexFlags ha hb hb0 (divSigned_eq a b),
    divideDy_complexFlags ha hb hb0 (modUnsigned_eq a b), ⟨_, g, hmods, rfl, hmodsFlags⟩⟩

end Sys2Proof.Machine
end

section
/-! PROOF. Shifts and Rotates (45_shifts_rotates.md R200 to R204). The model computes a shift as R148
writes it; the statement names the bit-vector operation of each kind. They agree on every count a shift
can have (`shiftResult_eq`, `shiftOut_eq`), and the run is the two reads and one write of `shiftDy`. -/

namespace Sys2Proof.Machine

/-! ### The values -/

/-- Only the rotate needs the bound: R148 forms it by a left shift of 32 less the count. -/
theorem shiftResult_eq (kind : ShiftKind) (d : Word) {c : Nat} (hc : c < 32) :
    shiftResult kind d c = shifted kind d c := by
  cases kind with
  | logicalLeft => rfl
  | logicalRight => rfl
  | arithmeticRight => rw [shiftResult, shifted, BitVec.sshiftRight, Int.shiftRight_eq_div_pow]; rfl
  | rotateRight =>
    rw [shiftResult, shifted, BitVec.rotateRight_eq_rotateRightAux_of_lt hc, BitVec.rotateRightAux]

/-- A count of 0 puts no bit out (45_shifts_rotates.md R204). -/
theorem shiftOut_eq (kind : ShiftKind) (d : Word) (c : Nat) :
    shiftOut kind d c = lastOut kind d c := by
  cases c with
  | zero => rfl
  | succ c => cases kind <;> simp [shiftOut, lastOut]

section
variable (kind : ShiftKind) (d : Word) (count : BitVec 5)

theorem shift_result : (shift kind d count).1 = shifted kind d count.toNat :=
  shiftResult_eq kind d count.isLt

theorem shift_resultFlags :
    ResultFlags (shifted kind d count.toNat) false (lastOut kind d count.toNat)
      (shift kind d count).2 := by
  rw [← shift_result, ← shiftOut_eq]
  exact ⟨rfl, decide_eq_true_iff, rfl, rfl⟩

end

/-! ### The run -/

/-- The count byte read, then Dy; the result and its flags written. -/
theorem shiftDy_writesShifted {y : RegNum} {ea : EA} {s s1 u : State} {loc : Loc} {b : Byte}
    {d : Word} (ho : operand ea 1 s = .ok (loc, b, s1)) (hd : readReg .d y s1 = .ok (d, u))
    (kind : ShiftKind) :
    ∃ f, finish (shiftDy kind y ea s) =
        .next ((u.setReg .d y (shifted kind d (b.toNat % 32))).setFlags f) ∧
      ResultFlags (shifted kind d (b.toNat % 32)) false (lastOut kind d (b.toNat % 32)) f := by
  have hcount : (b.setWidth 5).toNat = b.toNat % 32 := BitVec.toNat_setWidth 5 b
  have hrun : shiftDy kind y ea s = .ok (writeDy y (shift kind d (b.setWidth 5)) u) :=
    shiftDy_ok_iff.2 ⟨loc, b, s1, d, u, ho, hd, rfl⟩
  rw [writeDy, shift_result] at hrun
  rw [← hcount]
  exact ⟨_, finish_eq_next.2 hrun, shift_resultFlags kind d _⟩

/-! ### The statement -/

/-- Settles O45: each of the four is `shiftDy` of its kind. -/
theorem registerShiftResults : Obligations.RegisterShiftResults := by
  intro y ea s s1 u loc b d ho hd
  have hshift := shiftDy_writesShifted ho hd
  exact ⟨hshift .logicalLeft, hshift .logicalRight, hshift .arithmeticRight, hshift .rotateRight⟩

end Sys2Proof.Machine
end

section
/-! PROOF. Quick Arithmetic (46_quick_arith.md R212, R213). The model forms the amount as a number; the
statement widens the 3-bit field and adds one at the operand's width. They agree at every width
(`quickAmount_eq`), and both instructions write one result back. -/

namespace Sys2Proof.Machine

/-- The field plus one, in bit vectors (46_quick_arith.md R212; decision D3). -/
theorem quickAmount_eq (q : BitVec 3) (n : Nat) : quickAmount q n = q.setWidth n + 1 := by
  rw [quickAmount, BitVec.ofNat_add, BitVec.ofNat_toNat, BitVec.ofNat_eq_ofNat]

/-- Settles O47: each is one result written back, with the flags of `addFlags_adds` and
`subFlags_subtracts`. -/
theorem quickAddSubtractResults : Obligations.QuickAddSubtractResults := by
  intro q ss ea s s1 u loc a old ho hw
  have hpos := bytes_width_pos ss
  rw [← quickAmount_eq]
  refine ⟨?addq, ?subq⟩
  case addq =>
    obtain ⟨t, ht, hresult⟩ :=
      modifyEA_writesResult ho hw _ fun x => addFlags x (quickAmount q _) false
    exact ⟨t, _, _, ht, addFlags_adds a (quickAmount q _) false hpos, hresult⟩
  case subq =>
    obtain ⟨t, ht, hresult⟩ :=
      modifyEA_writesResult ho hw _ fun x => subFlags s.cfg.subCarry x (quickAmount q _) false
    exact ⟨t, _, _, ht, subFlags_subtracts _ a (quickAmount q _) false hpos, hresult⟩

end Sys2Proof.Machine
end

section
/-! PROOF. The end-of-run test and the fetch of a step (70_reset_and_hazards.md R290, 60_exceptions.md
R261 to R265, R269). The test and the fetch read the same halfword, so a step stops on the fault of that
read, at the halt word, or at a word that is no instruction. -/

namespace Sys2Proof.Machine

/-- The fault of reading the halfword at IP is the fault of the step, be it met in the end-of-run test or
in the fetch. -/
theorem step_of_read_error {s : State} {e : Fault}
    (h : memReadAligned .fetch 2 2 s.ip s = .error e) : step s = .fault e := by
  have hfetch : fetchExt16 s = .error e := run_bind_of_error h _
  have hinstr : fetchInstr s = .error e := by
    cases hw : s.cfg.haltWord with
    | none => simp [fetchInstr, haltTest, hw, hfetch]
    | some x => simp [fetchInstr, haltTest, hw, h]
  simp only [step, hinstr]

/-- Settles O7: each case is a fault of reading the halfword at IP, whose two bytes are byte 0 and byte 1
from IP on. -/
theorem instructionFetchFaults : Obligations.InstructionFetchFaults := by
  intro s
  have hzero : byteAddr s.ip 0 = s.ip := byteAddr_zero s.ip
  refine ⟨fun hc hodd => ?misaligned, fun ha hout => ?firstUnmapped,
    fun ha hin hout => ?secondUnmapped, fun hacc hc hnone => ?firstUnwritten,
    fun hacc hc hsome hnone => ?secondUnwritten⟩
  case misaligned => exact step_of_read_error (memReadAligned_misaligned hc (by omega))
  case firstUnmapped =>
    have hmap := checkMap_first_unmapped (kind := .fetch) (nb := 2) (j := 0) (by omega)
      (by rwa [hzero]) (by omega)
    rw [hzero] at hmap
    exact step_of_read_error (memReadAligned_unmapped ha hmap)
  case secondUnmapped =>
    refine step_of_read_error (memReadAligned_unmapped ha
      (checkMap_first_unmapped (j := 1) (by omega) hout fun k hk => ?_))
    rwa [Nat.lt_one_iff.1 hk, hzero]
  case firstUnwritten =>
    have hread := memReadAligned_unwritten (kind := .fetch) (j := 0) hacc hc (by omega)
      (by rwa [hzero]) (by omega)
    rw [hzero] at hread
    exact step_of_read_error hread
  case secondUnwritten =>
    refine step_of_read_error (memReadAligned_unwritten (j := 1) hacc hc (by omega) hnone
      fun k hk => ?_)
    rwa [Nat.lt_one_iff.1 hk, hzero]

section
variable {s : State} {w : Half} (hacc : Accessible s 2 2 s.ip) (h : HoldsValue s 2 s.ip w)
include hacc h

/-- The end-of-run test compares the halfword at IP (70_reset_and_hazards.md R290). -/
theorem haltTest_of_holdsValue : haltTest s = .ok (decide (s.cfg.haltWord = some w), s) := by
  cases hw : s.cfg.haltWord with
  | none => simp [haltTest, hw]
  | some x => simp [haltTest, hw, memReadAligned_of_holdsValue hacc h, eq_comm]

theorem step_of_haltWord (hhalt : s.cfg.haltWord = some w) : step s = .fault .halted := by
  simp [step, fetchInstr, haltTest_of_holdsValue hacc h, hhalt]

theorem step_of_decode_error {e : DecodeError} (hhalt : s.cfg.haltWord ≠ some w)
    (hd : decode w = .error e) : step s = .fault (.illegalInstruction w) := by
  have hfetch : fetchExt16 s = .ok (w, s.setIp (s.ip + 2)) := fetch_of_holdsValue hacc h
  simp [step, fetchInstr, haltTest_of_holdsValue hacc h, hhalt, hfetch, hd]

end

/-- Settles O6: the two bytes hold the word that the test compares and the decoder is given. -/
theorem stepStopsAtHaltAndIllegalWords : Obligations.StepStopsAtHaltAndIllegalWords := by
  intro s b0 b1 hacc h0 h1 w
  have hword : HoldsValue s 2 s.ip w := holdsValue_bytesHalf h0 h1
  exact ⟨step_of_haltWord hacc hword, fun e => step_of_decode_error hacc hword⟩

end Sys2Proof.Machine
end

section
/-! PROOF. A zero divisor (60_exceptions.md R264, R269). The four divisions are one shape, which stops so
exactly where both registers are read and the second is zero (`divideDy_zero_iff`); every other
instruction stops on an immediate destination or as its operations do, which is on an access alone. -/

namespace Sys2Proof.Machine

/-- An immediate destination stops an instruction before anything else (30_encoding.md R91). -/
theorem exec_immediateDestination {i : Instr} (s : State) (h : i.writtenEA = some .imm) :
    exec i s = .fault (.illegalInstruction (encode i)) := by
  cases i <;> cases h <;> rfl

/-- A division stops on a zero divisor once both registers are read (60_exceptions.md R264). -/
theorem divideDy_zero_iff {y x : RegNum} {f : Word → Word → Computed 32} {s : State} :
    finish (divideDy y x f s) = .fault .divideByZero ↔
      ∃ a s1 u, readReg .d y s = .ok (a, s1) ∧ readReg .d x s1 = .ok (0, u) := by
  rw [finish_eq_fault]
  constructor
  · intro h
    cases ho : operandsDy y x s with
    | error e =>
      rw [divideDy_error ho] at h
      cases h
      exact ((operandsDy_faultsOnAccess s y x).ofAccess _ ho).elim
    | ok r =>
      obtain ⟨a, b, u⟩ := r
      obtain ⟨s1, ha, hb⟩ := operandsDy_ok_iff.1 ho
      by_cases hb0 : b = 0
      · exact ⟨a, s1, u, ha, hb0 ▸ hb⟩
      · rw [divideDy_ok_iff.2 ⟨a, b, u, ho, hb0, rfl⟩] at h
        cases h
  · rintro ⟨a, s1, u, ha, hb⟩
    exact run_bind_of_ok (operandsDy_ok_iff.2 ⟨s1, ha, hb⟩) rfl

/-- Each of the four divisions is that shape. -/
theorem exec_division {i : Instr} {y x : RegNum}
    (hi : i ∈ [Instr.divu y x, .divs y x, .modu y x, .mods y x]) (s : State) :
    ∃ f, exec i s = finish (divideDy y x f s) := by
  simp only [List.mem_cons, List.not_mem_nil, or_false] at hi
  obtain rfl | rfl | rfl | rfl := hi <;> exact ⟨_, rfl⟩

/-- An instruction that stops on a zero divisor is a division. -/
theorem division_of_divideByZero {i : Instr} {s : State} (h : exec i s = .fault .divideByZero) :
    ∃ y x, i ∈ [Instr.divu y x, .divs y x, .modu y x, .mods y x] := by
  have hdest {ea : EA} (hw : i.writtenEA = some ea) : ea ≠ .imm := by
    rintro rfl
    rw [exec_immediateDestination s hw] at h
    cases h
  have hnever {r : Run State} {p : Prop} (h : finish r = .fault .divideByZero)
      (hr : FaultsOnAccess r) : p := (hr.ofAccess _ (finish_eq_fault.1 h)).elim
  cases i with
  | divu y x | divs y x | modu y x | mods y x => exact ⟨y, x, by simp⟩
  | nop | rfi | ldq y q => cases h
  | unlnk =>
    exact hnever h (.bind (readReg_faultsOnAccess ..) fun _ => .bind (pop32_faultsOnAccess _)
      fun _ => .ok _)
  | rfs ss =>
    exact hnever h (.bind (fetchFrameImm_faultsOnAccess ..) fun _ => .bind (pop32_faultsOnAccess _)
      fun _ => .ok _)
  | lnk ss =>
    exact hnever h (.bind (fetchFrameImm_faultsOnAccess ..) fun _ =>
      .bind (readReg_faultsOnAccess ..) fun _ => .bind (push32_faultsOnAccess ..) fun _ => .ok _)
  | cmpi ss ea => exact hnever h (.bind (operandImm_faultsOnAccess ..) fun _ => .ok _)
  | addi ss ea | subi ss ea | xori ss ea | ori ss ea | andi ss ea =>
    exact hnever h (modifyEAImm_faultsOnAccess _ _ _ (hdest rfl) _)
  | not ss ea | neg ss ea | rev ss ea | addq q ss ea | subq q ss ea =>
    exact hnever h (modifyEA_faultsOnAccess _ _ _ (hdest rfl) _)
  | lslq q ea | lsrq q ea | asrq q ea | rorq q ea =>
    exact hnever h (modifyQuickEA_faultsOnAccess _ _ (hdest rfl) _)
  | adc ss ea | sbc ss ea => exact hnever h (modifyEACarry_faultsOnAccess _ _ _ (hdest rfl) _)
  | rrc ea => exact hnever h (modifyQuickEACarry_faultsOnAccess _ _ (hdest rfl) _)
  | sti ss ea =>
    exact hnever h (.bind (guardDest_faultsOnAccess _ (hdest rfl) _) fun _ =>
      .bind (evalEAImm_faultsOnAccess ..) fun _ => writeLoc_faultsOnAccess ..)
  | clr ss ea =>
    exact hnever h (.bind (guardDest_faultsOnAccess _ (hdest rfl) _) fun _ =>
      .bind (evalEA_faultsOnAccess ..) fun _ => writeLoc_faultsOnAccess ..)
  | ext ss ea =>
    exact hnever h (.bind (guardDest_faultsOnAccess _ (hdest rfl) _) fun _ =>
      .bind (operand_faultsOnAccess ..) fun _ => .bind (writeExtended_faultsOnAccess ..)
        fun _ => .ok _)
  | st y ss ea =>
    exact hnever h (.bind (guardDest_faultsOnAccess _ (hdest rfl) _) fun _ =>
      .bind (evalEA_faultsOnAccess ..) fun _ => .bind (readRegN_faultsOnAccess ..) fun _ =>
        writeLoc_faultsOnAccess ..)
  | tst ss ea => exact hnever h (testEA_faultsOnAccess ..)
  | mul y x | hmulu y x | hmuls y x => exact hnever h (computeDy_faultsOnAccess ..)
  | lsl y ea | lsr y ea | asr y ea | ror y ea => exact hnever h (shiftDy_faultsOnAccess ..)
  | cmpq y q => exact hnever h (.bind (readReg_faultsOnAccess ..) fun _ => .ok _)
  | ld y ss ea =>
    exact hnever h (.bind (operand_faultsOnAccess ..) fun _ => regWriteN_faultsOnAccess ..)
  | cmp y ss ea =>
    exact hnever h (.bind (operand_faultsOnAccess ..) fun _ => .bind (readRegN_faultsOnAccess ..)
      fun _ => .ok _)
  | add y ss ea | sub y ss ea | xor y ss ea | or y ss ea | and y ss ea =>
    exact hnever h (computeRy_faultsOnAccess ..)
  | bcc cccc q =>
    exact hnever h (.bind (readCond_faultsOnAccess ..) fun _ => .ite (transfer_faultsOnAccess ..)
      (.ok _))
  | jcc cccc ss ea =>
    exact hnever h (.bind (readCond_faultsOnAccess ..) fun _ => .ite
      (.bind (operand_faultsOnAccess ..) fun _ => transfer_faultsOnAccess ..) (.ok _))

/-- Settles O44: the instruction is a division (`division_of_divideByZero`), and divisions stop so exactly
as `divideDy_zero_iff` says. -/
theorem onlyZeroDivisorsFaultSo : Obligations.OnlyZeroDivisorsFaultSo := by
  intro i s
  constructor
  · intro h
    obtain ⟨y, x, hi⟩ := division_of_divideByZero h
    obtain ⟨f, hexec⟩ := exec_division hi s
    obtain ⟨a, s1, u, ha, hb⟩ := divideDy_zero_iff.1 (hexec ▸ h)
    exact ⟨y, x, a, s1, u, hi, ha, hb⟩
  · rintro ⟨y, x, a, s1, u, hi, ha, hb⟩
    obtain ⟨f, hexec⟩ := exec_division hi s
    exact hexec.trans (divideDy_zero_iff.2 ⟨a, s1, u, ha, hb⟩)

end Sys2Proof.Machine
end

section
/-! PROOF. Flow Control (49_flow_control.md R250, R251, R253; 40_components.md R141, R143). Where the
condition reads false an instruction moves IP at most; where it reads true it is its transfer
(`transfer_of_ne_call`, `transfer_call`). A call pushes the address of the following instruction, and RFS
finds it in every state that agrees on SP and on the pushed bytes (`returnsTo_of_push`). -/

namespace Sys2Proof.Machine

/-- Every code but 0111 sets IP alone (40_components.md R143). -/
theorem transfer_of_ne_call {cccc : CondCode} (h : cccc ≠ 0b0111#4) (target : Word) (s : State) :
    transfer cccc target s = .ok (s.setIp target) :=
  transfer_ok_iff.2 (by simp [isCall, h])

/-- Reading a condition moves neither IP nor a parameter. -/
theorem readCond_ip_cfg {cccc : CondCode} {s s1 : State} {b : Bool}
    (h : readCond cccc s = .ok (b, s1)) : s1.ip = s.ip ∧ s1.cfg = s.cfg := by
  obtain ⟨n, -, rfl⟩ := readCond_ok h
  exact ⟨rfl, rfl⟩

/-- A condition that reads false ends a Bcc. -/
theorem exec_bcc_of_false {cccc : CondCode} {q : BitVec 8} {s s1 : State}
    (hc : readCond cccc s = .ok (false, s1)) : exec (.bcc cccc q) s = .next s1 :=
  finish_eq_next.2 (run_bind_of_ok hc rfl)

/-- A condition that reads false takes a Jcc past its extension words (49_flow_control.md R251). -/
theorem exec_jcc_of_false {cccc : CondCode} {ss : Scale} {ea : EA} {s s1 : State}
    (hc : readCond cccc s = .ok (false, s1)) :
    exec (.jcc cccc ss ea) s =
      .next (s1.setIp (s1.ip + BitVec.ofNat 32 (extLen s1.cfg (bytes ss) ea))) :=
  finish_eq_next.2 (run_bind_of_ok hc rfl)

/-- Settles O49: the condition decides between no change and the transfer, which for code 0111 is
`transfer_call`. -/
theorem branchResults : Obligations.BranchResults := by
  refine fun cccc q s => ⟨fun f => readCond_of_written, fun s1 => exec_bcc_of_false,
    fun s1 hc hne => ?taken, ?call⟩
  case taken =>
    rw [← (readCond_ip_cfg hc).1]
    exact exec_bcc_of_transfer hc (transfer_of_ne_call hne _ s1)
  case call =>
    rintro rfl sp s1 hsp hacc
    obtain ⟨t, ht, hend⟩ := transfer_call hsp hacc (s.ip + q.signExtend 32)
    exact ⟨t, exec_bcc_of_transfer (readCond_always s).2 ht, hend⟩

/-- Under `JCC_KIND_BY = scale` the operand is an address under the address scale and an offset under the
others (49_flow_control.md R251; decision D24). -/
theorem jumpTarget_of_scale {c : Config} (hc : c.jccKindBy = .scale) (ss : Scale) (ea : EA)
    (next : Word) (v : BitVec (8 * bytes ss)) :
    jumpTarget c ss ea next v = if ss = .a then v.setWidth 32 else next + v.signExtend 32 := by
  simp [jumpTarget, jumpIsAbsolute, hc]

/-- Settles O50: a Jcc not taken moves IP past its extension words; one taken is its transfer in the
state its operand leaves. -/
theorem jumpResults : Obligations.JumpResults := by
  refine fun cccc ss ea s => ⟨fun s1 hc => ?notTaken, fun s1 s2 loc v hc ho =>
    ⟨jumpTarget s2.cfg ss ea s2.ip v, fun hkind => ?target, jumpTarget_cases .., fun hne => ?taken,
      ?call⟩⟩
  case notTaken =>
    obtain ⟨hip, hcfg⟩ := readCond_ip_cfg hc
    rw [← hip, ← hcfg]
    exact exec_jcc_of_false hc
  case target =>
    have hcfg : s2.cfg = s.cfg := (operand_keepsParameters ho).cfg.trans (readCond_ip_cfg hc).2
    exact jumpTarget_of_scale (hcfg ▸ hkind) ..
  case taken => exact exec_jcc_of_transfer hc ho (transfer_of_ne_call hne _ s2)
  case call =>
    rintro rfl sp s3 hsp hacc
    obtain ⟨t, ht, hend⟩ := transfer_call hsp hacc (jumpTarget s2.cfg ss ea s2.ip v)
    exact ⟨t, exec_jcc_of_transfer hc ho ht, hend⟩

/-! ### A call and its return -/

/-- Code 0111 pushes IP and goes to its target. -/
theorem transfer_call_ok {target : Word} {s t : State} (h : transfer 0b0111#4 target s = .ok t) :
    ∃ p, push32 s.ip s = .ok p ∧ t = p.setIp target := by
  simpa [isCall] using transfer_ok_iff.1 h

/-- RFS takes the word that a push stored, in every state that agrees with the one after the push on SP,
on the pushed bytes and on the parameters (41_miscellaneous.md R163). -/
theorem returnsTo_of_push {ret sp : Word} {s s1 p : State} (hpush : push32 ret s = .ok p)
    (hsp : readSp s = .ok (sp, s1)) (target : Word) : ReturnsTo (p.setIp target) ret sp := by
  intro ss u u1 imm huSp hucfg hbytes himm
  rw [setIp_cfg] at huSp hucfg
  rw [setIp_regAt] at huSp
  have hpSp : p.regAt .a p.cfg.spIndex = some (sp - 4) := by
    obtain ⟨m, rfl⟩ := push32_eq hpush hsp
    simp
  obtain ⟨n, -, rfl⟩ := fetchFrameImm_ok himm
  have hread := memRead_of_push32 hpush hsp
    (u := (u.withReads n).setIp (u.ip + BitVec.ofNat 32 (immLength u.cfg (bytes ss)))) hucfg hbytes
  have hrun := exec_rfs_of_read himm (sp := sp - 4) (by simpa [hucfg, hpSp] using huSp) hread
  refine ⟨_, hrun, rfl, ?_⟩
  simp [setSp_eq, hucfg]

/-- Settles O55: either call is the transfer of code 0111, so it pushed the address after the instruction,
which is where IP stands once its operand is read. -/
theorem callThenReturnComesBack : Obligations.CallThenReturnComesBack := by
  refine ⟨fun q s s1 t sp hsp hexec => ?branch,
    fun ss ea s s1 s2 t loc v sp ho hsp hexec => ?jump⟩
  case branch =>
    have ht : transfer 0b0111#4 (s.ip + q.signExtend 32) s = .ok t := finish_eq_next.1 hexec
    obtain ⟨p, hpush, rfl⟩ := transfer_call_ok ht
    exact returnsTo_of_push hpush hsp _
  case jump =>
    have ht : transfer 0b0111#4 (jumpTarget s1.cfg ss ea s1.ip v) s1 = .ok t :=
      (run_bind_of_ok ho rfl).symm.trans (finish_eq_next.1 hexec)
    obtain ⟨p, hpush, rfl⟩ := transfer_call_ok ht
    rw [← (operand_ok ho).2.1.ip]
    exact returnsTo_of_push hpush hsp _

end Sys2Proof.Machine
end

section
/-! PROOF. Arithmetic to a register: LD, ADD, SUB, XOR, OR, AND (48_arithmetic.md R230, R232 to R236,
R238). Each ends in one narrow write of the register (`setReg_writesReg`), the operations with their
flags after it. -/

namespace Sys2Proof.Machine

/-- The A file under the address scale, the D file under the others (40_components.md R121). -/
theorem regSel_eq (ss : Scale) : regSel ss = if ss = .a then .a else .d := by
  cases ss <;> rfl

/-- A narrow result in a register, and nothing else changed (10_state.md R27). -/
theorem setReg_writesReg (file : RegFile) (i : RegNum) {nb : Nat} (r : BitVec (8 * nb)) (old : Word)
    (u : State) :
    WritesReg file i nb r none old u (u.setReg file i (narrowed u.cfg.narrowWrite nb old r)) :=
  ⟨regAt_setReg_self .., ⟨fun _ _ hne => regAt_setReg_ne _ _ hne, setReg_mem .., setReg_ip ..,
    setReg_cfg .., setReg_freeReads ..⟩, fun _ => setReg_flagAt ..⟩

/-- The flags set after the result. -/
theorem WritesReg.setFlags {file : RegFile} {i : RegNum} {nb : Nat} {r : BitVec (8 * nb)}
    {f : Option Flags} {old : Word} {s t : State} (h : WritesReg file i nb r f old s t) (g : Flags) :
    WritesReg file i nb r (some g) old s (t.setFlags g) := by
  obtain ⟨hreg, ⟨hregs, hmem, hip, hcfg, hreads⟩, -⟩ := h
  exact ⟨(setFlags_regAt ..).trans hreg,
    ⟨fun f j hne => (setFlags_regAt ..).trans (hregs f j hne), hmem, hip, hcfg, hreads⟩,
    setFlags_flagAt t g⟩

section
variable {y : RegNum} {ss : Scale} {ea : EA} {s s1 s2 u : State} {loc : Loc} {w old : Word}
  {b : BitVec (8 * bytes ss)}

/-- LD writes its operand (48_arithmetic.md R230). -/
theorem exec_ld_writesReg (hb : operand ea (bytes ss) s = .ok (loc, b, s1))
    (ho : readOld (regSel ss) y (bytes ss) s1 = .ok (old, u)) :
    ∃ t, exec (.ld y ss ea) s = .next t ∧ WritesReg (regSel ss) y (bytes ss) b none old u t := by
  have hcfg : u.cfg = s1.cfg := (KeepsParameters.of_withReads (readOld_ok ho)).cfg
  refine ⟨_, finish_eq_next.2 (run_bind_of_ok hb (regWriteN_ok_iff.2 ⟨old, u, ho, rfl⟩)), ?_⟩
  rw [← hcfg]
  exact setReg_writesReg ..

section
variable (hb : operand ea (bytes ss) s = .ok (loc, b, s1))
  (hw : readReg (regSel ss) y s1 = .ok (w, s2))
  (ho : readOld (regSel ss) y (bytes ss) s2 = .ok (old, u))
include hb hw ho

/-- Operand, register and old value read; the result and its flags written (48_arithmetic.md R238). -/
theorem computeRy_writesReg
    (f : BitVec (8 * bytes ss) → BitVec (8 * bytes ss) → Computed (8 * bytes ss)) :
    ∃ t, finish (computeRy y ss ea f s) = .next t ∧
      WritesReg (regSel ss) y (bytes ss) (f (w.setWidth _) b).1 (some (f (w.setWidth _) b).2) old
        u t := by
  have hcfg : u.cfg = s2.cfg := (KeepsParameters.of_withReads (readOld_ok ho)).cfg
  refine ⟨_, finish_eq_next.2 (computeRy_ok_iff.2 ⟨loc, b, s1, w, s2, old, u, hb, hw, ho, rfl⟩), ?_⟩
  rw [← hcfg]
  exact (setReg_writesReg ..).setFlags _

/-- The three logic operations: the flags of R147. -/
theorem computeRy_logicFlags
    (op : BitVec (8 * bytes ss) → BitVec (8 * bytes ss) → BitVec (8 * bytes ss)) :
    ∃ t f, finish (computeRy y ss ea (fun a b => logicFlags (op a b)) s) = .next t ∧
      ResultFlags (op (w.setWidth _) b) false false f ∧
      WritesReg (regSel ss) y (bytes ss) (op (w.setWidth _) b) (some f) old u t := by
  obtain ⟨t, ht, hresult⟩ := computeRy_writesReg hb hw ho fun a b => logicFlags (op a b)
  exact ⟨t, _, ht, logicFlags_resultFlags _, hresult⟩

end

end

/-- Settles O48: LD is one write of its operand; each operation is one write of its result, the sum and
the difference with the flags of `addFlags_adds` and `subFlags_subtracts`. -/
theorem registerArithmeticResults : Obligations.RegisterArithmeticResults := by
  intro y ss ea s s1 loc b hb
  have hpos := bytes_width_pos ss
  rw [← regSel_eq]
  refine ⟨fun old u => exec_ld_writesReg hb, fun w s2 old u hw ho => ⟨?add, ?sub,
    computeRy_logicFlags hb hw ho (· ^^^ ·), computeRy_logicFlags hb hw ho (· ||| ·),
    computeRy_logicFlags hb hw ho (· &&& ·)⟩⟩
  case add =>
    obtain ⟨t, ht, hresult⟩ := computeRy_writesReg hb hw ho fun a b => addFlags a b false
    exact ⟨t, _, _, ht, addFlags_adds _ b false hpos, hresult⟩
  case sub =>
    obtain ⟨t, ht, hresult⟩ :=
      computeRy_writesReg hb hw ho fun a b => subFlags s.cfg.subCarry a b false
    exact ⟨t, _, _, ht, subFlags_subtracts _ _ b false hpos, hresult⟩

end Sys2Proof.Machine
end

section
/-! PROOF. Quick Shifts and Rotates (47_quick_shifts.md R220 to R225). Each writes one result back at 32
bits, the shifts that of `shift`. RRC is the rotation by one of the 33-bit quantity with C on top of the
operand (`carryAbove_rotatePair`), and 33 rotations by one are none. -/

namespace Sys2Proof.Machine

/-! ### Rotation by one -/

theorem getLsbD_rotateRight_one {w : Nat} (hw : 1 < w) (x : BitVec w) {i : Nat} (hi : i < w) :
    (x.rotateRight 1).getLsbD i = x.getLsbD ((i + 1) % w) := by
  rw [BitVec.getLsbD_rotateRight_of_lt hw]
  by_cases htop : i < w - 1
  · simp [htop, Nat.mod_eq_of_lt (show i + 1 < w by omega), Nat.add_comm]
  · obtain rfl : i = w - 1 := by omega
    simp [show w - 1 + 1 = w by omega, hi]

/-- Bit `i` after `n` rotations right by one stood `n` places higher, counted around. -/
theorem getLsbD_rotateRight_one_iterate {w : Nat} (hw : 1 < w) (x : BitVec w) (n : Nat) {i : Nat}
    (hi : i < w) : ((·.rotateRight 1)^[n] x).getLsbD i = x.getLsbD ((i + n) % w) := by
  induction n generalizing i with
  | zero => simp [Nat.mod_eq_of_lt hi]
  | succ n ih =>
    rw [Function.iterate_succ_apply', getLsbD_rotateRight_one hw _ hi, ih (Nat.mod_lt _ (by omega)),
      Nat.mod_add_mod, Nat.add_right_comm, Nat.add_assoc]

/-- As many rotations by one as there are bits change nothing. -/
theorem rotateRight_one_iterate_width {w : Nat} (hw : 1 < w) (x : BitVec w) :
    (·.rotateRight 1)^[w] x = x := by
  refine BitVec.eq_of_getLsbD_eq fun i hi => ?_
  rw [getLsbD_rotateRight_one_iterate hw x w hi, Nat.add_mod_right, Nat.mod_eq_of_lt hi]

/-! ### RRC -/

/-- Each bit RRC leaves: the one above it, and C on top (47_quick_shifts.md R224). -/
theorem getLsbD_rotateThroughCarry (d : Word) (c : Bool) (i : Nat) :
    (rotateThroughCarry d c).1.getLsbD i =
      if i < 31 then d.getLsbD (i + 1) else decide (i = 31) && c := by
  have htop : (if c then 0x80000000#32 else 0#32).getLsbD i = (decide (i = 31) && c) := by
    cases c with
    | false => simp
    | true =>
      have hbit : 0x80000000#32 = BitVec.twoPow 32 31 := rfl
      simp [hbit, BitVec.getLsbD_twoPow, eq_comm]
  rw [rotateThroughCarry, BitVec.getLsbD_or, htop, BitVec.getLsbD_ushiftRight, Nat.add_comm 1]
  by_cases hi : i < 31
  · simp [hi, hi.ne]
  · simp [hi, BitVec.getLsbD_of_ge d (i + 1) (by omega)]

/-- RRC moves the operand down by one with C on top. -/
theorem rotateThroughCarry_fst (d : Word) (c : Bool) :
    (rotateThroughCarry d c).1 = BitVec.ofBool c ++ d.extractLsb' 1 31 := by
  refine BitVec.eq_of_getLsbD_eq fun i hi => (getLsbD_rotateThroughCarry d c i).trans
    (Eq.trans ?_ BitVec.getLsbD_append.symm)
  by_cases hlow : i < 31
  · simp [hlow, Nat.add_comm]
  · obtain rfl : i = 31 := by omega
    simp

theorem rotateThroughCarry_resultFlags (d : Word) (c : Bool) :
    ResultFlags (rotateThroughCarry d c).1 false (d.getLsbD 0) (rotateThroughCarry d c).2 :=
  ⟨rfl, decide_eq_true_iff, rfl, rfl⟩

/-- The operand and C as RRC leaves them. -/
def rotatePair (p : Word × Bool) : Word × Bool :=
  ((rotateThroughCarry p.1 p.2).1, (rotateThroughCarry p.1 p.2).2.c)

/-- The 33-bit quantity that RRC rotates: C above the operand (47_quick_shifts.md R224). -/
def carryAbove (p : Word × Bool) : BitVec 33 := BitVec.cons p.2 p.1

theorem getLsbD_carryAbove (p : Word × Bool) (i : Nat) :
    (carryAbove p).getLsbD i = if i = 32 then p.2 else p.1.getLsbD i :=
  BitVec.getLsbD_cons p.2 p.1 i

theorem carryAbove_injective : Function.Injective carryAbove := by
  intro p p' h
  have hbit (i : Nat) := congrArg (·.getLsbD i) h
  simp only [getLsbD_carryAbove] at hbit
  refine Prod.ext (BitVec.eq_of_getLsbD_eq fun i hi => ?_) (hbit 32)
  simpa [hi.ne] using hbit i

/-- RRC rotates the 33-bit quantity by one. -/
theorem carryAbove_rotatePair (p : Word × Bool) :
    carryAbove (rotatePair p) = (carryAbove p).rotateRight 1 := by
  refine BitVec.eq_of_getLsbD_eq fun i hi => ?_
  rw [getLsbD_rotateRight_one (by norm_num) _ hi, getLsbD_carryAbove, getLsbD_carryAbove, rotatePair,
    getLsbD_rotateThroughCarry]
  obtain hlow | rfl | rfl : i < 31 ∨ i = 31 ∨ i = 32 := by omega
  · have hnext : (i + 1) % 33 = i + 1 := Nat.mod_eq_of_lt (by omega)
    have hi32 : i ≠ 32 := by omega
    simp [hlow, hlow.ne, hi32, hnext]
  · simp
  · simp [rotateThroughCarry]

/-- Settles O34: `carryAbove` takes RRC to a rotation by one of 33 bits, of which 33 are none. -/
theorem thirtyThreeRotatesRestore : Obligations.ThirtyThreeRotatesRestore := by
  intro d c
  have hsemiconj : Function.Semiconj carryAbove rotatePair (·.rotateRight 1) := carryAbove_rotatePair
  apply carryAbove_injective
  calc carryAbove (rotatePair^[33] (d, c))
      = (·.rotateRight 1)^[33] (carryAbove (d, c)) := hsemiconj.iterate_right 33 (d, c)
    _ = carryAbove (d, c) := rotateRight_one_iterate_width (by norm_num) _

/-! ### The results -/

/-- A quick shift writes back its operand, shifted (47_quick_shifts.md R220 to R223, R225). -/
theorem modifyQuickEA_writesShifted {ea : EA} {s s1 u : State} {loc : Loc} {d old : Word}
    (ho : operand ea 4 s = .ok (loc, d, s1)) (hw : loc.Writable 4 s1 old u) (w : Half)
    (kind : ShiftKind) (q : BitVec 5) :
    ∃ t f, finish (modifyQuickEA w ea (fun x => shift kind x q) s) = .next t ∧
      WritesResult loc 4 (shifted kind d q.toNat) (some f) old u t ∧
      ResultFlags (shifted kind d q.toNat) false (lastOut kind d q.toNat) f := by
  obtain ⟨t, ht, hresult⟩ := modifyEA_writesResult (ss := .w) ho hw w fun x => shift kind x q
  rw [← shift_result]
  exact ⟨t, _, ht, hresult, shift_result kind d q ▸ shift_resultFlags kind d q⟩

/-- Settles O46: the shifts by `modifyQuickEA_writesShifted`, RRC as one result written back with C read
after the operand. -/
theorem quickShiftResults : Obligations.QuickShiftResults := by
  intro ea s s1 loc d ho
  refine ⟨fun old u hw => ?shifts, fun c s2 old u hc hw => ?rrc⟩
  case shifts =>
    intro Shifts q
    have hshift (w : Half) (kind : ShiftKind) := modifyQuickEA_writesShifted ho hw w kind q
    exact ⟨hshift _ .logicalLeft, hshift _ .logicalRight, hshift _ .arithmeticRight,
      fun _ => hshift _ .rotateRight⟩
  case rrc =>
    obtain ⟨t, ht, hresult⟩ := modifyEACarry_writesResult (ss := .w) ho hc hw _ rotateThroughCarry
    exact ⟨t, _, _, ht, hresult, rotateThroughCarry_fst d c, rotateThroughCarry_resultFlags d c⟩

end Sys2Proof.Machine
end
